-- ==== Sys2Proof/Word.lean ====
section
/-! DEFINITION. The word types of the HX4 hash engine (00_scope.md section 5: u8, u32, u64, u128). -/

namespace Sys2Proof

/-- A byte of memory, u8. -/
abbrev Byte := BitVec 8

/-- A 32-bit word: CMD, STATUS, ERR, CAP and a lane register (R22 to R25, R33). -/
abbrev Word32 := BitVec 32

/-- A 64-bit word: an operand register at the wider AW (R6, log 1), and a SipHash word (R40). -/
abbrev Word64 := BitVec 64

/-- A 128-bit word: a block buffer and the digest staging register (R39, R49). -/
abbrev Word128 := BitVec 128

end Sys2Proof
end

