-- ==== Sys2Proof/Config.lean ====
section
/-! DEFINITION. The parameters an implementation fixes (00_scope.md section 4) and the uninterpreted values. -/

namespace Sys2Proof

/-- The two legal values of the parameter AW, the width of an address and of a length (R6). -/
inductive AddrWidth where
  | aw32
  | aw64
  deriving DecidableEq, Repr

/-- AW as a number of bits (R6). -/
def AddrWidth.bits : AddrWidth → Nat
  | .aw32 => 32
  | .aw64 => 64

/-- The parameters of one piece of hardware that a rule depends on (R6, R9). They are plain data that State carries
and no step changes, so every statement over a state covers every legal choice (log 1). -/
structure Params where
  /-- AW (R6) -/
  aw : AddrWidth
  /-- CAP_VN, the narrow vector backend is present (R9) -/
  capVN : Bool
  /-- CAP_VA, wide vector backend A is present (R9) -/
  capVA : Bool
  /-- CAP_VB, wide vector backend B is present (R9) -/
  capVB : Bool
  deriving DecidableEq, Repr

/-- The spec's default parameters (R6, R9): AW = 64, all three vector backends present. -/
def Params.default : Params := { aw := .aw64, capVN := true, capVA := true, capVB := true }

/-- HX4_BASE (R8): the platform chooses it and no rule depends on it, so it has no value here (log 17). -/
opaque Config.hx4Base : Nat

/-- The bytes a digest write that reset cuts off leaves behind: any values (R302, U6, log 7). -/
opaque Config.freeByte : Nat → Byte

end Sys2Proof
end

