-- ==== Sys2Proof/Syntax.lean ====
section
/-! DEFINITION. The ten commands of the opcode map (30_encoding.md R95), and the names their two fields stand for. -/

namespace Sys2Proof

/-- VARIANT (R91): which hash is computed. -/
inductive Variant where
  | m32
  | m32k
  | m128
  | sip
  deriving DecidableEq, Repr

/-- BACKEND (R92): which implementation of the main loop is used. -/
inductive Backend where
  | ref
  | opt
  | vn
  | va
  | vb
  deriving DecidableEq, Repr

/-- The legal commands, one constructor for each row of the opcode table (R95). A command word carries no operand (R99). -/
inductive Instr where
  /-- M32.REF (R184) -/
  | m32Ref
  /-- M32.OPT (R185) -/
  | m32Opt
  /-- M32K.REF (R186) -/
  | m32kRef
  /-- M32K.OPT (R187) -/
  | m32kOpt
  /-- M128.REF (R203) -/
  | m128Ref
  /-- M128.OPT (R204) -/
  | m128Opt
  /-- M128.VN (R205) -/
  | m128Vn
  /-- M128.VA (R206) -/
  | m128Va
  /-- M128.VB (R207) -/
  | m128Vb
  /-- SIP.REF (R251) -/
  | sipRef
  deriving DecidableEq, Repr

end Sys2Proof
end

