-- ==== Sys2Proof/WellFormed.lean ====
section
/-! DEFINITION. When a command is well formed for one piece of hardware: its backend is present (30_encoding.md R97). -/

namespace Sys2Proof

/-- A command word carries no operand (R99), so the only check is that a vector backend it names is present (R97). -/
def Instr.wellFormed (hw : Params) : Instr → Bool
  | .m32Ref => true
  | .m32Opt => true
  | .m32kRef => true
  | .m32kOpt => true
  | .m128Ref => true
  | .m128Opt => true
  | .m128Vn => hw.capVN
  | .m128Va => hw.capVA
  | .m128Vb => hw.capVB
  | .sipRef => true

end Sys2Proof
end

