-- ==== Sys2Proof/Decode.lean ====
section
/-! DEFINITION. Decoding and encoding of the one command format CMD32 (30_encoding.md R90 to R100). -/

namespace Sys2Proof

/-- Why a word is no command of the opcode map (R96, R98): none of these is ignored. -/
inductive DecodeError where
  /-- a bit of 31:7 is set -/
  | highBitsSet
  /-- bit 3 is set -/
  | bitThreeSet
  /-- VARIANT 0, 5, 6 or 7 (R91) -/
  | reservedVariant
  /-- BACKEND 5, 6 or 7 (R92) -/
  | reservedBackend
  /-- both fields legal, the pair no cell of the opcode map (R95) -/
  | illegalPair
  deriving DecidableEq, Repr

/-- The VARIANT codes (R91). -/
def Variant.code : Variant → BitVec 3
  | .m32 => 1
  | .m32k => 2
  | .m128 => 3
  | .sip => 4

/-- The BACKEND codes (R92). -/
def Backend.code : Backend → BitVec 3
  | .ref => 0
  | .opt => 1
  | .vn => 2
  | .va => 3
  | .vb => 4

/-- The VARIANT of a three-bit field; 0, 5, 6 and 7 are reserved (R91). -/
def Variant.ofCode (c : BitVec 3) : Option Variant :=
  if c = 1 then some .m32
  else if c = 2 then some .m32k
  else if c = 3 then some .m128
  else if c = 4 then some .sip
  else none

/-- The BACKEND of a three-bit field; 5, 6 and 7 are reserved (R92). -/
def Backend.ofCode (c : BitVec 3) : Option Backend :=
  if c = 0 then some .ref
  else if c = 1 then some .opt
  else if c = 2 then some .vn
  else if c = 3 then some .va
  else if c = 4 then some .vb
  else none

/-- The VARIANT of a command (R95). -/
def Instr.variant : Instr → Variant
  | .m32Ref => .m32
  | .m32Opt => .m32
  | .m32kRef => .m32k
  | .m32kOpt => .m32k
  | .m128Ref => .m128
  | .m128Opt => .m128
  | .m128Vn => .m128
  | .m128Va => .m128
  | .m128Vb => .m128
  | .sipRef => .sip

/-- The BACKEND of a command (R95). -/
def Instr.backend : Instr → Backend
  | .m32Ref => .ref
  | .m32Opt => .opt
  | .m32kRef => .ref
  | .m32kOpt => .opt
  | .m128Ref => .ref
  | .m128Opt => .opt
  | .m128Vn => .vn
  | .m128Va => .va
  | .m128Vb => .vb
  | .sipRef => .ref

/-- The opcode map (R95): an empty cell is no command. -/
def Instr.ofPair : Variant → Backend → Option Instr
  | .m32, .ref => some .m32Ref
  | .m32, .opt => some .m32Opt
  | .m32k, .ref => some .m32kRef
  | .m32k, .opt => some .m32kOpt
  | .m128, .ref => some .m128Ref
  | .m128, .opt => some .m128Opt
  | .m128, .vn => some .m128Vn
  | .m128, .va => some .m128Va
  | .m128, .vb => some .m128Vb
  | .sip, .ref => some .sipRef
  | .m32, .vn | .m32, .va | .m32, .vb => none
  | .m32k, .vn | .m32k, .va | .m32k, .vb => none
  | .sip, .opt | .sip, .vn | .sip, .va | .sip, .vb => none

/-- Decoding of a command word (R90, R96): bits 31:7 and bit 3 must be 0, VARIANT is bits 2:0 and BACKEND bits 6:4.
Presence of the backend (R97) is asked at issue, since it depends on the hardware. -/
def decode (w : Word32) : Except DecodeError Instr :=
  if w.extractLsb' 7 25 ≠ 0 then .error .highBitsSet
  else if w.getLsbD 3 then .error .bitThreeSet
  else
    match Variant.ofCode (w.extractLsb' 0 3) with
    | none => .error .reservedVariant
    | some v =>
      match Backend.ofCode (w.extractLsb' 4 3) with
      | none => .error .reservedBackend
      | some b =>
        match Instr.ofPair v b with
        | none => .error .illegalPair
        | some i => .ok i

/-- The command word of a command (R90): BACKEND in bits 6:4, VARIANT in bits 2:0, every other bit 0. -/
def encode (i : Instr) : Word32 := 0#25 ++ i.backend.code ++ 0#1 ++ i.variant.code

/-- The decoder on a word numbered as the opcode table numbers it: the bits of the word below `nbits`, those above 0. -/
def decodeTableWord (nbits w : Nat) : Option Instr :=
  match decode (BitVec.ofNat 32 (w % 2 ^ nbits)) with
  | .ok i => some i
  | .error _ => none

end Sys2Proof
end

