-- ==== Sys2Proof/Machine/State.lean ====
section
/-! DEFINITION. The state of one engine, its memory and the host beside it (10_state.md), the reasons a step can stop, and
the state right after reset. -/

namespace Sys2Proof.Machine

/-- The error codes (R271). -/
inductive ErrorCode where
  | success
  | invalidParameter
  | outputTooSmall
  | rangesOverlap
  | keyTooSmall
  deriving DecidableEq, Repr

/-- What the Validator answers: an error code (R140), or that a range passes the top of the address space, for which the
spec gives the command no meaning (R152). -/
inductive Verdict where
  | code (e : ErrorCode)
  | pastTop
  deriving DecidableEq, Repr

/-- PHASE (R42). -/
inductive Phase where
  | idle
  | validate
  | init
  | prefixFold
  | rotl
  | main
  | rotr
  | tail
  | mix
  | write
  | sipInit
  | sipWords
  | sipLast
  | sipFin
  deriving DecidableEq, Repr

/-- The ten registers of the register file, in index order (R21). -/
inductive Reg where
  | cmd
  | status
  | err
  | cap
  | inAddr
  | inLen
  | keyAddr
  | keyLen
  | outAddr
  | outCap
  deriving DecidableEq, Repr

/-- Four 32-bit elements: the lane registers S (R33), and the gathered bytes G (R39). -/
structure Quad where
  e0 : Word32
  e1 : Word32
  e2 : Word32
  e3 : Word32
  deriving DecidableEq, Repr

/-- The four 64-bit words V of the keyed permutation hash (R40). -/
structure SipWords where
  v0 : Word64
  v1 : Word64
  v2 : Word64
  v3 : Word64
  deriving DecidableEq, Repr

/-- One memory access of the engine: its first address and its width in bytes (R63). -/
inductive Access where
  | read (addr width : Nat)
  | write (addr width : Nat)
  deriving DecidableEq, Repr

/-- The bytes a command reads and writes (R65), as its operands were when it was issued: its input, the key bytes it uses and
its output bytes. -/
structure Footprint where
  inAddr : Nat
  inLen : Nat
  keyAddr : Nat
  keyLen : Nat
  outAddr : Nat
  outLen : Nat
  deriving DecidableEq, Repr

/-- An operation the host has posted: a register access (R103), the polling of STATUS (R104), a byte access of the host or
another agent to the shared memory (R60, R76), or the platform's reset event (R300). -/
inductive HostOp where
  /-- `WR` of the register at an index (R120) -/
  | wr (index value : Nat)
  /-- `RD` of the register at an index (R121) -/
  | rd (index : Nat)
  /-- `WAIT`: `RD STATUS` until BUSY reads 0 (R104) -/
  | wait
  /-- a byte written to memory by the host or another agent (R60) -/
  | store (addr : Nat) (value : Byte)
  /-- a byte read from memory by the host or another agent (R60) -/
  | load (addr : Nat)
  /-- the reset event (R300) -/
  | reset
  deriving DecidableEq, Repr

/-- Which agent moves at a step while a command runs (R311, U7; log 5). -/
inductive Turn where
  | host
  | engine
  deriving DecidableEq, Repr

/-- Memory: the bytes that differ from what an unlisted address reads as, by rising address (R60, log 3). -/
abbrev Memory := List Host.Cell

/-- What an address that memory does not list reads as (DESIGN CHOICE, unsafe: log 3; no rule gives the contents of memory
nothing has written). -/
def Memory.unlisted : Byte := 0

/-- Why the machine stops with a fault. -/
inductive Fault where
  /-- Raised by a host load or store at an address at or above 2^AW, which does not exist (R60). Safe: the model stops
  (log 10). -/
  | outsideAddressSpace (addr : Nat)
  /-- Raised by the engine's step when BUSY is set while PHASE is IDLE, or PHASE is none of the phases of the command in
  CMD, or CMD holds no command: no run reaches such a state. Safe: the model stops (log 14). -/
  | inconsistent
  deriving DecidableEq, Repr

/-- Why the model gives a step no meaning. -/
inductive Refusal where
  /-- An instruction the model has no meaning for; no arm raises it. Safe. -/
  | notModelled (mnemonic : String)
  /-- Raised by a command that passes checks 1 to 3 of the Validator with a non-empty range that passes the top of the
  address space: the spec gives it no meaning and has a model refuse it (R71, R152, U1). Safe: the model stops (log 8). -/
  | rangePastTop
  /-- Raised by a host load or store that touches the footprint of a command against the host's duty, between its issue and
  the RD that returns DONE: the spec gives such a run no meaning (R76, R306, U3). Safe: the model stops (log 9). -/
  | bufferTouched
  deriving DecidableEq, Repr

/-- The state of one engine (R20), memory, and the host's side. -/
structure State where
  /-- the hardware's parameters, which no step changes (R6, R9; log 1); CAP is computed from them (R25) -/
  hw : Params
  /-- CMD (R22) -/
  cmd : Word32
  /-- STATUS (R23) -/
  status : Word32
  /-- ERR (R24) -/
  err : Word32
  /-- IN_ADDR (R26): AW bits -/
  inAddr : Word64
  /-- IN_LEN (R27): AW bits -/
  inLen : Word64
  /-- KEY_ADDR (R28): AW bits -/
  keyAddr : Word64
  /-- KEY_LEN (R29): AW bits -/
  keyLen : Word64
  /-- OUT_ADDR (R30): AW bits -/
  outAddr : Word64
  /-- OUT_CAP (R31): AW bits -/
  outCap : Word64
  /-- the lane registers S[0..3] (R33); ACC is S[0] (R34) -/
  lanes : Quad
  /-- LANE (R36): 2 bits -/
  lane : Fin 4
  /-- K (R37): 5 bits -/
  k : BitVec 5
  /-- ROT (R37): 2 bits -/
  rot : Fin 4
  /-- POS (R38): AW bits -/
  pos : Word64
  /-- X, the block buffer (R39) -/
  x : Word128
  /-- P, the permuted block (R39) -/
  p : Word128
  /-- G[0..3], the gathered bytes (R39) -/
  g : Quad
  /-- V[0..3] (R40) -/
  v : SipWords
  /-- K0 (R41) -/
  k0 : Word64
  /-- K1 (R41) -/
  k1 : Word64
  /-- MW (R41) -/
  mw : Word64
  /-- PHASE (R42) -/
  phase : Phase
  /-- DG (R49) -/
  dg : Word128
  /-- memory, shared with the host (R60) -/
  mem : Memory
  /-- the model's own: the host's pending operations, oldest first (log 12) -/
  host : List HostOp
  /-- the model's own: who moves at the coming steps of a running command (log 5) -/
  pace : List Turn
  /-- the model's own: the value the host's last read returned (log 12) -/
  hostData : Word64
  /-- the model's own: how many free bytes have been drawn (log 7) -/
  free : Nat
  /-- the model's own: the engine's accesses for the last issued command, newest first (log 11) -/
  accesses : List Access
  /-- the model's own: the footprints of the commands for which no RD has returned DONE since their issue, newest first (R76;
  log 24) -/
  awaited : List Footprint
  deriving DecidableEq, Repr

/-- The state right after reset (R48, R301) of the hardware with the default parameters. The working registers, which the
spec leaves unspecified, hold 0 (DESIGN CHOICE, unsafe: log 2); nothing reads one before writing it (R47). -/
def State.reset : State where
  hw := Params.default
  cmd := 0
  status := 0
  err := 0
  inAddr := 0
  inLen := 0
  keyAddr := 0
  keyLen := 0
  outAddr := 0
  outCap := 0
  lanes := ⟨0, 0, 0, 0⟩
  lane := 0
  k := 0
  rot := 0
  pos := 0
  x := 0
  p := 0
  g := ⟨0, 0, 0, 0⟩
  v := ⟨0, 0, 0, 0⟩
  k0 := 0
  k1 := 0
  mw := 0
  phase := .idle
  dg := 0
  mem := []
  host := []
  pace := []
  hostData := 0
  free := 0
  accesses := []
  awaited := []

end Sys2Proof.Machine
end

