-- ==== Sys2Proof/Machine/Flags.lean ====
section
/-! DEFINITION. The flags and codes the host can read: the STATUS bits (R23), the ERR words (R24) and the CAP word (R25). The
engine keeps no arithmetic flags (R44). -/

namespace Sys2Proof.Machine

/-- `w` with bit `b` set to `on`. -/
def withBit (w : Word32) (b : Nat) (on : Bool) : Word32 :=
  if on then w ||| (1#32 <<< b) else w &&& ~~~(1#32 <<< b)

/-- STATUS.BUSY (R23) -/
def State.busy (s : State) : Bool := s.status.getLsbD 0

/-- STATUS.DONE (R23) -/
def State.done (s : State) : Bool := s.status.getLsbD 1

/-- STATUS.ILL (R23) -/
def State.ill (s : State) : Bool := s.status.getLsbD 2

/-- STATUS when a legal command is issued (R124): BUSY set, DONE and ILL cleared. -/
def statusIssued (w : Word32) : Word32 := withBit (withBit (withBit w 0 true) 1 false) 2 false

/-- STATUS when an illegal word is issued (R123): ILL set, DONE cleared; BUSY stays as it is, 0. -/
def statusIllegal (w : Word32) : Word32 := withBit (withBit w 2 true) 1 false

/-- STATUS at completion (R127): BUSY cleared, DONE set. -/
def statusDone (w : Word32) : Word32 := withBit (withBit w 0 false) 1 true

/-- The value of an error code (R271). -/
def ErrorCode.value : ErrorCode → Int
  | .success => 0
  | .invalidParameter => -1
  | .outputTooSmall => -2
  | .rangesOverlap => -3
  | .keyTooSmall => -4

/-- The word ERR holds for an error code: its value in 32-bit two's complement (R24). -/
def ErrorCode.word (e : ErrorCode) : Word32 := BitVec.ofInt 32 e.value

/-- CAP (R25): bit b is 1 when the backend with code b is present; REF and OPT always are. -/
def capWord (hw : Params) : Word32 :=
  withBit (withBit (withBit 3#32 2 hw.capVN) 3 hw.capVA) 4 hw.capVB

end Sys2Proof.Machine
end

