-- ==== Sys2Proof/Machine/Operands.lean ====
section
/-! DEFINITION. The constants a command's fields select (30_encoding.md R93, R94, R97), its operands read from the register
file (R99), and the Buffer Contract Validator over them (41_validator.md). -/

namespace Sys2Proof.Machine

/-- D, the digest size in bytes (R93). -/
def digestSize : Variant → Nat
  | .m32 => 4
  | .m32k => 4
  | .m128 => 16
  | .sip => 8

/-- Whether the key operand is used (R93). -/
def keyed : Variant → Bool
  | .m32 => false
  | .m32k => true
  | .m128 => true
  | .sip => true

/-- The bytes of the key a command reads (R65, R232): as many as its digest has for the mixer, 16 for SIP, none unkeyed. -/
def keyBytesUsed : Variant → Nat
  | .m32 => 0
  | .m32k => 4
  | .m128 => 16
  | .sip => 16

/-- The smallest key a keyed command admits, in bytes (R143). -/
def keyMinimum : Nat := 16

/-- W, the alignment width of a backend's main loop in bytes (R94). -/
def alignWidth : Backend → Nat
  | .ref => 1
  | .opt => 16
  | .vn => 8
  | .va => 16
  | .vb => 16

/-- The bytes a main-loop iteration consumes (R94). -/
def stride : Backend → Nat
  | .ref => 1
  | .opt => 16
  | .vn => 8
  | .va => 16
  | .vb => 16

/-- Whether a backend is present (R97): REF and OPT always are. -/
def backendPresent (hw : Params) : Backend → Bool
  | .ref => true
  | .opt => true
  | .vn => hw.capVN
  | .va => hw.capVA
  | .vb => hw.capVB

/-- The distance from an address to the next multiple of W, 0 when it is one (R160). -/
def gap (w addr : Nat) : Nat := (w - addr % w) % w

/-- The prefix length k (R160): the gap, capped at the input's length. -/
def prefixLength (w addr len : Nat) : Nat := min (gap w addr) len

/-- m, the number of whole blocks after the prefix (R163). -/
def blockCount (stride len k : Nat) : Nat := (len - k) / stride

/-- Whether two ranges overlap (R145, R146): the first or last byte of one lies inside the other; an empty range overlaps
nothing. -/
def overlap (a la b lb : Nat) : Bool :=
  if la = 0 || lb = 0 then false
  else
    let al := a + la - 1
    let bl := b + lb - 1
    (decide (b ≤ a) && decide (a ≤ bl)) || (decide (b ≤ al) && decide (al ≤ bl))
      || (decide (a ≤ b) && decide (b ≤ al)) || (decide (a ≤ bl) && decide (bl ≤ al))

/-- Whether a non-empty range passes the top of an address space of 2^aw bytes (R71, R152). -/
def passesTop (aw base len : Nat) : Bool := decide (0 < len) && decide (2 ^ aw < base + len)

/-- The Validator (R150), with the precondition R152 asked where the spec asks it, before check 4. -/
def validate (aw d : Nat) (key : Bool) (ia il ka kl oa oc : Nat) : Verdict :=
  if ia = 0 || oa = 0 then .code .invalidParameter
  else if key && ka = 0 then .code .invalidParameter
  else if oc < d then .code .outputTooSmall
  else if key && decide (kl < keyMinimum) then .code .keyTooSmall
  else if passesTop aw ia il || passesTop aw oa oc || (key && passesTop aw ka kl) then .pastTop
  else if overlap ia il oa oc then .code .rangesOverlap
  else if key && overlap ia il ka kl then .code .rangesOverlap
  else if key && overlap oa oc ka kl then .code .rangesOverlap
  else .code .success

/-- The Validator on a command's operands as the register file holds them (R99, R125). -/
def verdict (i : Instr) (s : State) : Verdict :=
  validate s.hw.aw.bits (digestSize i.variant) (keyed i.variant) s.inAddr.toNat s.inLen.toNat s.keyAddr.toNat
    s.keyLen.toNat s.outAddr.toNat s.outCap.toNat

/-- The footprint of a command that passes the Validator on the operands as the register file holds them (R65). An unkeyed
command reads no key byte and ignores KEY_ADDR (R28, R99, R147): its key part is empty, at 0. -/
def footprint (i : Instr) (s : State) : Footprint where
  inAddr := s.inAddr.toNat
  inLen := s.inLen.toNat
  keyAddr := if keyed i.variant then s.keyAddr.toNat else 0
  keyLen := keyBytesUsed i.variant
  outAddr := s.outAddr.toNat
  outLen := digestSize i.variant

/-- Whether a footprint's command reads an address (R65). -/
def Footprint.reads (f : Footprint) (a : Nat) : Bool :=
  (decide (f.inAddr ≤ a) && decide (a < f.inAddr + f.inLen)) || (decide (f.keyAddr ≤ a) && decide (a < f.keyAddr + f.keyLen))

/-- Whether a footprint's command writes an address (R65). -/
def Footprint.writes (f : Footprint) (a : Nat) : Bool := decide (f.outAddr ≤ a) && decide (a < f.outAddr + f.outLen)

end Sys2Proof.Machine
end

