-- ==== Sys2Proof/Machine/Ops.lean ====
section
/-! DEFINITION. The named operations on memory (20_memory.md), on words and lanes (00_scope.md section 5), on the register
file (10_state.md), and the issue and completion that all commands share (40_command_lifecycle.md). -/

namespace Sys2Proof.Machine

/-! ### Memory -/

/-- The byte at an address (R62); every address holds one (R72). -/
def Memory.read : Memory → Nat → Byte
  | [], _ => Memory.unlisted
  | (k, c) :: m, a => if k = a then c else Memory.read m a

/-- Memory with one byte written (R62), kept in its canonical form. -/
def Memory.write : Memory → Nat → Byte → Memory
  | [], a, b => if b = Memory.unlisted then [] else [(a, b)]
  | (k, c) :: m, a, b =>
    if a < k then (if b = Memory.unlisted then (k, c) :: m else (a, b) :: (k, c) :: m)
    else if a = k then (if b = Memory.unlisted then m else (a, b) :: m)
    else (k, c) :: Memory.write m a b

/-- The canonical form: addresses strictly rising, and no entry equal to what an unlisted address reads as. -/
abbrev Memory.wf (m : Memory) : Prop :=
  m.Pairwise (fun c d => c.1 < d.1) ∧ ∀ c ∈ m, c.2 ≠ Memory.unlisted

/-- `MemRead(addr, n)` (R62): the n bytes from an address on as a number, the lowest address least significant (R61). -/
def Memory.readLE (m : Memory) : Nat → Nat → Nat
  | _, 0 => 0
  | a, n + 1 => (Memory.read m a).toNat + 256 * Memory.readLE m (a + 1) n

/-- `MemWrite(addr, n, v)` (R62): byte j of v to addr + j, for j below n, and nothing else. -/
def Memory.writeLE : Memory → Nat → Nat → Nat → Memory
  | m, _, 0, _ => m
  | m, a, n + 1, v => Memory.writeLE (Memory.write m a (BitVec.ofNat 8 v)) (a + 1) n (v / 256)

/-- The n bytes from an address on, in ascending order. -/
def Memory.bytes (m : Memory) : Nat → Nat → List Byte
  | _, 0 => []
  | a, n + 1 => Memory.read m a :: Memory.bytes m (a + 1) n

/-! ### Words and lanes -/

/-- `byte(v, j)` (00_scope.md section 5). -/
def byteOf {n : Nat} (v : BitVec n) (j : Nat) : Byte := v.extractLsb' (8 * j) 8

/-- `dword(v, j)` (00_scope.md section 5). -/
def dwordOf {n : Nat} (v : BitVec n) (j : Nat) : Word32 := v.extractLsb' (32 * j) 32

/-- The number whose bytes, least significant first, are given. -/
def numberOfBytes : List Byte → Nat
  | [] => 0
  | b :: bs => b.toNat + 256 * numberOfBytes bs

/-- Element i of a vector of four (R33). -/
def Quad.get (q : Quad) (i : Fin 4) : Word32 :=
  match i with
  | 0 => q.e0
  | 1 => q.e1
  | 2 => q.e2
  | 3 => q.e3

/-- A vector of four with element i replaced. -/
def Quad.set (q : Quad) (i : Fin 4) (w : Word32) : Quad :=
  match i with
  | 0 => { q with e0 := w }
  | 1 => { q with e1 := w }
  | 2 => { q with e2 := w }
  | 3 => { q with e3 := w }

/-- MA, the view of S[1] and S[0] (R35). -/
def Quad.ma (q : Quad) : Word64 := q.e1 ++ q.e0

/-- MB, the view of S[3] and S[2] (R35). -/
def Quad.mb (q : Quad) : Word64 := q.e3 ++ q.e2

/-- The lanes after a write of both views (R35). -/
def Quad.ofViews (ma mb : Word64) : Quad := ⟨dwordOf ma 0, dwordOf ma 1, dwordOf mb 0, dwordOf mb 1⟩

/-- `{S[3], S[2], S[1], S[0]}` (R210). -/
def Quad.joined (q : Quad) : Word128 := q.e3 ++ q.e2 ++ q.e1 ++ q.e0

/-- The initial value of every lane (R7). -/
def initialLane : Word32 := 5381

/-- The multiplier (R7). -/
def multiplier : Word32 := 33

/-- `ByteStep(s, b)` (R180): (s * 33 + b) mod 2^32, the byte zero-extended (R182). -/
def byteStep (s : Word32) (b : Byte) : Word32 := s * multiplier + b.setWidth 32

/-- The single-byte steps of a run of bytes on one accumulator, in order (R190, R191). -/
def foldAcc : Word32 → List Byte → Word32
  | s, [] => s
  | s, b :: bs => foldAcc (byteStep s b) bs

/-- The single-byte steps of a run of bytes on four lanes, the first into lane `l`, the next into the one after it modulo 4
(R202, R211). -/
def foldLanes : Quad → Fin 4 → List Byte → Quad
  | q, _, [] => q
  | q, l, b :: bs => foldLanes (q.set l (byteStep (q.get l) b)) (l + 1) bs

/-- A state operation done n times. -/
def loop (f : State → State) : Nat → State → State
  | 0, s => s
  | n + 1, s => loop f n (f s)

/-! ### The access log -/

/-- The single-byte reads of n addresses from a on, in ascending order, put in front of a log (R63, R73). -/
def byteReads : Nat → Nat → List Access → List Access
  | _, 0, l => l
  | a, n + 1, l => byteReads (a + 1) n (.read a 1 :: l)

/-! ### The register file -/

/-- The index of a register (R21). -/
def Reg.index : Reg → Nat
  | .cmd => 0
  | .status => 1
  | .err => 2
  | .cap => 3
  | .inAddr => 4
  | .inLen => 5
  | .keyAddr => 6
  | .keyLen => 7
  | .outAddr => 8
  | .outCap => 9

/-- The register at an index; 10 and above are reserved (R32). -/
def Reg.ofIndex : Nat → Option Reg
  | 0 => some .cmd
  | 1 => some .status
  | 2 => some .err
  | 3 => some .cap
  | 4 => some .inAddr
  | 5 => some .inLen
  | 6 => some .keyAddr
  | 7 => some .keyLen
  | 8 => some .outAddr
  | 9 => some .outCap
  | _ + 10 => none

/-- What an operand register keeps of a written value: the value modulo 2^AW (R32). -/
def operandWord (hw : Params) (value : Nat) : Word64 := BitVec.ofNat 64 (value % 2 ^ hw.aw.bits)

/-- `RD` (R121): the register's value at its width; a reserved index reads 0 (R32). -/
def readReg (s : State) (index : Nat) : Word64 :=
  match Reg.ofIndex index with
  | some .cmd => s.cmd.setWidth 64
  | some .status => s.status.setWidth 64
  | some .err => s.err.setWidth 64
  | some .cap => (capWord s.hw).setWidth 64
  | some .inAddr => s.inAddr
  | some .inLen => s.inLen
  | some .keyAddr => s.keyAddr
  | some .keyLen => s.keyLen
  | some .outAddr => s.outAddr
  | some .outCap => s.outCap
  | none => 0

/-- The `WR` of a register other than CMD (R120): an operand register keeps the value modulo 2^AW; STATUS, ERR, CAP and
reserved indices ignore the write (R23, R24, R25, R32). CMD is written by `writeCmd`. -/
def writeOperand (s : State) (index value : Nat) : State :=
  match Reg.ofIndex index with
  | some .inAddr => { s with inAddr := operandWord s.hw value }
  | some .inLen => { s with inLen := operandWord s.hw value }
  | some .keyAddr => { s with keyAddr := operandWord s.hw value }
  | some .keyLen => { s with keyLen := operandWord s.hw value }
  | some .outAddr => { s with outAddr := operandWord s.hw value }
  | some .outCap => { s with outCap := operandWord s.hw value }
  | some .cmd => s
  | some .status => s
  | some .err => s
  | some .cap => s
  | none => s

/-- CMD after a `WR` of it while not busy (R22, R120): the value modulo 2^32. -/
def writeCmd (s : State) (value : Nat) : State := { s with cmd := BitVec.ofNat 32 value }

/-! ### Issue, errors and completion -/

/-- `IssueIllegal()` (R123): ILL set, DONE cleared; nothing else of the engine changes and no access is made. -/
def issueIllegal (s : State) : State := { s with status := statusIllegal s.status, accesses := [] }

/-- `IssueLegal(w)` (R124): BUSY set, DONE and ILL cleared, PHASE at VALIDATE; the model's access log starts anew, and the
host's duty to leave the command's footprint alone begins (R76, log 24), which is empty unless it passes the Validator. -/
def issueLegal (i : Instr) (s : State) : State :=
  { s with
    status := statusIssued s.status
    phase := .validate
    accesses := []
    awaited := if verdict i s = .code .success then footprint i s :: s.awaited else s.awaited }

/-- `Complete(e)` (R127): ERR, STATUS and PHASE written together. Reached from VALIDATE with a non-zero code this is what
taking an error does (R274): nothing is saved and control goes nowhere; there is no return from it (R276). -/
def complete (e : ErrorCode) (s : State) : State :=
  { s with err := e.word, status := statusDone s.status, phase := .idle }

/-- `Mix(DG, D)` (R230) in its word form: the digest exclusive-ored with the first D key bytes, read singly (R63). -/
def mix (d : Nat) (s : State) : State :=
  { s with
    dg := s.dg ^^^ BitVec.ofNat 128 (Memory.readLE s.mem s.keyAddr.toNat d)
    accesses := byteReads s.keyAddr.toNat d s.accesses }

/-- `DigestWrite(DG, D)` (R233): the one memory write of a command, D bytes at OUT_ADDR. -/
def digestWrite (d : Nat) (s : State) : State :=
  { s with
    mem := Memory.writeLE s.mem s.outAddr.toNat d s.dg.toNat
    accesses := .write s.outAddr.toNat d :: s.accesses }

/-- The skeleton all commands share: the check that the backend is present (R97, R122), issue (R124), validation (R125),
and on success the command's own body, the digest write and completion with 0 (R127). A command whose backend is absent
is an illegal word (R97); one that breaks the precondition R152 is refused. `body` leaves the digest in DG. -/
def runCommand (i : Instr) (body : State → State) (s : State) : Host.Outcome State Fault Refusal :=
  if backendPresent s.hw i.backend then
    match verdict i s with
    | .pastTop => .refused .rangePastTop
    | .code .success => .next (complete .success (digestWrite (digestSize i.variant) (body (issueLegal i s))))
    | .code e => .next (complete e (issueLegal i s))
  else .next (issueIllegal s)

/-! ### Reset -/

/-- D bytes of free values from an address on (R302, U6). -/
def Memory.scribble : Memory → Nat → Nat → Nat → Memory
  | m, _, 0, _ => m
  | m, a, n + 1, f => Memory.scribble (Memory.write m a (Config.freeByte f)) (a + 1) n (f + 1)

/-- Whether reset would cut off a digest write (R302): a command is running and is in phase WRITE. -/
def writingDigest (s : State) : Bool := s.busy && s.phase = .write

/-- The number of output bytes a reset leaves with free values (R302): D when it cuts off a digest write, else none. -/
def bytesCutOff (s : State) : Nat :=
  if writingDigest s then
    match decode s.cmd with
    | .ok i => digestSize i.variant
    | .error _ => 0
  else 0

/-- The reset event (R301, R302): every register as after reset, the parameters kept, memory untouched but for the output
bytes of a digest write it cuts off. The host's own side goes on; no command is awaited any more (log 2, log 6, log 24). -/
def resetEvent (s : State) : State :=
  { State.reset with
    hw := s.hw
    mem := Memory.scribble s.mem s.outAddr.toNat (bytesCutOff s) s.free
    host := s.host
    pace := s.pace
    hostData := s.hostData
    free := s.free + bytesCutOff s }

end Sys2Proof.Machine
end

