-- ==== Sys2Proof/Machine/Splicer.lean ====
section
/-! DEFINITION. The Alignment Splicer (42_splicer.md): the prefix length, the single-byte steps of the prefix and the tail,
and the two lane rotations. -/

namespace Sys2Proof.Machine

/-- The address of the next input byte (R38). -/
def cursor (s : State) : Nat := s.inAddr.toNat + s.pos.toNat

/-- K of a spliced backend (R160). -/
def loadK (b : Backend) (s : State) : State :=
  { s with k := BitVec.ofNat 5 (prefixLength (alignWidth b) s.inAddr.toNat s.inLen.toNat) }

/-- `LaneStep` of the input byte at the cursor (R202, R161, R165). -/
def laneStep (s : State) : State :=
  { s with
    lanes := s.lanes.set s.lane (byteStep (s.lanes.get s.lane) (Memory.read s.mem (cursor s)))
    lane := s.lane + 1
    pos := s.pos + 1
    accesses := .read (cursor s) 1 :: s.accesses }

/-- `ByteStep` of the input byte at the cursor on ACC (R190). -/
def accStep (s : State) : State :=
  { s with
    lanes := { s.lanes with e0 := byteStep s.lanes.e0 (Memory.read s.mem (cursor s)) }
    pos := s.pos + 1
    accesses := .read (cursor s) 1 :: s.accesses }

/-- Phase ROTL (R162): ROT is K mod 4, and register i takes the word of register i + ROT modulo 4. -/
def rotateLeft (s : State) : State :=
  let r : Fin 4 := Fin.ofNat 4 s.k.toNat
  { s with rot := r, lanes := ⟨s.lanes.get r, s.lanes.get (r + 1), s.lanes.get (r + 2), s.lanes.get (r + 3)⟩ }

/-- Phase ROTR (R164): register i takes the word of register i - ROT modulo 4. -/
def rotateRight (s : State) : State :=
  { s with lanes := ⟨s.lanes.get (0 - s.rot), s.lanes.get (1 - s.rot), s.lanes.get (2 - s.rot), s.lanes.get (3 - s.rot)⟩ }

/-- Phase PREFIX on four lanes (R161): K single-byte steps. -/
def foldPrefix (s : State) : State := loop laneStep s.k.toNat s

/-- Phase TAIL on four lanes (R165): single-byte steps until POS is IN_LEN. -/
def foldTail (s : State) : State := loop laneStep (s.inLen.toNat - s.pos.toNat) s

/-- Phase MAIN (R163): the backend's block function on every whole block after the prefix. -/
def mainLoop (b : Backend) (block : State → State) (s : State) : State :=
  loop block (blockCount (stride b) s.inLen.toNat s.k.toNat) s

/-- The Splicer on four lanes (R166). -/
def spliced128 (b : Backend) (block : State → State) (s : State) : State :=
  foldTail (rotateRight (mainLoop b block (rotateLeft (foldPrefix (loadK b s)))))

end Sys2Proof.Machine
end

