-- ==== Sys2Proof/Machine/Mult128.lean ====
section
/-! DEFINITION. The 128-bit interleaved commands M128.REF, M128.OPT, M128.VN, M128.VA, M128.VB (44_mult128.md). -/

namespace Sys2Proof.Machine

/-- Phase INIT of a 128-bit command (R201). -/
def initLanes (s : State) : State :=
  { s with lanes := ⟨initialLane, initialLane, initialLane, initialLane⟩, lane := 0, pos := 0 }

/-- `VecStep(S, G)` (R209): the four lanes at once, each on its own. -/
def vecStep (q g : Quad) : Quad :=
  ⟨q.e0 * multiplier + g.e0, q.e1 * multiplier + g.e1, q.e2 * multiplier + g.e2, q.e3 * multiplier + g.e3⟩

/-- The shift form of the vector step (R206, R209): a 32-bit lane shift by 5 that drops what it shifts out. -/
def vecStepShift (q g : Quad) : Quad :=
  ⟨(q.e0 <<< 5) + q.e0 + g.e0, (q.e1 <<< 5) + q.e1 + g.e1, (q.e2 <<< 5) + q.e2 + g.e2, (q.e3 <<< 5) + q.e3 + g.e3⟩

/-- `VecStep2(M, G)` (R209): the same on a register of two lanes. -/
def vecStep2 (m g : Word64) : Word64 :=
  (dwordOf m 1 * multiplier + dwordOf g 1) ++ (dwordOf m 0 * multiplier + dwordOf g 0)

/-- `zext_32((X >> n) & 0xFF)` (R205). -/
def gatherByte (x : Word64) (n : Nat) : Word32 := ((x >>> n) &&& 0xFF#64).setWidth 32

/-- GA of step t of the narrow vector backend (R205): block bytes 4t + 1 and 4t. -/
def gatherA (x : Word64) (t : Nat) : Word64 := gatherByte x (32 * t + 8) ++ gatherByte x (32 * t)

/-- GB of step t of the narrow vector backend (R205): block bytes 4t + 3 and 4t + 2. -/
def gatherB (x : Word64) (t : Nat) : Word64 := gatherByte x (32 * t + 24) ++ gatherByte x (32 * t + 16)

/-- Step t of a block of the narrow vector backend (R205), on the views MA and MB. -/
def stepVn (x : Word64) (q : Quad) (t : Nat) : Quad :=
  Quad.ofViews (vecStep2 q.ma (gatherA x t)) (vecStep2 q.mb (gatherB x t))

/-- The vector backend A's gathered vector of step t, by shift and mask (R206). -/
def gatherShift (x : Word128) (t : Nat) : Quad :=
  let d := dwordOf x t
  ⟨d &&& 0xFF, (d >>> 8) &&& 0xFF, (d >>> 16) &&& 0xFF, (d >>> 24) &&& 0xFF⟩

/-- PERM, the fixed permutation table of wide vector backend B (R208). -/
def perm : List Nat := [0, 4, 8, 12, 1, 5, 9, 13, 2, 6, 10, 14, 3, 7, 11, 15]

/-- The byte permute of wide vector backend B (R207): result byte j is source byte PERM[j]. -/
def permute (x : Word128) : Word128 := BitVec.ofNat 128 (numberOfBytes (perm.map (byteOf x)))

/-- The vector backend B's gathered vector of step t, from the permuted block (R207). -/
def gatherPermuted (p : Word128) (t : Nat) : Quad :=
  ⟨(dwordOf p 0 >>> (8 * t)) &&& 0xFF, (dwordOf p 1 >>> (8 * t)) &&& 0xFF,
    (dwordOf p 2 >>> (8 * t)) &&& 0xFF, (dwordOf p 3 >>> (8 * t)) &&& 0xFF⟩

/-- `BlockVN` on a loaded block (R205): two steps. -/
def foldVn (q : Quad) (x : Word64) : Quad := stepVn x (stepVn x q 0) 1

/-- `BlockVA` on a loaded block (R206): four steps, one for each dword position. -/
def foldVa (q : Quad) (x : Word128) : Quad :=
  vecStepShift (vecStepShift (vecStepShift (vecStepShift q (gatherShift x 0)) (gatherShift x 1)) (gatherShift x 2))
    (gatherShift x 3)

/-- `BlockVB` on a permuted block (R207): four steps. -/
def foldVb (q : Quad) (p : Word128) : Quad :=
  vecStep (vecStep (vecStep (vecStep q (gatherPermuted p 0)) (gatherPermuted p 1)) (gatherPermuted p 2))
    (gatherPermuted p 3)

/-- The 8 bytes at the cursor as one load (R205). -/
def load8 (s : State) : Word64 := BitVec.ofNat 64 (Memory.readLE s.mem (cursor s) 8)

/-- The 16 bytes at the cursor as one load (R206, R207). -/
def load16 (s : State) : Word128 := BitVec.ofNat 128 (Memory.readLE s.mem (cursor s) 16)

/-- A main-loop iteration of M128.OPT (R204): sixteen reads of one byte, one update each. -/
def blockOpt (s : State) : State :=
  { s with
    lanes := foldLanes s.lanes 0 (Memory.bytes s.mem (cursor s) 16)
    pos := s.pos + 16
    accesses := byteReads (cursor s) 16 s.accesses }

/-- A main-loop iteration of M128.VN (R205): one load of 8 bytes into X[63:0], two steps; G holds the last step's bytes. -/
def blockVn (s : State) : State :=
  { s with
    x := s.x.extractLsb' 64 64 ++ load8 s
    g := Quad.ofViews (gatherA (load8 s) 1) (gatherB (load8 s) 1)
    lanes := foldVn s.lanes (load8 s)
    pos := s.pos + 8
    accesses := .read (cursor s) 8 :: s.accesses }

/-- A main-loop iteration of M128.VA (R206): one load of 16 bytes into X, four steps. -/
def blockVa (s : State) : State :=
  { s with
    x := load16 s
    g := gatherShift (load16 s) 3
    lanes := foldVa s.lanes (load16 s)
    pos := s.pos + 16
    accesses := .read (cursor s) 16 :: s.accesses }

/-- A main-loop iteration of M128.VB (R207): one load of 16 bytes into X, one permute into P, four steps. -/
def blockVb (s : State) : State :=
  { s with
    x := load16 s
    p := permute (load16 s)
    g := gatherPermuted (permute (load16 s)) 3
    lanes := foldVb s.lanes (permute (load16 s))
    pos := s.pos + 16
    accesses := .read (cursor s) 16 :: s.accesses }

/-- `Ser128(S)` into DG (R210). -/
def ser128 (s : State) : State := { s with dg := s.lanes.joined }

/-- `Mult128(REF)` (R212). -/
def mult128Ref (s : State) : State := foldTail (initLanes s)

/-- `Mult128(backend)` of a spliced backend (R212). -/
def mult128Spliced (b : Backend) (block : State → State) (s : State) : State := spliced128 b block (initLanes s)

/-- M128.REF (R203). -/
def execM128Ref (s : State) : Host.Outcome State Fault Refusal :=
  runCommand .m128Ref (fun s => mix 16 (ser128 (mult128Ref s))) s

/-- M128.OPT (R204). -/
def execM128Opt (s : State) : Host.Outcome State Fault Refusal :=
  runCommand .m128Opt (fun s => mix 16 (ser128 (mult128Spliced .opt blockOpt s))) s

/-- M128.VN (R205). -/
def execM128Vn (s : State) : Host.Outcome State Fault Refusal :=
  runCommand .m128Vn (fun s => mix 16 (ser128 (mult128Spliced .vn blockVn s))) s

/-- M128.VA (R206). -/
def execM128Va (s : State) : Host.Outcome State Fault Refusal :=
  runCommand .m128Va (fun s => mix 16 (ser128 (mult128Spliced .va blockVa s))) s

/-- M128.VB (R207). -/
def execM128Vb (s : State) : Host.Outcome State Fault Refusal :=
  runCommand .m128Vb (fun s => mix 16 (ser128 (mult128Spliced .vb blockVb s))) s

end Sys2Proof.Machine
end

