-- ==== Sys2Proof/Machine/Mult32.lean ====
section
/-! DEFINITION. The 32-bit multiplicative commands M32.REF, M32.OPT, M32K.REF, M32K.OPT (43_mult32.md). -/

namespace Sys2Proof.Machine

/-- Phase INIT of a 32-bit command (R183). -/
def initAcc (s : State) : State := { s with lanes := { s.lanes with e0 := initialLane }, pos := 0 }

/-- Phase TAIL on the accumulator (R190, R191): single-byte steps until POS is IN_LEN. -/
def foldAccTail (s : State) : State := loop accStep (s.inLen.toNat - s.pos.toNat) s

/-- One main-loop iteration of `Mult32(OPT)` (R191): sixteen single-byte steps on an aligned block read byte by byte. -/
def block32 (s : State) : State :=
  { s with
    lanes := { s.lanes with e0 := foldAcc s.lanes.e0 (Memory.bytes s.mem (cursor s) 16) }
    pos := s.pos + 16
    accesses := byteReads (cursor s) 16 s.accesses }

/-- `Ser32(ACC)` into DG[31:0] (R188). -/
def ser32 (s : State) : State := { s with dg := s.dg.extractLsb' 32 96 ++ s.lanes.e0 }

/-- `Mult32(REF)` (R190). -/
def mult32Ref (s : State) : State := foldAccTail (initAcc s)

/-- `Mult32(OPT)` (R191, R169): the prefix, the aligned blocks and the tail on one accumulator, with no rotation. -/
def mult32Opt (s : State) : State :=
  let s := loadK .opt (initAcc s)
  foldAccTail (mainLoop .opt block32 (loop accStep s.k.toNat s))

/-- M32.REF (R184). -/
def execM32Ref (s : State) : Host.Outcome State Fault Refusal :=
  runCommand .m32Ref (fun s => ser32 (mult32Ref s)) s

/-- M32.OPT (R185). -/
def execM32Opt (s : State) : Host.Outcome State Fault Refusal :=
  runCommand .m32Opt (fun s => ser32 (mult32Opt s)) s

/-- M32K.REF (R186). -/
def execM32kRef (s : State) : Host.Outcome State Fault Refusal :=
  runCommand .m32kRef (fun s => mix 4 (ser32 (mult32Ref s))) s

/-- M32K.OPT (R187). -/
def execM32kOpt (s : State) : Host.Outcome State Fault Refusal :=
  runCommand .m32kOpt (fun s => mix 4 (ser32 (mult32Opt s))) s

end Sys2Proof.Machine
end

