-- ==== Sys2Proof/Machine/Siphash.lean ====
section
/-! DEFINITION. The keyed permutation hash SIP.REF, SipHash-2-4 (46_siphash.md). -/

namespace Sys2Proof.Machine

/-- The four constants (R242). -/
def sipC0 : Word64 := 0x736F6D6570736575
def sipC1 : Word64 := 0x646F72616E646F6D
def sipC2 : Word64 := 0x6C7967656E657261
def sipC3 : Word64 := 0x7465646279746573

/-- `SipRound()` (R245): the fourteen assignments, each using the values the ones before it left. -/
def sipRound (w : SipWords) : SipWords :=
  let v0 := w.v0 + w.v1
  let v1 := w.v1.rotateLeft 13
  let v1 := v1 ^^^ v0
  let v0 := v0.rotateLeft 32
  let v2 := w.v2 + w.v3
  let v3 := w.v3.rotateLeft 16
  let v3 := v3 ^^^ v2
  let v0 := v0 + v3
  let v3 := v3.rotateLeft 21
  let v3 := v3 ^^^ v0
  let v2 := v2 + v1
  let v1 := v1.rotateLeft 17
  let v1 := v1 ^^^ v2
  let v2 := v2.rotateLeft 32
  ⟨v0, v1, v2, v3⟩

/-- The compression of one message word (R247, R248): into word 3, two rounds, into word 0. -/
def sipCompress (w : SipWords) (m : Word64) : SipWords :=
  let w := sipRound (sipRound { w with v3 := w.v3 ^^^ m })
  { w with v0 := w.v0 ^^^ m }

/-- The initial words for a key (R244). -/
def sipInitWords (k0 k1 : Word64) : SipWords := ⟨k0 ^^^ sipC0, k1 ^^^ sipC1, k0 ^^^ sipC2, k1 ^^^ sipC3⟩

/-- Finalisation (R249): 0xFF into word 2, four rounds. -/
def sipFinalize (w : SipWords) : SipWords :=
  sipRound (sipRound (sipRound (sipRound { w with v2 := w.v2 ^^^ 0xFF })))

/-- The digest of the final words (R250). -/
def sipDigest (w : SipWords) : Word64 := w.v0 ^^^ w.v1 ^^^ w.v2 ^^^ w.v3

/-- The final word (R248): the leftover bytes from the low byte up, the length modulo 256 in bits 56 to 63. -/
def sipFinalWord (len leftover : Nat) : Word64 :=
  (BitVec.ofNat 64 (len % 256) <<< 56) ||| BitVec.ofNat 64 leftover

/-- Phase SIP_INIT (R243, R244): the key load, sixteen reads of one byte, and the initial words. -/
def sipInit (s : State) : State :=
  let k0 := BitVec.ofNat 64 (Memory.readLE s.mem s.keyAddr.toNat 8)
  let k1 := BitVec.ofNat 64 (Memory.readLE s.mem (s.keyAddr.toNat + 8) 8)
  { s with
    k0 := k0
    k1 := k1
    v := sipInitWords k0 k1
    pos := 0
    accesses := byteReads s.keyAddr.toNat 16 s.accesses }

/-- One iteration of phase SIP_WORDS (R247): a full word of eight single-byte reads at the cursor. -/
def sipWord (s : State) : State :=
  let m := BitVec.ofNat 64 (Memory.readLE s.mem (cursor s) 8)
  { s with
    mw := m
    v := sipCompress s.v m
    pos := s.pos + 8
    accesses := byteReads (cursor s) 8 s.accesses }

/-- Phase SIP_LAST (R248): the leftover bytes at the cursor and the length byte. -/
def sipLast (s : State) : State :=
  let t := s.inLen.toNat % 8
  let m := sipFinalWord s.inLen.toNat (Memory.readLE s.mem (cursor s) t)
  { s with
    mw := m
    v := sipCompress s.v m
    pos := s.inLen
    accesses := byteReads (cursor s) t s.accesses }

/-- Phase SIP_FIN (R249, R250): finalisation, and the digest into DG[63:0]. -/
def sipFin (s : State) : State :=
  { s with v := sipFinalize s.v, dg := s.dg.extractLsb' 64 64 ++ sipDigest (sipFinalize s.v) }

/-- `SipHash24()` (R251). -/
def sipHash24 (s : State) : State :=
  sipFin (sipLast (loop sipWord (s.inLen.toNat / 8) (sipInit s)))

/-- SIP.REF (R251). -/
def execSipRef (s : State) : Host.Outcome State Fault Refusal := runCommand .sipRef sipHash24 s

end Sys2Proof.Machine
end

