-- ==== Sys2Proof/Machine/Dispatch.lean ====
section
/-! DEFINITION. What a command word does when it is issued at an idle engine: one arm for each command (R122, R125). -/

namespace Sys2Proof.Machine

def exec (i : Instr) (s : State) : Host.Outcome State Fault Refusal :=
  match i with
  | .m32Ref => Sys2Proof.Machine.execM32Ref s
  | .m32Opt => Sys2Proof.Machine.execM32Opt s
  | .m32kRef => Sys2Proof.Machine.execM32kRef s
  | .m32kOpt => Sys2Proof.Machine.execM32kOpt s
  | .m128Ref => Sys2Proof.Machine.execM128Ref s
  | .m128Opt => Sys2Proof.Machine.execM128Opt s
  | .m128Vn => Sys2Proof.Machine.execM128Vn s
  | .m128Va => Sys2Proof.Machine.execM128Va s
  | .m128Vb => Sys2Proof.Machine.execM128Vb s
  | .sipRef => Sys2Proof.Machine.execSipRef s

end Sys2Proof.Machine
end

