-- ==== Sys2Proof/Machine/HostAccess.lean ====
section
/-! DEFINITION. What the host's operations do (40_command_lifecycle.md R120 to R128, 30_encoding.md R102 to R104), and the
footprint duty of 20_memory.md R76. -/

namespace Sys2Proof.Machine

/-- The bus address of a register index (R8, R101). -/
def busAddress (index : Nat) : Nat := Config.hx4Base + 8 * index

/-- The register index at a bus address (R101). -/
def indexAtBus (a : Nat) : Option Nat :=
  if Config.hx4Base ≤ a ∧ (a - Config.hx4Base) % 8 = 0 then some ((a - Config.hx4Base) / 8) else none

/-- A legal command issued without its execution (R124), an absent backend's as an illegal word (R97). -/
def issueOnly (i : Instr) (s : State) : State :=
  if backendPresent s.hw i.backend then issueLegal i s else issueIllegal s

/-- `Issue` after CMD is written (R122, R123). With no pace given, the command runs to completion in this step, the big-step
reading of R129 (log 4); else it is only issued, and the coming steps run it phase by phase. -/
def issueCmd (s : State) : Host.Outcome State Fault Refusal :=
  match decode s.cmd with
  | .error _ => .next (issueIllegal s)
  | .ok i =>
    match s.pace with
    | [] => exec i s
    | _ :: _ => .next (issueOnly i s)

/-- `WR` (R120, R128). -/
def hostWrite (index value : Nat) (s : State) : Host.Outcome State Fault Refusal :=
  if s.busy then .next s
  else if index = Reg.cmd.index then issueCmd (writeCmd s value)
  else .next (writeOperand s index value)

/-- `RD` (R121): the host receives the value; the engine does not change. An RD of STATUS that returns DONE ends the host's
duty to leave the footprints of the commands it issued alone (R76, log 24). -/
def hostRead (index : Nat) (s : State) : State :=
  { s with
    hostData := readReg s index
    awaited := if index = Reg.status.index ∧ s.done = true then [] else s.awaited }

/-- One poll of `WAIT` (R104): `RD STATUS`, and another poll is pending while BUSY reads 1. -/
def hostWait (s : State) : State :=
  if s.busy then { hostRead Reg.status.index s with host := .wait :: s.host } else hostRead Reg.status.index s

/-- Whether an address lies in a footprint that the host is to leave alone (R76). -/
def inAwaited (s : State) (a : Nat) : Bool := s.awaited.any fun f => f.reads a || f.writes a

/-- Whether an address lies in the output bytes of a command for which no RD has returned DONE yet (R76, R307). -/
def inAwaitedOutput (s : State) (a : Nat) : Bool := s.awaited.any fun f => f.writes a

/-- A byte stored by the host or another agent (R60): refused in an awaited footprint (R76). -/
def hostStore (a : Nat) (b : Byte) (s : State) : Host.Outcome State Fault Refusal :=
  if 2 ^ s.hw.aw.bits ≤ a then .fault (.outsideAddressSpace a)
  else if inAwaited s a then .refused .bufferTouched
  else .next { s with mem := Memory.write s.mem a b }

/-- A byte loaded by the host or another agent (R60): refused in an awaited output range (R76). -/
def hostLoad (a : Nat) (s : State) : Host.Outcome State Fault Refusal :=
  if 2 ^ s.hw.aw.bits ≤ a then .fault (.outsideAddressSpace a)
  else if inAwaitedOutput s a then .refused .bufferTouched
  else .next { s with hostData := (Memory.read s.mem a).setWidth 64 }

/-- One host operation. -/
def hostOp (op : HostOp) (s : State) : Host.Outcome State Fault Refusal :=
  match op with
  | .wr index value => hostWrite index value s
  | .rd index => .next (hostRead index s)
  | .wait => .next (hostWait s)
  | .store a b => hostStore a b s
  | .load a => hostLoad a s
  | .reset => .next (resetEvent s)

/-- The host's move: its oldest pending operation, or nothing when none is pending. -/
def hostStep (s : State) : Host.Outcome State Fault Refusal :=
  match s.host with
  | [] => .next s
  | op :: ops => hostOp op { s with host := ops }

/-! ### The statements of the assembler syntax (R102, R104) -/

/-- A command statement (R102): its word written to CMD. -/
def commandOp (i : Instr) : HostOp := .wr Reg.cmd.index (encode i).toNat

/-- `SETIN a, n` (R104) -/
def setIn (a n : Nat) : List HostOp := [.wr Reg.inAddr.index a, .wr Reg.inLen.index n]

/-- `SETKEY a, n` (R104) -/
def setKey (a n : Nat) : List HostOp := [.wr Reg.keyAddr.index a, .wr Reg.keyLen.index n]

/-- `SETOUT a, n` (R104) -/
def setOut (a n : Nat) : List HostOp := [.wr Reg.outAddr.index a, .wr Reg.outCap.index n]

/-- `CALL cmd` (R104) -/
def callOps (i : Instr) : List HostOp := [commandOp i, .wait, .rd Reg.err.index]

/-- `HASH cmd, (ia, in), (ka, kn), (oa, on)` (R104) -/
def hashOps (i : Instr) (ia il ka kl oa oc : Nat) : List HostOp :=
  setIn ia il ++ setKey ka kl ++ setOut oa oc ++ callOps i

end Sys2Proof.Machine
end

