-- ==== Sys2Proof/Machine/Phases.lean ====
section
/-! DEFINITION. A running command phase by phase (40_command_lifecycle.md R126, 10_state.md R43): each engine step either
advances POS by one loop iteration or moves PHASE on. -/

namespace Sys2Proof.Machine

/-- The phases a command walks when validation succeeds, in order (R126). -/
def phaseOrder : Instr → List Phase
  | .m32Ref => [.validate, .init, .tail, .write, .idle]
  | .m32kRef => [.validate, .init, .tail, .mix, .write, .idle]
  | .m32Opt => [.validate, .init, .prefixFold, .main, .tail, .write, .idle]
  | .m32kOpt => [.validate, .init, .prefixFold, .main, .tail, .mix, .write, .idle]
  | .m128Ref => [.validate, .init, .tail, .mix, .write, .idle]
  | .m128Opt => [.validate, .init, .prefixFold, .rotl, .main, .rotr, .tail, .mix, .write, .idle]
  | .m128Vn => [.validate, .init, .prefixFold, .rotl, .main, .rotr, .tail, .mix, .write, .idle]
  | .m128Va => [.validate, .init, .prefixFold, .rotl, .main, .rotr, .tail, .mix, .write, .idle]
  | .m128Vb => [.validate, .init, .prefixFold, .rotl, .main, .rotr, .tail, .mix, .write, .idle]
  | .sipRef => [.validate, .sipInit, .sipWords, .sipLast, .sipFin, .write, .idle]

/-- The element after the first occurrence of one in a list of phases. -/
def phaseAfter (p : Phase) : List Phase → Option Phase
  | [] => none
  | q :: qs => if q = p then qs.head? else phaseAfter p qs

/-- PHASE moved on to the next phase of the command (R126). -/
def advance (i : Instr) (s : State) : Host.Outcome State Fault Refusal :=
  match phaseAfter s.phase (phaseOrder i) with
  | some q => .next { s with phase := q }
  | none => .fault .inconsistent

/-- INIT of a multiplicative command (R183, R201), and K of a spliced one (R160). -/
def initPhase (i : Instr) (s : State) : State :=
  match i with
  | .m32Ref => initAcc s
  | .m32kRef => initAcc s
  | .m32Opt => loadK .opt (initAcc s)
  | .m32kOpt => loadK .opt (initAcc s)
  | .m128Ref => initLanes s
  | .m128Opt => loadK .opt (initLanes s)
  | .m128Vn => loadK .vn (initLanes s)
  | .m128Va => loadK .va (initLanes s)
  | .m128Vb => loadK .vb (initLanes s)
  | .sipRef => s

/-- The single-byte step of a command: on ACC for a 32-bit command, on the four lanes for a 128-bit one (R161, R165). -/
def byteStepPhase (i : Instr) (s : State) : State :=
  match i.variant with
  | .m128 => laneStep s
  | .m32 => accStep s
  | .m32k => accStep s
  | .sip => s

/-- The main-loop iteration of a command (R163, R191, R204 to R207). -/
def blockPhase (i : Instr) (s : State) : State :=
  match i with
  | .m32Opt => block32 s
  | .m32kOpt => block32 s
  | .m128Opt => blockOpt s
  | .m128Vn => blockVn s
  | .m128Va => blockVa s
  | .m128Vb => blockVb s
  | .m32Ref => s
  | .m32kRef => s
  | .m128Ref => s
  | .sipRef => s

/-- The accumulators into DG when the tail is done (R125: Ser32 or Ser128). -/
def serializePhase (i : Instr) (s : State) : State :=
  match i.variant with
  | .m128 => ser128 s
  | .m32 => ser32 s
  | .m32k => ser32 s
  | .sip => s

/-- One step of the engine on the command it runs, by PHASE (R126). A phase whose loop is done passes on without effect. -/
def phaseStep (i : Instr) (s : State) : Host.Outcome State Fault Refusal :=
  match s.phase with
  | .idle => .fault .inconsistent
  | .validate =>
    match verdict i s with
    | .pastTop => .refused .rangePastTop
    | .code .success => advance i s
    | .code e => .next (complete e s)
  | .init => advance i (initPhase i s)
  | .prefixFold => if s.pos.toNat < s.k.toNat then .next (byteStepPhase i s) else advance i s
  | .rotl => advance i (rotateLeft s)
  | .main =>
    if s.pos.toNat + stride i.backend ≤ s.inLen.toNat then .next (blockPhase i s) else advance i s
  | .rotr => advance i (rotateRight s)
  | .tail => if s.pos.toNat < s.inLen.toNat then .next (byteStepPhase i s) else advance i (serializePhase i s)
  | .mix => advance i (mix (digestSize i.variant) s)
  | .write => .next (complete .success (digestWrite (digestSize i.variant) s))
  | .sipInit => advance i (sipInit s)
  | .sipWords => if s.pos.toNat + 8 ≤ s.inLen.toNat then .next (sipWord s) else advance i s
  | .sipLast => advance i (sipLast s)
  | .sipFin => advance i (sipFin s)

/-- One step of the engine while BUSY: on the command CMD holds, which cannot change under it (R128). -/
def engineStep (s : State) : Host.Outcome State Fault Refusal :=
  match decode s.cmd with
  | .error _ => .fault .inconsistent
  | .ok i => phaseStep i s

end Sys2Proof.Machine
end

