-- ==== Sys2Proof/Machine/Step.lean ====
section
/-! DEFINITION. One step of the machine: the host's move at an idle engine; while a command runs, the move of the agent that
`pace` names, and the engine's when it names none. -/

namespace Sys2Proof.Machine

def step (s : State) : Host.Outcome State Fault Refusal :=
  if s.busy then
    match s.pace with
    | [] => engineStep s
    | .engine :: rest => engineStep { s with pace := rest }
    | .host :: rest => hostStep { s with pace := rest }
  else hostStep s

/-- The state in which the very next step runs the command word `w`: its `WR` to CMD is the host's next operation, the engine
is idle, and no pace is given (log 12). The word's bits from `nbits` on are 0. -/
def State.withFetchWord (s : State) (nbits w : Nat) : State :=
  { s with
    status := withBit s.status 0 false
    phase := .idle
    pace := []
    host := .wr Reg.cmd.index (w % 2 ^ nbits) :: s.host }

end Sys2Proof.Machine
end

