-- ==== Sys2Proof/Safety.lean ====
section
/-! DEFINITION. What counts as a good state, and the terms the statements use: the bytes of the ranges, the digests the rules
define in closed form, and the accesses a command makes. None of it is used by the machine. -/

namespace Sys2Proof.Machine

/-! ### Bytes -/

/-- The input bytes, in ascending order (R26, R27). -/
def inputBytes (s : State) : List Byte := Memory.bytes s.mem s.inAddr.toNat s.inLen.toNat

/-- The first n key bytes (R28). -/
def keyBytes (s : State) (n : Nat) : List Byte := Memory.bytes s.mem s.keyAddr.toNat n

/-- The bytes of a list exclusive-ored one by one with those of another as long. -/
def xorBytes (bs cs : List Byte) : List Byte := List.zipWith (· ^^^ ·) bs cs

/-- The n low bytes of a word, least significant first (00_scope.md section 5). -/
def lowBytes {k : Nat} (v : BitVec k) (n : Nat) : List Byte := (List.range n).map (byteOf v)

/-! ### The digests in closed form -/

/-- The sum of b[p] * 33^(n-1-p) over the bytes of a list (R189). -/
def weightedSum : List Byte → Nat
  | [] => 0
  | b :: bs => b.toNat * 33 ^ bs.length + weightedSum bs

/-- The final accumulator over a run of bytes, in closed form (R189). -/
def closedForm (bs : List Byte) : Word32 := BitVec.ofNat 32 (5381 * 33 ^ bs.length + weightedSum bs)

/-- Every fourth byte of a list, the first after i of them (R217). -/
def everyFourth : Nat → List Byte → List Byte
  | _, [] => []
  | 0, b :: bs => b :: everyFourth 3 bs
  | i + 1, _ :: bs => everyFourth i bs

/-- The final lanes over a run of bytes, in closed form: each lane is the 32-bit variant over its own bytes (R217). -/
def closedLanes (bs : List Byte) : Quad :=
  ⟨closedForm (everyFourth 0 bs), closedForm (everyFourth 1 bs), closedForm (everyFourth 2 bs),
    closedForm (everyFourth 3 bs)⟩

/-- The 16 bytes of four lanes, lane 0 first, each least significant byte first (R210). -/
def laneBytes (q : Quad) : List Byte := lowBytes q.e0 4 ++ lowBytes q.e1 4 ++ lowBytes q.e2 4 ++ lowBytes q.e3 4

/-- Eight bytes a word, n words absorbed from the front of a list (R247). -/
def sipAbsorb : Nat → SipWords → List Byte → SipWords
  | 0, w, _ => w
  | n + 1, w, bs => sipAbsorb n (sipCompress w (BitVec.ofNat 64 (numberOfBytes (bs.take 8)))) (bs.drop 8)

/-- SipHash-2-4 of a run of bytes under a 16-byte key (R242 to R250). -/
def sipHash (key bs : List Byte) : Word64 :=
  let k0 := BitVec.ofNat 64 (numberOfBytes (key.take 8))
  let k1 := BitVec.ofNat 64 (numberOfBytes (key.drop 8))
  let n := bs.length / 8
  sipDigest (sipFinalize (sipCompress (sipAbsorb n (sipInitWords k0 k1) bs)
    (sipFinalWord bs.length (numberOfBytes (bs.drop (8 * n))))))

/-- The digest a command writes when it passes the Validator, as bytes in ascending order of address (R125). -/
def digestBytes (i : Instr) (s : State) : List Byte :=
  match i.variant with
  | .m32 => lowBytes (closedForm (inputBytes s)) 4
  | .m32k => xorBytes (lowBytes (closedForm (inputBytes s)) 4) (keyBytes s 4)
  | .m128 => xorBytes (laneBytes (closedLanes (inputBytes s))) (keyBytes s 16)
  | .sip => lowBytes (sipHash (keyBytes s 16) (inputBytes s)) 8

/-! ### The accesses of a command -/

/-- n single-byte reads from an address on. -/
def readsFrom (a n : Nat) : List Access := (List.range n).map fun j => .read (a + j) 1

/-- m block reads of w bytes from an address on. -/
def blocksFrom (a w m : Nat) : List Access := (List.range m).map fun b => .read (a + w * b) w

/-- The reads of the input by a spliced command that loads its blocks with one access each (R63, R166). -/
def splicedReads (b : Backend) (s : State) : List Access :=
  let a := s.inAddr.toNat
  let n := s.inLen.toNat
  let k := prefixLength (alignWidth b) a n
  let m := blockCount (stride b) n k
  readsFrom a k ++ blocksFrom (a + k) (stride b) m ++ readsFrom (a + k + stride b * m) (n - k - stride b * m)

/-- The accesses of a command that passes the Validator, in order (R63, R73). -/
def accessOrder (i : Instr) (s : State) : List Access :=
  let input :=
    match i.backend with
    | .vn => splicedReads .vn s
    | .va => splicedReads .va s
    | .vb => splicedReads .vb s
    | .ref => readsFrom s.inAddr.toNat s.inLen.toNat
    | .opt => readsFrom s.inAddr.toNat s.inLen.toNat
  let key := readsFrom s.keyAddr.toNat (keyBytesUsed i.variant)
  let output : List Access := [.write s.outAddr.toNat (digestSize i.variant)]
  match i.variant with
  | .sip => key ++ input ++ output
  | .m32 => input ++ key ++ output
  | .m32k => input ++ key ++ output
  | .m128 => input ++ key ++ output

/-- Whether an access touches an address. -/
def Access.covers (x : Nat) : Access → Bool
  | .read a w => decide (a ≤ x) && decide (x < a + w)
  | .write a w => decide (a ≤ x) && decide (x < a + w)

/-- Whether an access is a read. -/
def Access.isRead : Access → Bool
  | .read _ _ => true
  | .write _ _ => false

/-- How many reads of a log touch an address. -/
def readsOf (l : List Access) (x : Nat) : Nat := (l.filter fun c => c.isRead && c.covers x).length

/-- How many writes of a log touch an address. -/
def writesOf (l : List Access) (x : Nat) : Nat := (l.filter fun c => !c.isRead && c.covers x).length

/-! ### Conditions on a command -/

/-- Two ranges have a byte in common (R151). -/
def shareByte (a la b lb : Nat) : Prop := ∃ x, a ≤ x ∧ x < a + la ∧ b ≤ x ∧ x < b + lb

/-- A range does not pass the top of an address space of 2^aw bytes; an empty range never does (R152). -/
def insideTop (aw base len : Nat) : Prop := 0 < len → base + len ≤ 2 ^ aw

/-- The conditions under which a command executes normally, on the operand registers and the hardware alone: its backend is
present (R97), and the four checks and the precondition on ranges hold (R141 to R144, R152). -/
structure Accepted (i : Instr) (s : State) : Prop where
  present : backendPresent s.hw i.backend = true
  inNonNull : s.inAddr ≠ 0
  outNonNull : s.outAddr ≠ 0
  keyNonNull : keyed i.variant = true → s.keyAddr ≠ 0
  capacity : digestSize i.variant ≤ s.outCap.toNat
  keySize : keyed i.variant = true → 16 ≤ s.keyLen.toNat
  inTop : insideTop s.hw.aw.bits s.inAddr.toNat s.inLen.toNat
  outTop : insideTop s.hw.aw.bits s.outAddr.toNat s.outCap.toNat
  keyTop : keyed i.variant = true → insideTop s.hw.aw.bits s.keyAddr.toNat s.keyLen.toNat
  inOut : ¬ shareByte s.inAddr.toNat s.inLen.toNat s.outAddr.toNat s.outCap.toNat
  inKey : keyed i.variant = true → ¬ shareByte s.inAddr.toNat s.inLen.toNat s.keyAddr.toNat s.keyLen.toNat
  outKey : keyed i.variant = true → ¬ shareByte s.outAddr.toNat s.outCap.toNat s.keyAddr.toNat s.keyLen.toNat

/-- How a command leaves STATUS, ERR and PHASE when it completes with a code (R127). -/
structure Ended (e : ErrorCode) (t : State) : Prop where
  err : t.err = e.word
  busy : t.busy = false
  done : t.done = true
  ill : t.ill = false
  phase : t.phase = .idle

/-- The parameters, CMD and the six operand registers are unchanged. -/
structure KeepsOperands (s t : State) : Prop where
  hw : t.hw = s.hw
  cmd : t.cmd = s.cmd
  inAddr : t.inAddr = s.inAddr
  inLen : t.inLen = s.inLen
  keyAddr : t.keyAddr = s.keyAddr
  keyLen : t.keyLen = s.keyLen
  outAddr : t.outAddr = s.outAddr
  outCap : t.outCap = s.outCap

/-- The host's side and the free values are unchanged. -/
structure KeepsHostSide (s t : State) : Prop where
  host : t.host = s.host
  pace : t.pace = s.pace
  hostData : t.hostData = s.hostData
  free : t.free = s.free

/-- The working registers are unchanged (R33 to R41, R49). -/
structure KeepsWorking (s t : State) : Prop where
  lanes : t.lanes = s.lanes
  lane : t.lane = s.lane
  k : t.k = s.k
  rot : t.rot = s.rot
  pos : t.pos = s.pos
  x : t.x = s.x
  p : t.p = s.p
  g : t.g = s.g
  v : t.v = s.v
  k0 : t.k0 = s.k0
  k1 : t.k1 = s.k1
  mw : t.mw = s.mw
  dg : t.dg = s.dg

/-- Every byte outside n bytes from an address on reads as before. -/
def sameMemoryOutside (s t : State) (a n : Nat) : Prop :=
  ∀ x, x < a ∨ a + n ≤ x → Memory.read t.mem x = Memory.read s.mem x

/-! ### Good states -/

/-- What holds while a command runs, phase by phase (R126, R128, R160 to R165, R247, R248). -/
structure Running (i : Instr) (s : State) : Prop where
  /-- the command was legal when it was issued (R97) -/
  present : backendPresent s.hw i.backend = true
  /-- PHASE is one of the command's (R126) -/
  phase : s.phase ∈ phaseOrder i
  /-- past VALIDATE, the Validator has passed the operands, which cannot have changed (R128) -/
  validated : s.phase ≠ .validate → verdict i s = .code .success
  /-- POS never passes IN_LEN (R38, R43) -/
  cursor : s.phase ≠ .validate → s.phase ≠ .init → s.phase ≠ .sipInit → s.pos.toNat ≤ s.inLen.toNat
  /-- in the prefix, K is the prefix length and POS has not passed it (R160, R161) -/
  inPrefix : s.phase = .prefixFold →
    s.k.toNat = prefixLength (alignWidth i.backend) s.inAddr.toNat s.inLen.toNat ∧ s.pos.toNat ≤ s.k.toNat
  /-- after the prefix, POS is the prefix length (R162) -/
  atRotl : s.phase = .rotl → s.pos.toNat = prefixLength (alignWidth i.backend) s.inAddr.toNat s.inLen.toNat
  /-- in the main loop, the next block is aligned, or no whole block is left (R64, R163) -/
  aligned : s.phase = .main →
    (s.inAddr.toNat + s.pos.toNat) % alignWidth i.backend = 0 ∨ s.inLen.toNat < s.pos.toNat + stride i.backend
  /-- LANE is POS modulo 4 from the prefix to the tail (R36, R165) -/
  lane : i.variant = .m128 →
    s.phase ∈ [Phase.prefixFold, .rotl, .main, .rotr, .tail] → s.lane.val = s.pos.toNat % 4
  /-- the words of SIP start at multiples of 8 (R247) -/
  atWords : s.phase = .sipWords → s.pos.toNat % 8 = 0
  /-- the leftover bytes of SIP start after its last whole word (R248) -/
  atLast : s.phase = .sipLast → s.pos.toNat = 8 * (s.inLen.toNat / 8)
  /-- the host's duty to leave the command's footprint alone holds (R76) -/
  guarded : verdict i s = .code .success → footprint i s ∈ s.awaited

/-- The states a run keeps to: each clause is a promise of a rule, not of one command. -/
structure State.Inv (s : State) : Prop where
  /-- memory is in canonical form -/
  memWf : Memory.wf s.mem
  /-- memory has 2^AW bytes (R60) -/
  memBound : ∀ c ∈ s.mem, c.1 < 2 ^ s.hw.aw.bits
  /-- the operand registers are AW bits wide (R6, R26 to R31) -/
  inAddr : s.inAddr.toNat < 2 ^ s.hw.aw.bits
  inLen : s.inLen.toNat < 2 ^ s.hw.aw.bits
  keyAddr : s.keyAddr.toNat < 2 ^ s.hw.aw.bits
  keyLen : s.keyLen.toNat < 2 ^ s.hw.aw.bits
  outAddr : s.outAddr.toNat < 2 ^ s.hw.aw.bits
  outCap : s.outCap.toNat < 2 ^ s.hw.aw.bits
  /-- at most one of BUSY, DONE, ILL is 1, and bits 31:3 are 0 (R23) -/
  status : s.status = 0 ∨ s.status = 1 ∨ s.status = 2 ∨ s.status = 4
  /-- ERR holds one of the five codes (R24) -/
  err : ∃ e : ErrorCode, s.err = e.word
  /-- PHASE is IDLE exactly when BUSY is 0 (R42) -/
  idle : s.phase = .idle ↔ s.busy = false
  /-- while BUSY, CMD holds the legal command that runs (R22, R128) -/
  running : s.busy = true → ∃ i, decode s.cmd = .ok i ∧ Running i s

end Sys2Proof.Machine
end

