-- ==== Sys2Proof/Certificates/Slice0/Obligations.lean ====
section
/-! DEFINITION. The statements for the provers: what the numbered rules of spec/ say the engine does. -/

open Sys2Proof Sys2Proof.Machine

/-! ### Reset and the register file -/

/-- 10_state.md R48: the values the table gives for the state right after reset (parameters at their defaults). The values
the model chose for the unspecified registers (log 2) are not stated. -/
def Obligations.ResetStateHoldsTabledValues : Prop :=
  State.reset.cmd = 0 ∧ State.reset.status = 0 ∧ State.reset.err = 0 ∧ readReg State.reset 3 = 0x1F ∧
    State.reset.inAddr = 0 ∧ State.reset.inLen = 0 ∧ State.reset.keyAddr = 0 ∧ State.reset.keyLen = 0 ∧
    State.reset.outAddr = 0 ∧ State.reset.outCap = 0 ∧ State.reset.phase = .idle

/-- 70_reset_and_hazards.md R301, R302: the reset event clears every host-visible register, keeps the parameters (so CAP) and
leaves memory alone; cutting off a digest write (a command in phase WRITE, log 6) it may change the D output bytes only. It
ends the host's duty to leave the footprints of earlier commands alone (log 24). -/
def Obligations.ResetEventClearsRegistersAndKeepsMemory : Prop :=
  ∀ s : State, ∃ t, hostOp .reset s = .next t ∧
    t.cmd = 0 ∧ t.status = 0 ∧ t.err = 0 ∧ t.hw = s.hw ∧ t.inAddr = 0 ∧ t.inLen = 0 ∧ t.keyAddr = 0 ∧ t.keyLen = 0 ∧
    t.outAddr = 0 ∧ t.outCap = 0 ∧ t.phase = .idle ∧ t.awaited = [] ∧
    (¬ (s.busy = true ∧ s.phase = .write) → t.mem = s.mem) ∧
    (∀ i, s.busy = true → s.phase = .write → decode s.cmd = .ok i →
      sameMemoryOutside s t s.outAddr.toNat (digestSize i.variant))

/-- 70_reset_and_hazards.md R303: with all operand registers 0, as reset leaves them, any legal command completes with
InvalidParameter and touches no memory. -/
def Obligations.FirstCommandAfterResetIsInvalidParameter : Prop :=
  (State.reset.inAddr = 0 ∧ State.reset.inLen = 0 ∧ State.reset.keyAddr = 0 ∧ State.reset.keyLen = 0 ∧
    State.reset.outAddr = 0 ∧ State.reset.outCap = 0) ∧
  ∀ (i : Instr) (s : State), backendPresent s.hw i.backend = true →
    s.inAddr = 0 → s.inLen = 0 → s.keyAddr = 0 → s.keyLen = 0 → s.outAddr = 0 → s.outCap = 0 →
    ∃ t, exec i s = .next t ∧ Ended .invalidParameter t ∧ t.err = 0xFFFFFFFF ∧ t.mem = s.mem ∧ t.accesses = []

/-- 10_state.md R25: bit b of CAP says that the backend with code b is present; no step changes what CAP reads, and a WR to it
is ignored. -/
def Obligations.CapBitsTellPresentBackends : Prop :=
  ∀ s : State, readReg s 3 = (capWord s.hw).setWidth 64 ∧
    (capWord s.hw).getLsbD 0 = true ∧ (capWord s.hw).getLsbD 1 = true ∧ (capWord s.hw).getLsbD 2 = s.hw.capVN ∧
    (capWord s.hw).getLsbD 3 = s.hw.capVA ∧ (capWord s.hw).getLsbD 4 = s.hw.capVB ∧
    (∀ b, 5 ≤ b → (capWord s.hw).getLsbD b = false) ∧
    (s.hw = Params.default → capWord s.hw = 0x1F) ∧ (∀ v, hostOp (.wr 3 v) s = .next s) ∧
    ∀ t, step s = .next t → readReg t 3 = readReg s 3

/-- 40_command_lifecycle.md R121: RD returns the register's value, or 0 for a reserved index, and changes nothing of the
engine, at any time. One that returns DONE ends the host's duty of 20_memory.md R76, which the model keeps beside the engine
(log 24). -/
def Obligations.ReadReturnsRegisterAndChangesNothing : Prop :=
  ∀ (s : State) (index : Nat),
    let value : Word64 :=
      if index = 0 then s.cmd.setWidth 64 else if index = 1 then s.status.setWidth 64
      else if index = 2 then s.err.setWidth 64 else if index = 3 then (capWord s.hw).setWidth 64
      else if index = 4 then s.inAddr else if index = 5 then s.inLen else if index = 6 then s.keyAddr
      else if index = 7 then s.keyLen else if index = 8 then s.outAddr else if index = 9 then s.outCap else 0
    hostOp (.rd index) s =
      .next { s with hostData := value, awaited := if index = 1 ∧ s.done = true then [] else s.awaited }

/-- 10_state.md R32: a reserved index ignores a WR and reads 0; an operand register keeps the written value modulo 2^AW, CMD
modulo 2^32. The read-only registers STATUS, ERR and CAP ignore a WR (10_state.md R23, R24, R25), at an idle engine too. -/
def Obligations.WritesAreKeptModuloTheWidth : Prop :=
  ∀ (s : State) (v : Nat),
    (∀ index, 10 ≤ index → hostOp (.wr index v) s = .next s ∧ readReg s index = 0) ∧
    (∀ index, index = 1 ∨ index = 2 ∨ index = 3 → hostOp (.wr index v) s = .next s) ∧
    (s.busy = false →
    hostOp (.wr 4 v) s = .next { s with inAddr := BitVec.ofNat 64 (v % 2 ^ s.hw.aw.bits) } ∧
    hostOp (.wr 5 v) s = .next { s with inLen := BitVec.ofNat 64 (v % 2 ^ s.hw.aw.bits) } ∧
    hostOp (.wr 6 v) s = .next { s with keyAddr := BitVec.ofNat 64 (v % 2 ^ s.hw.aw.bits) } ∧
    hostOp (.wr 7 v) s = .next { s with keyLen := BitVec.ofNat 64 (v % 2 ^ s.hw.aw.bits) } ∧
    hostOp (.wr 8 v) s = .next { s with outAddr := BitVec.ofNat 64 (v % 2 ^ s.hw.aw.bits) } ∧
    hostOp (.wr 9 v) s = .next { s with outCap := BitVec.ofNat 64 (v % 2 ^ s.hw.aw.bits) } ∧
    (∀ t, hostOp (.wr 0 v) s = .next t → t.cmd.toNat = v % 2 ^ 32))

/-- 40_command_lifecycle.md R128: while BUSY every WR, to any register, is ignored, no engine step changes CMD or an operand
register, and RD works as always. What an RD does to hostData (log 12) and to awaited (log 24: it ends the duty of R76 if DONE
is 1, as it never is in a good busy state) is the model's choice. -/
def Obligations.WritesWhileBusyAreIgnored : Prop :=
  ∀ (s : State) (index v : Nat), s.busy = true →
    hostOp (.wr index v) s = .next s ∧
    hostOp (.rd index) s = .next { s with
      hostData := readReg s index, awaited := if index = 1 ∧ s.done = true then [] else s.awaited } ∧
    ∀ t, engineStep s = .next t → KeepsOperands s t

/-- 40_command_lifecycle.md R123: a word that is no legal command, or whose backend is absent (30_encoding.md R97), sets ILL,
clears DONE, is held in CMD, and changes nothing else; no memory access is made. -/
def Obligations.IllegalWordSetsIllAndNothingElse : Prop :=
  ∀ (s : State) (v : Nat), s.busy = false →
    (∀ i, decode (BitVec.ofNat 32 v) = .ok i → backendPresent s.hw i.backend = false) →
    ∃ t, hostOp (.wr 0 v) s = .next t ∧ t.ill = true ∧ t.done = false ∧ t.busy = false ∧
      (s.status = 0 ∨ s.status = 2 ∨ s.status = 4 → t.status = 4) ∧
      t.cmd = BitVec.ofNat 32 v ∧ t.err = s.err ∧ t.phase = s.phase ∧ t.mem = s.mem ∧ t.accesses = [] ∧
      KeepsOperands { s with cmd := BitVec.ofNat 32 v } t ∧ KeepsWorking s t ∧ KeepsHostSide s t ∧ t.awaited = s.awaited

/-- 40_command_lifecycle.md R124: the issue of a legal command that is not run to its end in the same step sets BUSY, clears
DONE and ILL, moves PHASE to VALIDATE, and leaves ERR, the operands, the working registers and memory alone. When it is only
issued is the model's schedule (log 4, log 5). From issue on the footprint of a command that passes the Validator is the host's
duty (R76, log 24). -/
def Obligations.LegalIssueSetsBusyAndKeepsErr : Prop :=
  ∀ (s : State) (v : Nat) (i : Instr), s.busy = false → s.pace ≠ [] → decode (BitVec.ofNat 32 v) = .ok i →
    backendPresent s.hw i.backend = true →
    ∃ t, hostOp (.wr 0 v) s = .next t ∧ t.busy = true ∧ t.done = false ∧ t.ill = false ∧ t.phase = .validate ∧
      t.cmd = BitVec.ofNat 32 v ∧ t.err = s.err ∧ t.mem = s.mem ∧ KeepsOperands { s with cmd := BitVec.ofNat 32 v } t ∧
      KeepsWorking s t ∧ KeepsHostSide s t ∧ (Accepted i s → t.awaited = footprint i s :: s.awaited) ∧
      (¬ Accepted i s → t.awaited = s.awaited)

/-- 10_state.md R24: the words of the five error codes. -/
def Obligations.ErrorCodesAreTwosComplement : Prop :=
  ErrorCode.word .success = 0x00000000 ∧ ErrorCode.word .invalidParameter = 0xFFFFFFFF ∧
    ErrorCode.word .outputTooSmall = 0xFFFFFFFE ∧ ErrorCode.word .rangesOverlap = 0xFFFFFFFD ∧
    ErrorCode.word .keyTooSmall = 0xFFFFFFFC

/-- 30_encoding.md R101: the host reaches register index i at HX4_BASE + 8*i. -/
def Obligations.BusAddressSelectsItsRegister : Prop :=
  ∀ i : Nat, busAddress i = Config.hx4Base + 8 * i ∧ indexAtBus (busAddress i) = some i

/-- 30_encoding.md R104: a poll of WAIT reads STATUS and is posted again exactly while BUSY reads 1 (the model's
form of WAIT, log 20); one that returns DONE ends the duty of R76 (log 24). -/
def Obligations.WaitPollsStatusUntilIdle : Prop :=
  ∀ s : State, ∃ t, hostOp .wait s = .next t ∧ t.hostData = s.status.setWidth 64 ∧ t.mem = s.mem ∧ KeepsOperands s t ∧
    KeepsWorking s t ∧ t.status = s.status ∧ t.err = s.err ∧ t.phase = s.phase ∧
    (s.busy = true → t.host = .wait :: s.host) ∧ (s.busy = false → t.host = s.host) ∧
    t.awaited = if s.done = true then [] else s.awaited

/-! ### The Validator -/

/-- 41_validator.md R150, R152, R154: the code is that of the first failing check in the order null, output capacity, key size,
overlap; a range that passes the top is asked about where check 4 is reached. -/
def Obligations.ValidatorReportsFirstFailingCheck : Prop :=
  ∀ (aw d : Nat) (key : Bool) (ia il ka kl oa oc : Nat),
    let null := ia = 0 ∨ oa = 0 ∨ (key = true ∧ ka = 0)
    let small := oc < d
    let short := key = true ∧ kl < 16
    let inside := insideTop aw ia il ∧ insideTop aw oa oc ∧ (key = true → insideTop aw ka kl)
    let shared := shareByte ia il oa oc ∨ (key = true ∧ shareByte ia il ka kl) ∨ (key = true ∧ shareByte oa oc ka kl)
    let v := validate aw d key ia il ka kl oa oc
    (null → v = .code .invalidParameter) ∧
    (¬ null → small → v = .code .outputTooSmall) ∧
    (¬ null → ¬ small → short → v = .code .keyTooSmall) ∧
    (¬ null → ¬ small → ¬ short → ¬ inside → v = .pastTop) ∧
    (¬ null → ¬ small → ¬ short → inside → shared → v = .code .rangesOverlap) ∧
    (¬ null → ¬ small → ¬ short → inside → ¬ shared → v = .code .success)

/-- 41_validator.md R145, R146, R151: the test on first and last bytes finds exactly the ranges that have a byte in common; for
non-empty ranges that is one pair of inequalities, and ranges that merely touch do not overlap. -/
def Obligations.OverlapTestFindsSharedByte : Prop :=
  ∀ a la b lb : Nat, (overlap a la b lb = true ↔ shareByte a la b lb) ∧
    (0 < la → 0 < lb → (overlap a la b lb = true ↔ a ≤ b + lb - 1 ∧ b ≤ a + la - 1)) ∧
    (a + la = b → overlap a la b lb = false)

/-- 41_validator.md R147: an unkeyed command does the same whatever KEY_ADDR and KEY_LEN hold. -/
def Obligations.UnkeyedCommandIgnoresKeyOperands : Prop :=
  ∀ (i : Instr) (s : State) (ka kl : Word64), i.variant = .m32 →
    (∀ t, exec i s = .next t →
      exec i { s with keyAddr := ka, keyLen := kl } = .next { t with keyAddr := ka, keyLen := kl }) ∧
    (∀ r, exec i s = .refused r → exec i { s with keyAddr := ka, keyLen := kl } = .refused r)

/-- 60_exceptions.md R275, 41_validator.md R149: a command that fails validation completes with its code, makes no access, and
has no effect on memory or on any register but STATUS and ERR. -/
def Obligations.FailedCommandChangesStatusAndErrOnly : Prop :=
  ∀ (i : Instr) (s : State) (e : ErrorCode), backendPresent s.hw i.backend = true → verdict i s = .code e → e ≠ .success →
    ∃ t, exec i s = .next t ∧ Ended e t ∧ t.mem = s.mem ∧ t.accesses = [] ∧ KeepsOperands s t ∧ KeepsWorking s t ∧
      KeepsHostSide s t ∧ t.awaited = s.awaited

/-- 41_validator.md R152: a command that passes checks 1 to 3 with a non-empty range of its own that passes the top of the
address space has no meaning; the model refuses it by name. One that fails a check before check 4 completes whatever its
ranges are. -/
def Obligations.RangePastTheTopIsRefused : Prop :=
  ∀ (i : Instr) (s : State), backendPresent s.hw i.backend = true →
    let passes123 := s.inAddr ≠ 0 ∧ s.outAddr ≠ 0 ∧ (keyed i.variant = true → s.keyAddr ≠ 0) ∧
      digestSize i.variant ≤ s.outCap.toNat ∧ (keyed i.variant = true → 16 ≤ s.keyLen.toNat)
    let pastTop := ¬ insideTop s.hw.aw.bits s.inAddr.toNat s.inLen.toNat ∨
      ¬ insideTop s.hw.aw.bits s.outAddr.toNat s.outCap.toNat ∨
      (keyed i.variant = true ∧ ¬ insideTop s.hw.aw.bits s.keyAddr.toNat s.keyLen.toNat)
    (passes123 → pastTop → exec i s = .refused .rangePastTop) ∧
    (¬ passes123 → ∃ t, exec i s = .next t ∧ t.done = true ∧ t.err ≠ 0)

/-- 30_encoding.md R97: only the three vector backends can be absent, each by its own parameter, and a command for an absent
one is treated as an illegal word; the bit of CAP with the backend's code tells which are present. -/
def Obligations.AbsentBackendIsAnIllegalWord : Prop :=
  ∀ (i : Instr) (s : State),
    (backendPresent s.hw i.backend = false ↔
      (i = .m128Vn ∧ s.hw.capVN = false) ∨ (i = .m128Va ∧ s.hw.capVA = false) ∨ (i = .m128Vb ∧ s.hw.capVB = false)) ∧
    (backendPresent s.hw i.backend = false → exec i s = .next (issueIllegal s)) ∧
    (i.wellFormed s.hw = backendPresent s.hw i.backend) ∧
    (capWord s.hw).getLsbD i.backend.code.toNat = backendPresent s.hw i.backend

/-! ### Encoding -/

/-- 30_encoding.md R95, R96: a word decodes to a command exactly when it is that command's word; no other word is legal. -/
def Obligations.DecodeAcceptsExactlyEncodedWords : Prop :=
  ∀ (w : Word32) (i : Instr), decode w = .ok i ↔ w = encode i

/-- 30_encoding.md R95: the ten command words. -/
def Obligations.CommandWordsAreThoseOfTheMap : Prop :=
  decode 0x00000001 = .ok .m32Ref ∧ decode 0x00000011 = .ok .m32Opt ∧ decode 0x00000002 = .ok .m32kRef ∧
    decode 0x00000012 = .ok .m32kOpt ∧ decode 0x00000003 = .ok .m128Ref ∧ decode 0x00000013 = .ok .m128Opt ∧
    decode 0x00000023 = .ok .m128Vn ∧ decode 0x00000033 = .ok .m128Va ∧ decode 0x00000043 = .ok .m128Vb ∧
    decode 0x00000004 = .ok .sipRef

/-- 30_encoding.md R96, R98: the reason a word is no command, by the first of its faults. The names
of the reasons and their order are the model's. -/
def Obligations.IllegalWordsAreRejectedByName : Prop :=
  ∀ w : Word32,
    (w.toNat / 2 ^ 7 ≠ 0 → decode w = .error .highBitsSet) ∧
    (w.toNat / 2 ^ 7 = 0 → w.toNat / 8 % 2 = 1 → decode w = .error .bitThreeSet) ∧
    (w.toNat / 2 ^ 7 = 0 → w.toNat / 8 % 2 = 0 → w.toNat % 8 = 0 ∨ 5 ≤ w.toNat % 8 →
      decode w = .error .reservedVariant) ∧
    (w.toNat / 2 ^ 7 = 0 → w.toNat / 8 % 2 = 0 → 1 ≤ w.toNat % 8 → w.toNat % 8 ≤ 4 → 5 ≤ w.toNat / 16 →
      decode w = .error .reservedBackend) ∧
    (w.toNat / 2 ^ 7 = 0 → w.toNat / 8 % 2 = 0 → w.toNat % 8 = 1 ∨ w.toNat % 8 = 2 → 2 ≤ w.toNat / 16 →
      w.toNat / 16 ≤ 4 → decode w = .error .illegalPair) ∧
    (w.toNat / 2 ^ 7 = 0 → w.toNat / 8 % 2 = 0 → w.toNat % 8 = 4 → 1 ≤ w.toNat / 16 → w.toNat / 16 ≤ 4 →
      decode w = .error .illegalPair)

/-! ### Steps -/

/-- 40_command_lifecycle.md R122, R125, R129: at an idle engine with no pace given, the host's write of a command's word to CMD
runs exec of that command in one step, after the operation is taken from the queue and the word is stored in CMD (one step:
the model's schedule, log 4). -/
def Obligations.StepRunsTheDecodedCommand : Prop :=
  ∀ (s : State) (v : Nat) (rest : List HostOp) (i : Instr), s.busy = false → s.pace = [] → s.host = .wr 0 v :: rest →
    decode (BitVec.ofNat 32 v) = .ok i → step s = exec i { s with host := rest, cmd := BitVec.ofNat 32 v }

/-- 20_memory.md R76, 70_reset_and_hazards.md R311 (the model's schedule, log 5 and log 12): at an idle engine the host moves;
while a command runs the agent pace names moves, and the engine when it names none. A turn of a host that has posted nothing is
passed over. -/
def Obligations.StepMovesTheAgentWhoseTurnItIs : Prop :=
  ∀ s : State,
    (s.busy = false → s.host = [] → step s = .next s) ∧
    (∀ op ops, s.busy = false → s.host = op :: ops → step s = hostOp op { s with host := ops }) ∧
    (s.busy = true → s.pace = [] → step s = engineStep s) ∧
    (∀ rest, s.busy = true → s.pace = .engine :: rest → step s = engineStep { s with pace := rest }) ∧
    (∀ rest op ops, s.busy = true → s.pace = .host :: rest → s.host = op :: ops →
      step s = hostOp op { s with pace := rest, host := ops }) ∧
    (∀ rest, s.busy = true → s.pace = .host :: rest → s.host = [] → step s = .next { s with pace := rest })

/-! ### Digests -/

/-- 43_mult32.md R189: the final accumulator of every 32-bit command in closed form; 5381 for the empty input. It is read in
ACC of the state after completion: that ACC keeps it there is the model's choice (log 15; 40_command_lifecycle.md R127 says
that the internal registers keep what they hold). -/
def Obligations.FinalAccumulatorHasClosedForm : Prop :=
  ∀ (i : Instr) (s : State), i.variant = .m32 ∨ i.variant = .m32k → Accepted i s →
    ∃ t, exec i s = .next t ∧ Ended .success t ∧
      t.lanes.e0 = BitVec.ofNat 32 (5381 * 33 ^ (inputBytes s).length + weightedSum (inputBytes s)) ∧
      (s.inLen = 0 → t.lanes.e0 = 5381)

/-- 44_mult128.md R217: the final lanes of every 128-bit command in closed form, each over its own bytes. They are read in the
state after completion: that the lane registers keep them there is the model's choice (log 15; 40_command_lifecycle.md R127
says that the internal registers keep what they hold). -/
def Obligations.FinalLanesHaveClosedForm : Prop :=
  ∀ (i : Instr) (s : State), i.variant = .m128 → Accepted i s →
    ∃ t, exec i s = .next t ∧ Ended .success t ∧
      (∀ l : Fin 4, let bs := everyFourth l.val (inputBytes s)
        t.lanes.get l = BitVec.ofNat 32 (5381 * 33 ^ bs.length + weightedSum bs)) ∧
      (s.inLen = 0 → t.lanes = ⟨5381, 5381, 5381, 5381⟩)

/-- 43_mult32.md R184, R185, R188, 45_keyed_mixer.md R231: M32.REF and M32.OPT write the four bytes of the accumulator, least
significant first, with no key mixed in. -/
def Obligations.UnkeyedCommandsWriteTheAccumulator : Prop :=
  ∀ (i : Instr) (s : State), i = .m32Ref ∨ i = .m32Opt → Memory.wf s.mem → Accepted i s →
    ∃ t, exec i s = .next t ∧ Ended .success t ∧
      ∀ j, j < 4 → Memory.read t.mem (s.outAddr.toNat + j) = byteOf (closedForm (inputBytes s)) j

/-- 45_keyed_mixer.md R230, R232: M32K.REF, M32K.OPT and the five M128 commands write the bytes of their accumulators, each
exclusive-ored with the key byte at its offset. -/
def Obligations.KeyedCommandsMixKeyIntoDigest : Prop :=
  ∀ (i : Instr) (s : State), Memory.wf s.mem → Accepted i s →
    (i = .m32kRef ∨ i = .m32kOpt → ∃ t, exec i s = .next t ∧ Ended .success t ∧
      ∀ j, j < 4 → Memory.read t.mem (s.outAddr.toNat + j) =
        byteOf (closedForm (inputBytes s)) j ^^^ Memory.read s.mem (s.keyAddr.toNat + j)) ∧
    (i = .m128Ref ∨ i = .m128Opt ∨ i = .m128Vn ∨ i = .m128Va ∨ i = .m128Vb → ∃ t, exec i s = .next t ∧ Ended .success t ∧
      ∀ (l : Fin 4) (j : Nat), j < 4 → Memory.read t.mem (s.outAddr.toNat + 4 * l.val + j) =
        byteOf (closedForm (everyFourth l.val (inputBytes s))) j ^^^ Memory.read s.mem (s.keyAddr.toNat + 4 * l.val + j))

/-- 46_siphash.md R251, R250: SIP.REF writes SipHash-2-4 of the input under the first 16 key bytes, little-endian. -/
def Obligations.SipCommandWritesSipHash : Prop :=
  ∀ s : State, Memory.wf s.mem → Accepted .sipRef s →
    ∃ t, exec .sipRef s = .next t ∧ Ended .success t ∧
      ∀ j, j < 8 → Memory.read t.mem (s.outAddr.toNat + j) = byteOf (sipHash (keyBytes s 16) (inputBytes s)) j

/-- 20_memory.md R67, 40_command_lifecycle.md R133, 45_keyed_mixer.md R233: a command that passes the Validator leaves CMD, the
operand registers, the bits 31:3 of STATUS and the host's side as they were, and every byte of memory but its D output
bytes. Its input, used key bytes and output bytes are from then on the host's duty of R76, ahead of the ones before (log 24). -/
def Obligations.CommandChangesOnlyItsOutputBytes : Prop :=
  ∀ (i : Instr) (s : State), Accepted i s →
    ∃ t, exec i s = .next t ∧ KeepsOperands s t ∧ KeepsHostSide s t ∧
      (∀ b, 3 ≤ b → t.status.getLsbD b = s.status.getLsbD b) ∧
      t.awaited = ⟨s.inAddr.toNat, s.inLen.toNat, if keyed i.variant then s.keyAddr.toNat else 0,
        keyBytesUsed i.variant, s.outAddr.toNat, digestSize i.variant⟩ :: s.awaited ∧
      sameMemoryOutside s t s.outAddr.toNat (digestSize i.variant)

/-- 10_state.md R34, 46_siphash.md R240, 40_command_lifecycle.md R126: a command leaves the working registers of the other
variants alone: a 32-bit command all but ACC, K (with OPT), POS and DG; a 128-bit command the SipHash registers, and the
block buffers its backend has no use for; SIP the lanes, the Splicer's registers and the block buffers. The spec leaves
these registers open between commands (R45); that they keep their values is the model's choice (log 15). -/
def Obligations.CommandLeavesOtherVariantsRegisters : Prop :=
  ∀ (i : Instr) (s t : State), Accepted i s → exec i s = .next t →
    (i.variant = .m32 ∨ i.variant = .m32k → t.lanes.e1 = s.lanes.e1 ∧ t.lanes.e2 = s.lanes.e2 ∧ t.lanes.e3 = s.lanes.e3 ∧
      t.lane = s.lane ∧ t.rot = s.rot ∧ t.x = s.x ∧ t.p = s.p ∧ t.g = s.g ∧ t.v = s.v ∧ t.k0 = s.k0 ∧ t.k1 = s.k1 ∧
      t.mw = s.mw ∧ (i.backend = .ref → t.k = s.k)) ∧
    (i.variant = .m128 → t.v = s.v ∧ t.k0 = s.k0 ∧ t.k1 = s.k1 ∧ t.mw = s.mw ∧
      (i.backend = .ref → t.k = s.k ∧ t.rot = s.rot) ∧
      (i.backend = .ref ∨ i.backend = .opt → t.x = s.x ∧ t.p = s.p ∧ t.g = s.g) ∧ (i.backend = .va → t.p = s.p) ∧
      (i.backend = .vn → t.p = s.p ∧ t.x.extractLsb' 64 64 = s.x.extractLsb' 64 64)) ∧
    (i.variant = .sip → t.lanes = s.lanes ∧ t.lane = s.lane ∧ t.k = s.k ∧ t.rot = s.rot ∧ t.x = s.x ∧ t.p = s.p ∧
      t.g = s.g)

/-- 00_scope.md R3, 44_mult128.md R216: any two present backends of one variant end with the same ERR and STATUS and the same
memory, and refuse the same states. -/
def Obligations.BackendsOfAVariantAgree : Prop :=
  ∀ (i j : Instr) (s : State), i.variant = j.variant → backendPresent s.hw i.backend = true →
    backendPresent s.hw j.backend = true → Memory.wf s.mem →
    (∀ r, exec i s = .refused r ↔ exec j s = .refused r) ∧
    (∀ t, exec i s = .next t → ∃ u, exec j s = .next u ∧ u.err = t.err ∧ u.status = t.status ∧ u.mem = t.mem)

/-- 40_command_lifecycle.md R132, 00_scope.md R4: ERR and the digest depend on the operand registers and on the input and key
bytes the command reads, on nothing else: not on the working registers, other memory, or earlier commands. -/
def Obligations.ResultDependsOnOperandsAndFootprintOnly : Prop :=
  ∀ (i : Instr) (s u : State), backendPresent s.hw i.backend = true → KeepsOperands s u → Memory.wf s.mem → Memory.wf u.mem →
    inputBytes u = inputBytes s → keyBytes u (keyBytesUsed i.variant) = keyBytes s (keyBytesUsed i.variant) →
    (∀ r, exec i s = .refused r ↔ exec i u = .refused r) ∧
    (∀ t, exec i s = .next t → ∃ w, exec i u = .next w ∧ w.err = t.err ∧
      (t.err = 0 → ∀ j, j < digestSize i.variant →
        Memory.read w.mem (s.outAddr.toNat + j) = Memory.read t.mem (s.outAddr.toNat + j)))

/-- 45_keyed_mixer.md R235: for a keyed multiplicative command, keys that differ in their first D bytes give different
digests. -/
def Obligations.DifferentKeysGiveDifferentDigests : Prop :=
  ∀ (i : Instr) (s u : State), i.variant = .m32k ∨ i.variant = .m128 → Memory.wf s.mem → Memory.wf u.mem →
    KeepsOperands s u → Accepted i s → inputBytes u = inputBytes s →
    keyBytes u (digestSize i.variant) ≠ keyBytes s (digestSize i.variant) →
    ∃ t w, exec i s = .next t ∧ exec i u = .next w ∧
      Memory.bytes t.mem s.outAddr.toNat (digestSize i.variant) ≠ Memory.bytes w.mem s.outAddr.toNat (digestSize i.variant)

/-! ### The parts of a digest -/

/-- 44_mult128.md R211: the block functions of the vector backends equal the byte-by-byte fold, byte j into register j mod 4. -/
def Obligations.BlockFunctionsFoldByteByByte : Prop :=
  ∀ (q : Quad) (m : Memory) (a : Nat),
    foldVn q (BitVec.ofNat 64 (Memory.readLE m a 8)) = foldLanes q 0 (Memory.bytes m a 8) ∧
    foldVa q (BitVec.ofNat 128 (Memory.readLE m a 16)) = foldLanes q 0 (Memory.bytes m a 16) ∧
    foldVb q (permute (BitVec.ofNat 128 (Memory.readLE m a 16))) = foldLanes q 0 (Memory.bytes m a 16)

/-- 44_mult128.md R209, 43_mult32.md R181: the vector step acts on each lane on its own, and the shift form is the same
function. -/
def Obligations.VectorStepActsLaneByLane : Prop :=
  ∀ (q g : Quad) (l : Fin 4),
    ((vecStep q g).get l).toNat = ((q.get l).toNat * 33 + (g.get l).toNat) % 2 ^ 32 ∧ vecStepShift q g = vecStep q g ∧
    vecStep2 q.ma g.ma = (vecStep q g).ma ∧ vecStep2 q.mb g.mb = (vecStep q g).mb

/-- 44_mult128.md R207, R208: byte 4i + t of the permuted block is byte 4t + i of the block. -/
def Obligations.PermuteMakesLaneBytesContiguous : Prop :=
  ∀ (x : Word128) (i t : Nat), i < 4 → t < 4 → byteOf (permute x) (4 * i + t) = byteOf x (4 * t + i)

/-- 42_splicer.md R162, R164: the left rotation writes ROT with K mod 4 and moves the word of register (i + ROT) mod 4 to
register i; the right rotation moves the word of register (i - ROT) mod 4 to register i and undoes it exactly. Neither
writes anything else. -/
def Obligations.RotationsPermuteLanesAndCancel : Prop :=
  ∀ s : State,
    (rotateLeft s).rot.val = s.k.toNat % 4 ∧
    (∀ i : Fin 4, (rotateLeft s).lanes.get i = s.lanes.get (i + (rotateLeft s).rot)) ∧
    (∀ j : Fin 4, (rotateLeft s).lanes.get (j - (rotateLeft s).rot) = s.lanes.get j) ∧
    rotateLeft s = { s with rot := (rotateLeft s).rot, lanes := (rotateLeft s).lanes } ∧
    (∀ i : Fin 4, (rotateRight s).lanes.get i = s.lanes.get (i - s.rot)) ∧
    rotateRight s = { s with lanes := (rotateRight s).lanes } ∧
    rotateRight (rotateLeft s) = { s with rot := (rotateLeft s).rot }

/-- 42_splicer.md R160: K is the distance from IN_ADDR to the next multiple of W, capped at IN_LEN: the address after the
prefix is the first aligned one, unless the input ends before it. K is below W, and nothing else is written. -/
def Obligations.PrefixReachesTheNextAlignedAddress : Prop :=
  ∀ (b : Backend) (s : State),
    let w := alignWidth b
    let a := s.inAddr.toNat
    let n := s.inLen.toNat
    let k := (loadK b s).k.toNat
    k = min ((w - a % w) % w) n ∧ k ≤ w - 1 ∧ k ≤ 15 ∧
    (k < n → (a + k) % w = 0) ∧ (∀ j, j < k → (a + j) % w ≠ 0) ∧ loadK b s = { s with k := (loadK b s).k }

/-- 46_siphash.md R248: the final word holds the leftover bytes from bit 0 up and the length modulo 256 in bits 56 to 63. -/
def Obligations.SipFinalWordPacksLengthAndLeftover : Prop :=
  ∀ (n : Nat) (bs : List Byte), bs.length = n % 8 →
    (sipFinalWord n (numberOfBytes bs)).toNat = n % 256 * 2 ^ 56 + numberOfBytes bs ∧
    byteOf (sipFinalWord n (numberOfBytes bs)) 7 = BitVec.ofNat 8 n ∧
    ∀ j, (h : j < bs.length) → byteOf (sipFinalWord n (numberOfBytes bs)) j = bs[j]

/-- 46_siphash.md R253, 95_test_vectors.md section 1.2: published digests, for the empty input, one byte, and 15 and 16 bytes. -/
def Obligations.SipHashGivesPublishedDigests : Prop :=
  let bytesTo (n : Nat) : List Byte := (List.range n).map (BitVec.ofNat 8)
  sipHash (bytesTo 16) (bytesTo 0) = 0x726FDB47DD0E0E31 ∧ sipHash (bytesTo 16) (bytesTo 1) = 0x74F839C593DC67FD ∧
    sipHash (bytesTo 16) (bytesTo 15) = 0xA129CA6149BE45E5 ∧ sipHash (bytesTo 16) (bytesTo 16) = 0x3F2ACC7F57C29BDB

/-- 45_keyed_mixer.md R230, R234: the mixer exclusive-ors digest byte j with key byte j for j below D, leaves the other bytes of
DG, and writes nothing but DG (and the model's access log, log 11). -/
def Obligations.MixerXorsDigestBytesWithKeyBytes : Prop :=
  ∀ (s : State) (d : Nat), d = 4 ∨ d = 16 →
    (∀ j, j < d → byteOf (mix d s).dg j = byteOf s.dg j ^^^ Memory.read s.mem (s.keyAddr.toNat + j)) ∧
    (∀ j, d ≤ j → byteOf (mix d s).dg j = byteOf s.dg j) ∧
    mix d s = { s with dg := (mix d s).dg, accesses := (mix d s).accesses }

/-- 45_keyed_mixer.md R233, 20_memory.md R62: the digest write stores byte j of DG at OUT_ADDR + j for j below D, and nothing
else. -/
def Obligations.DigestWriteStoresExactlyDBytes : Prop :=
  ∀ (s : State) (d : Nat), Memory.wf s.mem →
    (∀ j, j < d → Memory.read (digestWrite d s).mem (s.outAddr.toNat + j) = byteOf s.dg j) ∧
    sameMemoryOutside s (digestWrite d s) s.outAddr.toNat d

/-- 20_memory.md R62: a read of n bytes is the sum of the single bytes, the lowest address least significant; a write of n
bytes stores byte j of the value at the address plus j and changes no other byte, so that reading it back gives the value. -/
def Obligations.MemoryReadsBackLittleEndian : Prop :=
  ∀ (m : Memory) (a n v : Nat), Memory.wf m →
    Memory.readLE m a n = ∑ j ∈ Finset.range n, (Memory.read m (a + j)).toNat * 2 ^ (8 * j) ∧
    (∀ j, j < n → (Memory.read (Memory.writeLE m a n v) (a + j)).toNat = v / 2 ^ (8 * j) % 256) ∧
    (∀ x, x < a ∨ a + n ≤ x → Memory.read (Memory.writeLE m a n v) x = Memory.read m x) ∧
    Memory.readLE (Memory.writeLE m a n v) a n = v % 256 ^ n ∧ Memory.wf (Memory.writeLE m a n v)

/-! ### Accesses -/

/-- 20_memory.md R63, R73: the widths and the order of the accesses of a command that passes the Validator, in the model's
record of them (log 11). -/
def Obligations.CommandMakesItsAccessesInOrder : Prop :=
  ∀ (i : Instr) (s : State), Accepted i s → ∃ t, exec i s = .next t ∧ t.accesses.reverse = accessOrder i s

/-- 20_memory.md R64: every block read of a command is at a multiple of its width. -/
def Obligations.BlockReadsAreAligned : Prop :=
  ∀ (i : Instr) (s t : State), Accepted i s → exec i s = .next t →
    ∀ a w, Access.read a w ∈ t.accesses → (w = 1 ∨ w = 8 ∨ w = 16) ∧ a % w = 0

/-- 20_memory.md R65, 42_splicer.md R170: a command reads each input byte once, each key byte it uses once, writes each of its D
output bytes once, and touches no other byte; a command that fails validation touches none. -/
def Obligations.CommandTouchesItsFootprintOnce : Prop :=
  ∀ (i : Instr) (s : State),
    (Accepted i s → ∃ t, exec i s = .next t ∧ ∀ x,
      readsOf t.accesses x =
        (if s.inAddr.toNat ≤ x ∧ x < s.inAddr.toNat + s.inLen.toNat then 1 else 0) +
        (if s.keyAddr.toNat ≤ x ∧ x < s.keyAddr.toNat + keyBytesUsed i.variant then 1 else 0) ∧
      writesOf t.accesses x =
        (if s.outAddr.toNat ≤ x ∧ x < s.outAddr.toNat + digestSize i.variant then 1 else 0)) ∧
    (∀ e t, verdict i s = .code e → e ≠ .success → exec i s = .next t → t.accesses = [])

/-! ### Phase by phase -/

/-- 40_command_lifecycle.md R129, R126: a legal command issued and then run phase by phase ends, within IN_LEN + 10 engine
steps, in exactly the state that exec gives in one step. The step size is the model's (log 16). -/
def Obligations.PhasedRunReachesTheBigStep : Prop :=
  ∀ (i : Instr) (s t : State), s.pace = [] → decode s.cmd = .ok i → backendPresent s.hw i.backend = true →
    exec i s = .next t → ∃ n, n ≤ s.inLen.toNat + 10 ∧ Sys2Proof.core.run n (issueLegal i s) = .next t

/-- 40_command_lifecycle.md R130, R131: from any good state in which a command runs and the engine has every coming turn, the
command completes within a bound linear in IN_LEN, unless it is refused for a range past the top (R152). The step size is
the model's (log 16). -/
def Obligations.RunningCommandCompletes : Prop :=
  ∀ s : State, s.Inv → s.busy = true → s.pace = [] →
    ∃ n, n ≤ s.inLen.toNat + 10 ∧
      ((∃ t, Sys2Proof.core.run n s = .next t ∧ t.busy = false ∧ t.done = true) ∨
        Sys2Proof.core.run n s = .refused .rangePastTop)

/-- 10_state.md R43: every engine step of a good running state either keeps PHASE and advances POS by 1, 8 or 16, never past
IN_LEN, or moves PHASE to a later one of the command's order; a failed validation goes from VALIDATE to IDLE. -/
def Obligations.EngineStepsOnlyMoveForward : Prop :=
  ∀ (s t : State) (i : Instr), s.Inv → s.busy = true → decode s.cmd = .ok i → engineStep s = .next t →
    (t.phase = s.phase ∧ t.pos.toNat ≤ t.inLen.toNat ∧
      (t.pos.toNat = s.pos.toNat + 1 ∨ t.pos.toNat = s.pos.toNat + 8 ∨ t.pos.toNat = s.pos.toNat + 16)) ∨
    (∃ front back, phaseOrder i = front ++ s.phase :: t.phase :: back) ∨
    (s.phase = .validate ∧ t.phase = .idle ∧ t.err ≠ 0)

/-! ### Invariants and whole-machine rules -/

/-- The state right after reset is a good state. -/
def Obligations.ResetStateIsGood : Prop := State.reset.Inv

/-- 10_state.md R22 to R31, R38, R42, 20_memory.md R60, 42_splicer.md R160 to R165: every step from a good state that answers a
next state answers a good one. -/
def Obligations.StepKeepsGoodStates : Prop :=
  ∀ s t : State, s.Inv → step s = .next t → t.Inv

/-- 60_exceptions.md R270: a good state never reaches the fault of an inconsistent engine; a step stops only at a host access
outside the address space, at a range past the top, or at the host's breach of its buffer duty. -/
def Obligations.GoodStatesStopOnlyByTheNamedReasons : Prop :=
  ∀ s : State, s.Inv → step s ≠ .fault .inconsistent ∧ (∀ m, step s ≠ .refused (.notModelled m)) ∧
    (∀ a, step s = .fault (.outsideAddressSpace a) → 2 ^ s.hw.aw.bits ≤ a)

/-- 10_state.md R25, 00_scope.md R6, R9: no step changes the parameters of the hardware, so none changes CAP. -/
def Obligations.StepKeepsTheParameters : Prop :=
  ∀ s t : State, step s = .next t → t.hw = s.hw ∧ readReg t 3 = readReg s 3

/-- 10_state.md R24: ERR is written only at the completion of a legal command, or by reset. -/
def Obligations.ErrChangesOnlyAtCompletionOrReset : Prop :=
  ∀ s t : State, step s = .next t → t.err ≠ s.err →
    (t.done = true ∧ t.busy = false ∧ t.phase = .idle ∧ ∃ e : ErrorCode, t.err = e.word) ∨
    (∃ ops, s.host = .reset :: ops ∧ t.err = 0)

/-- 20_memory.md R67, 45_keyed_mixer.md R233, 70_reset_and_hazards.md R302: a byte of memory changes only by a host store to it,
by the digest write of a command that completes with ERR 0, or by a reset that cuts off a digest write; the last two change
output bytes only. That a reset cuts off a digest write in phase WRITE and in no other is the model's reading of R302
(log 6). -/
def Obligations.MemoryChangesOnlyByDigestStoreOrReset : Prop :=
  ∀ (s t : State) (x : Nat), step s = .next t → Memory.read t.mem x ≠ Memory.read s.mem x →
    (∃ b ops, s.host = .store x b :: ops) ∨
    (∃ i, decode t.cmd = .ok i ∧ t.done = true ∧ t.err = 0 ∧ t.outAddr = s.outAddr ∧ s.outAddr.toNat ≤ x ∧
      x < s.outAddr.toNat + digestSize i.variant) ∨
    (∃ i ops, s.host = .reset :: ops ∧ s.busy = true ∧ s.phase = .write ∧ decode s.cmd = .ok i ∧ s.outAddr.toNat ≤ x ∧
      x < s.outAddr.toNat + digestSize i.variant)

/-- 10_state.md R26 to R31, 40_command_lifecycle.md R128: CMD and the operand registers change only by a host WR at an idle
engine, or by reset; in particular never under a running command. -/
def Obligations.OperandsChangeOnlyByIdleWriteOrReset : Prop :=
  ∀ s t : State, step s = .next t →
    KeepsOperands s t ∨ (s.busy = false ∧ ∃ index v ops, s.host = .wr index v :: ops) ∨ (∃ ops, s.host = .reset :: ops)

/-- 20_memory.md R76, 70_reset_and_hazards.md R306: from every good state in which an accepted command runs, a host store to its
input, used key or output bytes, or a host load of its output bytes, is refused (log 9). -/
def Obligations.RunningFootprintIsGuarded : Prop :=
  ∀ (i : Instr) (s : State) (a : Nat) (b : Byte), s.Inv → s.busy = true → decode s.cmd = .ok i → Accepted i s →
    a < 2 ^ s.hw.aw.bits →
    let inInput := s.inAddr.toNat ≤ a ∧ a < s.inAddr.toNat + s.inLen.toNat
    let inKey := s.keyAddr.toNat ≤ a ∧ a < s.keyAddr.toNat + keyBytesUsed i.variant
    let inOutput := s.outAddr.toNat ≤ a ∧ a < s.outAddr.toNat + digestSize i.variant
    (inInput ∨ inKey ∨ inOutput → hostOp (.store a b) s = .refused .bufferTouched) ∧
    (inOutput → hostOp (.load a) s = .refused .bufferTouched)

/-- 20_memory.md R76, R60, 70_reset_and_hazards.md R307: in every state, running or not, a host store to a byte of an awaited
footprint, or a host load of one of its output bytes, is refused (log 9); every other store and load in the address space is
done and changes one byte, or what the host has read. Which footprints are awaited, AwaitedEndsAtTheReadOfDone says
(log 24). -/
def Obligations.AwaitedFootprintIsGuarded : Prop :=
  ∀ (s : State) (a : Nat) (b : Byte), a < 2 ^ s.hw.aw.bits →
    let inOutput := ∃ f ∈ s.awaited, f.outAddr ≤ a ∧ a < f.outAddr + f.outLen
    let inInput := ∃ f ∈ s.awaited, f.inAddr ≤ a ∧ a < f.inAddr + f.inLen
    let inKey := ∃ f ∈ s.awaited, f.keyAddr ≤ a ∧ a < f.keyAddr + f.keyLen
    (inInput ∨ inKey ∨ inOutput → hostOp (.store a b) s = .refused .bufferTouched) ∧
    (¬ (inInput ∨ inKey ∨ inOutput) → hostOp (.store a b) s = .next { s with mem := Memory.write s.mem a b }) ∧
    (inOutput → hostOp (.load a) s = .refused .bufferTouched) ∧
    (¬ inOutput → hostOp (.load a) s = .next { s with hostData := (Memory.read s.mem a).setWidth 64 })

/-- 20_memory.md R76 (3): the host's duty for a command begins with the WR of CMD that issues it and ends with the RD of STATUS
that returns DONE = 1, or with reset (the model's record of it, log 24): an idle engine's WR of the word of an accepted command
puts its footprint in front, and of one that is not accepted nothing; such a read (WAIT's polls are reads of STATUS) and reset
take all of them away; a read of STATUS with DONE = 0 takes none; and no step changes them in any other way. -/
def Obligations.AwaitedEndsAtTheReadOfDone : Prop :=
  ∀ s : State,
    (∀ i v, s.busy = false → decode (BitVec.ofNat 32 v) = .ok i →
      (Accepted i s → ∃ t, hostOp (.wr 0 v) s = .next t ∧ t.awaited = footprint i s :: s.awaited) ∧
      (¬ Accepted i s → ∀ t, hostOp (.wr 0 v) s = .next t → t.awaited = s.awaited)) ∧
    (∀ op, op = .rd 1 ∨ op = .wait →
      ∃ t, hostOp op s = .next t ∧ t.awaited = if s.done = true then [] else s.awaited) ∧
    (∃ t, hostOp .reset s = .next t ∧ t.awaited = []) ∧
    ∀ t, step s = .next t →
      t.awaited = s.awaited ∨
      (∃ i v ops, s.busy = false ∧ s.host = .wr 0 v :: ops ∧ decode (BitVec.ofNat 32 v) = .ok i ∧ Accepted i s ∧
        t.awaited = footprint i s :: s.awaited) ∨
      (t.awaited = [] ∧ ∃ op ops, s.host = op :: ops ∧ ((op = .rd 1 ∨ op = .wait) ∧ s.done = true ∨ op = .reset))
end

