-- ==== Sys2Proof/Laws/State.lean ====
section
/-! SUPPORT. What each named operation leaves alone, one lemma a field, and what it writes (true by unfolding). -/

namespace Sys2Proof.Machine

variable (s : State)

/-! `issueIllegal` writes status, accesses only. -/

@[simp] theorem issueIllegal_hw : (issueIllegal s).hw = s.hw := rfl
@[simp] theorem issueIllegal_cmd : (issueIllegal s).cmd = s.cmd := rfl
@[simp] theorem issueIllegal_err : (issueIllegal s).err = s.err := rfl
@[simp] theorem issueIllegal_inAddr : (issueIllegal s).inAddr = s.inAddr := rfl
@[simp] theorem issueIllegal_inLen : (issueIllegal s).inLen = s.inLen := rfl
@[simp] theorem issueIllegal_keyAddr : (issueIllegal s).keyAddr = s.keyAddr := rfl
@[simp] theorem issueIllegal_keyLen : (issueIllegal s).keyLen = s.keyLen := rfl
@[simp] theorem issueIllegal_outAddr : (issueIllegal s).outAddr = s.outAddr := rfl
@[simp] theorem issueIllegal_outCap : (issueIllegal s).outCap = s.outCap := rfl
@[simp] theorem issueIllegal_lanes : (issueIllegal s).lanes = s.lanes := rfl
@[simp] theorem issueIllegal_lane : (issueIllegal s).lane = s.lane := rfl
@[simp] theorem issueIllegal_k : (issueIllegal s).k = s.k := rfl
@[simp] theorem issueIllegal_rot : (issueIllegal s).rot = s.rot := rfl
@[simp] theorem issueIllegal_pos : (issueIllegal s).pos = s.pos := rfl
@[simp] theorem issueIllegal_x : (issueIllegal s).x = s.x := rfl
@[simp] theorem issueIllegal_p : (issueIllegal s).p = s.p := rfl
@[simp] theorem issueIllegal_g : (issueIllegal s).g = s.g := rfl
@[simp] theorem issueIllegal_v : (issueIllegal s).v = s.v := rfl
@[simp] theorem issueIllegal_k0 : (issueIllegal s).k0 = s.k0 := rfl
@[simp] theorem issueIllegal_k1 : (issueIllegal s).k1 = s.k1 := rfl
@[simp] theorem issueIllegal_mw : (issueIllegal s).mw = s.mw := rfl
@[simp] theorem issueIllegal_phase : (issueIllegal s).phase = s.phase := rfl
@[simp] theorem issueIllegal_dg : (issueIllegal s).dg = s.dg := rfl
@[simp] theorem issueIllegal_mem : (issueIllegal s).mem = s.mem := rfl
@[simp] theorem issueIllegal_host : (issueIllegal s).host = s.host := rfl
@[simp] theorem issueIllegal_pace : (issueIllegal s).pace = s.pace := rfl
@[simp] theorem issueIllegal_hostData : (issueIllegal s).hostData = s.hostData := rfl
@[simp] theorem issueIllegal_free : (issueIllegal s).free = s.free := rfl
@[simp] theorem issueIllegal_awaited : (issueIllegal s).awaited = s.awaited := rfl

/-! `issueLegal` writes status, phase, accesses, awaited only. -/

@[simp] theorem issueLegal_hw (i : Instr) : (issueLegal i s).hw = s.hw := rfl
@[simp] theorem issueLegal_cmd (i : Instr) : (issueLegal i s).cmd = s.cmd := rfl
@[simp] theorem issueLegal_err (i : Instr) : (issueLegal i s).err = s.err := rfl
@[simp] theorem issueLegal_inAddr (i : Instr) : (issueLegal i s).inAddr = s.inAddr := rfl
@[simp] theorem issueLegal_inLen (i : Instr) : (issueLegal i s).inLen = s.inLen := rfl
@[simp] theorem issueLegal_keyAddr (i : Instr) : (issueLegal i s).keyAddr = s.keyAddr := rfl
@[simp] theorem issueLegal_keyLen (i : Instr) : (issueLegal i s).keyLen = s.keyLen := rfl
@[simp] theorem issueLegal_outAddr (i : Instr) : (issueLegal i s).outAddr = s.outAddr := rfl
@[simp] theorem issueLegal_outCap (i : Instr) : (issueLegal i s).outCap = s.outCap := rfl
@[simp] theorem issueLegal_lanes (i : Instr) : (issueLegal i s).lanes = s.lanes := rfl
@[simp] theorem issueLegal_lane (i : Instr) : (issueLegal i s).lane = s.lane := rfl
@[simp] theorem issueLegal_k (i : Instr) : (issueLegal i s).k = s.k := rfl
@[simp] theorem issueLegal_rot (i : Instr) : (issueLegal i s).rot = s.rot := rfl
@[simp] theorem issueLegal_pos (i : Instr) : (issueLegal i s).pos = s.pos := rfl
@[simp] theorem issueLegal_x (i : Instr) : (issueLegal i s).x = s.x := rfl
@[simp] theorem issueLegal_p (i : Instr) : (issueLegal i s).p = s.p := rfl
@[simp] theorem issueLegal_g (i : Instr) : (issueLegal i s).g = s.g := rfl
@[simp] theorem issueLegal_v (i : Instr) : (issueLegal i s).v = s.v := rfl
@[simp] theorem issueLegal_k0 (i : Instr) : (issueLegal i s).k0 = s.k0 := rfl
@[simp] theorem issueLegal_k1 (i : Instr) : (issueLegal i s).k1 = s.k1 := rfl
@[simp] theorem issueLegal_mw (i : Instr) : (issueLegal i s).mw = s.mw := rfl
@[simp] theorem issueLegal_dg (i : Instr) : (issueLegal i s).dg = s.dg := rfl
@[simp] theorem issueLegal_mem (i : Instr) : (issueLegal i s).mem = s.mem := rfl
@[simp] theorem issueLegal_host (i : Instr) : (issueLegal i s).host = s.host := rfl
@[simp] theorem issueLegal_pace (i : Instr) : (issueLegal i s).pace = s.pace := rfl
@[simp] theorem issueLegal_hostData (i : Instr) : (issueLegal i s).hostData = s.hostData := rfl
@[simp] theorem issueLegal_free (i : Instr) : (issueLegal i s).free = s.free := rfl

/-! `complete` writes err, status, phase only. -/

@[simp] theorem complete_hw (e : ErrorCode) : (complete e s).hw = s.hw := rfl
@[simp] theorem complete_cmd (e : ErrorCode) : (complete e s).cmd = s.cmd := rfl
@[simp] theorem complete_inAddr (e : ErrorCode) : (complete e s).inAddr = s.inAddr := rfl
@[simp] theorem complete_inLen (e : ErrorCode) : (complete e s).inLen = s.inLen := rfl
@[simp] theorem complete_keyAddr (e : ErrorCode) : (complete e s).keyAddr = s.keyAddr := rfl
@[simp] theorem complete_keyLen (e : ErrorCode) : (complete e s).keyLen = s.keyLen := rfl
@[simp] theorem complete_outAddr (e : ErrorCode) : (complete e s).outAddr = s.outAddr := rfl
@[simp] theorem complete_outCap (e : ErrorCode) : (complete e s).outCap = s.outCap := rfl
@[simp] theorem complete_lanes (e : ErrorCode) : (complete e s).lanes = s.lanes := rfl
@[simp] theorem complete_lane (e : ErrorCode) : (complete e s).lane = s.lane := rfl
@[simp] theorem complete_k (e : ErrorCode) : (complete e s).k = s.k := rfl
@[simp] theorem complete_rot (e : ErrorCode) : (complete e s).rot = s.rot := rfl
@[simp] theorem complete_pos (e : ErrorCode) : (complete e s).pos = s.pos := rfl
@[simp] theorem complete_x (e : ErrorCode) : (complete e s).x = s.x := rfl
@[simp] theorem complete_p (e : ErrorCode) : (complete e s).p = s.p := rfl
@[simp] theorem complete_g (e : ErrorCode) : (complete e s).g = s.g := rfl
@[simp] theorem complete_v (e : ErrorCode) : (complete e s).v = s.v := rfl
@[simp] theorem complete_k0 (e : ErrorCode) : (complete e s).k0 = s.k0 := rfl
@[simp] theorem complete_k1 (e : ErrorCode) : (complete e s).k1 = s.k1 := rfl
@[simp] theorem complete_mw (e : ErrorCode) : (complete e s).mw = s.mw := rfl
@[simp] theorem complete_dg (e : ErrorCode) : (complete e s).dg = s.dg := rfl
@[simp] theorem complete_mem (e : ErrorCode) : (complete e s).mem = s.mem := rfl
@[simp] theorem complete_host (e : ErrorCode) : (complete e s).host = s.host := rfl
@[simp] theorem complete_pace (e : ErrorCode) : (complete e s).pace = s.pace := rfl
@[simp] theorem complete_hostData (e : ErrorCode) : (complete e s).hostData = s.hostData := rfl
@[simp] theorem complete_free (e : ErrorCode) : (complete e s).free = s.free := rfl
@[simp] theorem complete_awaited (e : ErrorCode) : (complete e s).awaited = s.awaited := rfl
@[simp] theorem complete_accesses (e : ErrorCode) : (complete e s).accesses = s.accesses := rfl

/-! `mix` writes dg, accesses only. -/

@[simp] theorem mix_hw (d : Nat) : (mix d s).hw = s.hw := rfl
@[simp] theorem mix_cmd (d : Nat) : (mix d s).cmd = s.cmd := rfl
@[simp] theorem mix_status (d : Nat) : (mix d s).status = s.status := rfl
@[simp] theorem mix_err (d : Nat) : (mix d s).err = s.err := rfl
@[simp] theorem mix_inAddr (d : Nat) : (mix d s).inAddr = s.inAddr := rfl
@[simp] theorem mix_inLen (d : Nat) : (mix d s).inLen = s.inLen := rfl
@[simp] theorem mix_keyAddr (d : Nat) : (mix d s).keyAddr = s.keyAddr := rfl
@[simp] theorem mix_keyLen (d : Nat) : (mix d s).keyLen = s.keyLen := rfl
@[simp] theorem mix_outAddr (d : Nat) : (mix d s).outAddr = s.outAddr := rfl
@[simp] theorem mix_outCap (d : Nat) : (mix d s).outCap = s.outCap := rfl
@[simp] theorem mix_lanes (d : Nat) : (mix d s).lanes = s.lanes := rfl
@[simp] theorem mix_lane (d : Nat) : (mix d s).lane = s.lane := rfl
@[simp] theorem mix_k (d : Nat) : (mix d s).k = s.k := rfl
@[simp] theorem mix_rot (d : Nat) : (mix d s).rot = s.rot := rfl
@[simp] theorem mix_pos (d : Nat) : (mix d s).pos = s.pos := rfl
@[simp] theorem mix_x (d : Nat) : (mix d s).x = s.x := rfl
@[simp] theorem mix_p (d : Nat) : (mix d s).p = s.p := rfl
@[simp] theorem mix_g (d : Nat) : (mix d s).g = s.g := rfl
@[simp] theorem mix_v (d : Nat) : (mix d s).v = s.v := rfl
@[simp] theorem mix_k0 (d : Nat) : (mix d s).k0 = s.k0 := rfl
@[simp] theorem mix_k1 (d : Nat) : (mix d s).k1 = s.k1 := rfl
@[simp] theorem mix_mw (d : Nat) : (mix d s).mw = s.mw := rfl
@[simp] theorem mix_phase (d : Nat) : (mix d s).phase = s.phase := rfl
@[simp] theorem mix_mem (d : Nat) : (mix d s).mem = s.mem := rfl
@[simp] theorem mix_host (d : Nat) : (mix d s).host = s.host := rfl
@[simp] theorem mix_pace (d : Nat) : (mix d s).pace = s.pace := rfl
@[simp] theorem mix_hostData (d : Nat) : (mix d s).hostData = s.hostData := rfl
@[simp] theorem mix_free (d : Nat) : (mix d s).free = s.free := rfl
@[simp] theorem mix_awaited (d : Nat) : (mix d s).awaited = s.awaited := rfl

/-! `digestWrite` writes mem, accesses only. -/

@[simp] theorem digestWrite_hw (d : Nat) : (digestWrite d s).hw = s.hw := rfl
@[simp] theorem digestWrite_cmd (d : Nat) : (digestWrite d s).cmd = s.cmd := rfl
@[simp] theorem digestWrite_status (d : Nat) : (digestWrite d s).status = s.status := rfl
@[simp] theorem digestWrite_err (d : Nat) : (digestWrite d s).err = s.err := rfl
@[simp] theorem digestWrite_inAddr (d : Nat) : (digestWrite d s).inAddr = s.inAddr := rfl
@[simp] theorem digestWrite_inLen (d : Nat) : (digestWrite d s).inLen = s.inLen := rfl
@[simp] theorem digestWrite_keyAddr (d : Nat) : (digestWrite d s).keyAddr = s.keyAddr := rfl
@[simp] theorem digestWrite_keyLen (d : Nat) : (digestWrite d s).keyLen = s.keyLen := rfl
@[simp] theorem digestWrite_outAddr (d : Nat) : (digestWrite d s).outAddr = s.outAddr := rfl
@[simp] theorem digestWrite_outCap (d : Nat) : (digestWrite d s).outCap = s.outCap := rfl
@[simp] theorem digestWrite_lanes (d : Nat) : (digestWrite d s).lanes = s.lanes := rfl
@[simp] theorem digestWrite_lane (d : Nat) : (digestWrite d s).lane = s.lane := rfl
@[simp] theorem digestWrite_k (d : Nat) : (digestWrite d s).k = s.k := rfl
@[simp] theorem digestWrite_rot (d : Nat) : (digestWrite d s).rot = s.rot := rfl
@[simp] theorem digestWrite_pos (d : Nat) : (digestWrite d s).pos = s.pos := rfl
@[simp] theorem digestWrite_x (d : Nat) : (digestWrite d s).x = s.x := rfl
@[simp] theorem digestWrite_p (d : Nat) : (digestWrite d s).p = s.p := rfl
@[simp] theorem digestWrite_g (d : Nat) : (digestWrite d s).g = s.g := rfl
@[simp] theorem digestWrite_v (d : Nat) : (digestWrite d s).v = s.v := rfl
@[simp] theorem digestWrite_k0 (d : Nat) : (digestWrite d s).k0 = s.k0 := rfl
@[simp] theorem digestWrite_k1 (d : Nat) : (digestWrite d s).k1 = s.k1 := rfl
@[simp] theorem digestWrite_mw (d : Nat) : (digestWrite d s).mw = s.mw := rfl
@[simp] theorem digestWrite_phase (d : Nat) : (digestWrite d s).phase = s.phase := rfl
@[simp] theorem digestWrite_dg (d : Nat) : (digestWrite d s).dg = s.dg := rfl
@[simp] theorem digestWrite_host (d : Nat) : (digestWrite d s).host = s.host := rfl
@[simp] theorem digestWrite_pace (d : Nat) : (digestWrite d s).pace = s.pace := rfl
@[simp] theorem digestWrite_hostData (d : Nat) : (digestWrite d s).hostData = s.hostData := rfl
@[simp] theorem digestWrite_free (d : Nat) : (digestWrite d s).free = s.free := rfl
@[simp] theorem digestWrite_awaited (d : Nat) : (digestWrite d s).awaited = s.awaited := rfl

/-! `loadK` writes k only. -/

@[simp] theorem loadK_hw (b : Backend) : (loadK b s).hw = s.hw := rfl
@[simp] theorem loadK_cmd (b : Backend) : (loadK b s).cmd = s.cmd := rfl
@[simp] theorem loadK_status (b : Backend) : (loadK b s).status = s.status := rfl
@[simp] theorem loadK_err (b : Backend) : (loadK b s).err = s.err := rfl
@[simp] theorem loadK_inAddr (b : Backend) : (loadK b s).inAddr = s.inAddr := rfl
@[simp] theorem loadK_inLen (b : Backend) : (loadK b s).inLen = s.inLen := rfl
@[simp] theorem loadK_keyAddr (b : Backend) : (loadK b s).keyAddr = s.keyAddr := rfl
@[simp] theorem loadK_keyLen (b : Backend) : (loadK b s).keyLen = s.keyLen := rfl
@[simp] theorem loadK_outAddr (b : Backend) : (loadK b s).outAddr = s.outAddr := rfl
@[simp] theorem loadK_outCap (b : Backend) : (loadK b s).outCap = s.outCap := rfl
@[simp] theorem loadK_lanes (b : Backend) : (loadK b s).lanes = s.lanes := rfl
@[simp] theorem loadK_lane (b : Backend) : (loadK b s).lane = s.lane := rfl
@[simp] theorem loadK_rot (b : Backend) : (loadK b s).rot = s.rot := rfl
@[simp] theorem loadK_pos (b : Backend) : (loadK b s).pos = s.pos := rfl
@[simp] theorem loadK_x (b : Backend) : (loadK b s).x = s.x := rfl
@[simp] theorem loadK_p (b : Backend) : (loadK b s).p = s.p := rfl
@[simp] theorem loadK_g (b : Backend) : (loadK b s).g = s.g := rfl
@[simp] theorem loadK_v (b : Backend) : (loadK b s).v = s.v := rfl
@[simp] theorem loadK_k0 (b : Backend) : (loadK b s).k0 = s.k0 := rfl
@[simp] theorem loadK_k1 (b : Backend) : (loadK b s).k1 = s.k1 := rfl
@[simp] theorem loadK_mw (b : Backend) : (loadK b s).mw = s.mw := rfl
@[simp] theorem loadK_phase (b : Backend) : (loadK b s).phase = s.phase := rfl
@[simp] theorem loadK_dg (b : Backend) : (loadK b s).dg = s.dg := rfl
@[simp] theorem loadK_mem (b : Backend) : (loadK b s).mem = s.mem := rfl
@[simp] theorem loadK_host (b : Backend) : (loadK b s).host = s.host := rfl
@[simp] theorem loadK_pace (b : Backend) : (loadK b s).pace = s.pace := rfl
@[simp] theorem loadK_hostData (b : Backend) : (loadK b s).hostData = s.hostData := rfl
@[simp] theorem loadK_free (b : Backend) : (loadK b s).free = s.free := rfl
@[simp] theorem loadK_awaited (b : Backend) : (loadK b s).awaited = s.awaited := rfl
@[simp] theorem loadK_accesses (b : Backend) : (loadK b s).accesses = s.accesses := rfl

/-! `laneStep` writes lanes, lane, pos, accesses only. -/

@[simp] theorem laneStep_hw : (laneStep s).hw = s.hw := rfl
@[simp] theorem laneStep_cmd : (laneStep s).cmd = s.cmd := rfl
@[simp] theorem laneStep_status : (laneStep s).status = s.status := rfl
@[simp] theorem laneStep_err : (laneStep s).err = s.err := rfl
@[simp] theorem laneStep_inAddr : (laneStep s).inAddr = s.inAddr := rfl
@[simp] theorem laneStep_inLen : (laneStep s).inLen = s.inLen := rfl
@[simp] theorem laneStep_keyAddr : (laneStep s).keyAddr = s.keyAddr := rfl
@[simp] theorem laneStep_keyLen : (laneStep s).keyLen = s.keyLen := rfl
@[simp] theorem laneStep_outAddr : (laneStep s).outAddr = s.outAddr := rfl
@[simp] theorem laneStep_outCap : (laneStep s).outCap = s.outCap := rfl
@[simp] theorem laneStep_k : (laneStep s).k = s.k := rfl
@[simp] theorem laneStep_rot : (laneStep s).rot = s.rot := rfl
@[simp] theorem laneStep_x : (laneStep s).x = s.x := rfl
@[simp] theorem laneStep_p : (laneStep s).p = s.p := rfl
@[simp] theorem laneStep_g : (laneStep s).g = s.g := rfl
@[simp] theorem laneStep_v : (laneStep s).v = s.v := rfl
@[simp] theorem laneStep_k0 : (laneStep s).k0 = s.k0 := rfl
@[simp] theorem laneStep_k1 : (laneStep s).k1 = s.k1 := rfl
@[simp] theorem laneStep_mw : (laneStep s).mw = s.mw := rfl
@[simp] theorem laneStep_phase : (laneStep s).phase = s.phase := rfl
@[simp] theorem laneStep_dg : (laneStep s).dg = s.dg := rfl
@[simp] theorem laneStep_mem : (laneStep s).mem = s.mem := rfl
@[simp] theorem laneStep_host : (laneStep s).host = s.host := rfl
@[simp] theorem laneStep_pace : (laneStep s).pace = s.pace := rfl
@[simp] theorem laneStep_hostData : (laneStep s).hostData = s.hostData := rfl
@[simp] theorem laneStep_free : (laneStep s).free = s.free := rfl
@[simp] theorem laneStep_awaited : (laneStep s).awaited = s.awaited := rfl

/-! `accStep` writes lanes, pos, accesses only. -/

@[simp] theorem accStep_hw : (accStep s).hw = s.hw := rfl
@[simp] theorem accStep_cmd : (accStep s).cmd = s.cmd := rfl
@[simp] theorem accStep_status : (accStep s).status = s.status := rfl
@[simp] theorem accStep_err : (accStep s).err = s.err := rfl
@[simp] theorem accStep_inAddr : (accStep s).inAddr = s.inAddr := rfl
@[simp] theorem accStep_inLen : (accStep s).inLen = s.inLen := rfl
@[simp] theorem accStep_keyAddr : (accStep s).keyAddr = s.keyAddr := rfl
@[simp] theorem accStep_keyLen : (accStep s).keyLen = s.keyLen := rfl
@[simp] theorem accStep_outAddr : (accStep s).outAddr = s.outAddr := rfl
@[simp] theorem accStep_outCap : (accStep s).outCap = s.outCap := rfl
@[simp] theorem accStep_lane : (accStep s).lane = s.lane := rfl
@[simp] theorem accStep_k : (accStep s).k = s.k := rfl
@[simp] theorem accStep_rot : (accStep s).rot = s.rot := rfl
@[simp] theorem accStep_x : (accStep s).x = s.x := rfl
@[simp] theorem accStep_p : (accStep s).p = s.p := rfl
@[simp] theorem accStep_g : (accStep s).g = s.g := rfl
@[simp] theorem accStep_v : (accStep s).v = s.v := rfl
@[simp] theorem accStep_k0 : (accStep s).k0 = s.k0 := rfl
@[simp] theorem accStep_k1 : (accStep s).k1 = s.k1 := rfl
@[simp] theorem accStep_mw : (accStep s).mw = s.mw := rfl
@[simp] theorem accStep_phase : (accStep s).phase = s.phase := rfl
@[simp] theorem accStep_dg : (accStep s).dg = s.dg := rfl
@[simp] theorem accStep_mem : (accStep s).mem = s.mem := rfl
@[simp] theorem accStep_host : (accStep s).host = s.host := rfl
@[simp] theorem accStep_pace : (accStep s).pace = s.pace := rfl
@[simp] theorem accStep_hostData : (accStep s).hostData = s.hostData := rfl
@[simp] theorem accStep_free : (accStep s).free = s.free := rfl
@[simp] theorem accStep_awaited : (accStep s).awaited = s.awaited := rfl

/-! `rotateLeft` writes rot, lanes only. -/

@[simp] theorem rotateLeft_hw : (rotateLeft s).hw = s.hw := rfl
@[simp] theorem rotateLeft_cmd : (rotateLeft s).cmd = s.cmd := rfl
@[simp] theorem rotateLeft_status : (rotateLeft s).status = s.status := rfl
@[simp] theorem rotateLeft_err : (rotateLeft s).err = s.err := rfl
@[simp] theorem rotateLeft_inAddr : (rotateLeft s).inAddr = s.inAddr := rfl
@[simp] theorem rotateLeft_inLen : (rotateLeft s).inLen = s.inLen := rfl
@[simp] theorem rotateLeft_keyAddr : (rotateLeft s).keyAddr = s.keyAddr := rfl
@[simp] theorem rotateLeft_keyLen : (rotateLeft s).keyLen = s.keyLen := rfl
@[simp] theorem rotateLeft_outAddr : (rotateLeft s).outAddr = s.outAddr := rfl
@[simp] theorem rotateLeft_outCap : (rotateLeft s).outCap = s.outCap := rfl
@[simp] theorem rotateLeft_lane : (rotateLeft s).lane = s.lane := rfl
@[simp] theorem rotateLeft_k : (rotateLeft s).k = s.k := rfl
@[simp] theorem rotateLeft_pos : (rotateLeft s).pos = s.pos := rfl
@[simp] theorem rotateLeft_x : (rotateLeft s).x = s.x := rfl
@[simp] theorem rotateLeft_p : (rotateLeft s).p = s.p := rfl
@[simp] theorem rotateLeft_g : (rotateLeft s).g = s.g := rfl
@[simp] theorem rotateLeft_v : (rotateLeft s).v = s.v := rfl
@[simp] theorem rotateLeft_k0 : (rotateLeft s).k0 = s.k0 := rfl
@[simp] theorem rotateLeft_k1 : (rotateLeft s).k1 = s.k1 := rfl
@[simp] theorem rotateLeft_mw : (rotateLeft s).mw = s.mw := rfl
@[simp] theorem rotateLeft_phase : (rotateLeft s).phase = s.phase := rfl
@[simp] theorem rotateLeft_dg : (rotateLeft s).dg = s.dg := rfl
@[simp] theorem rotateLeft_mem : (rotateLeft s).mem = s.mem := rfl
@[simp] theorem rotateLeft_host : (rotateLeft s).host = s.host := rfl
@[simp] theorem rotateLeft_pace : (rotateLeft s).pace = s.pace := rfl
@[simp] theorem rotateLeft_hostData : (rotateLeft s).hostData = s.hostData := rfl
@[simp] theorem rotateLeft_free : (rotateLeft s).free = s.free := rfl
@[simp] theorem rotateLeft_awaited : (rotateLeft s).awaited = s.awaited := rfl
@[simp] theorem rotateLeft_accesses : (rotateLeft s).accesses = s.accesses := rfl

/-! `rotateRight` writes lanes only. -/

@[simp] theorem rotateRight_hw : (rotateRight s).hw = s.hw := rfl
@[simp] theorem rotateRight_cmd : (rotateRight s).cmd = s.cmd := rfl
@[simp] theorem rotateRight_status : (rotateRight s).status = s.status := rfl
@[simp] theorem rotateRight_err : (rotateRight s).err = s.err := rfl
@[simp] theorem rotateRight_inAddr : (rotateRight s).inAddr = s.inAddr := rfl
@[simp] theorem rotateRight_inLen : (rotateRight s).inLen = s.inLen := rfl
@[simp] theorem rotateRight_keyAddr : (rotateRight s).keyAddr = s.keyAddr := rfl
@[simp] theorem rotateRight_keyLen : (rotateRight s).keyLen = s.keyLen := rfl
@[simp] theorem rotateRight_outAddr : (rotateRight s).outAddr = s.outAddr := rfl
@[simp] theorem rotateRight_outCap : (rotateRight s).outCap = s.outCap := rfl
@[simp] theorem rotateRight_lane : (rotateRight s).lane = s.lane := rfl
@[simp] theorem rotateRight_k : (rotateRight s).k = s.k := rfl
@[simp] theorem rotateRight_rot : (rotateRight s).rot = s.rot := rfl
@[simp] theorem rotateRight_pos : (rotateRight s).pos = s.pos := rfl
@[simp] theorem rotateRight_x : (rotateRight s).x = s.x := rfl
@[simp] theorem rotateRight_p : (rotateRight s).p = s.p := rfl
@[simp] theorem rotateRight_g : (rotateRight s).g = s.g := rfl
@[simp] theorem rotateRight_v : (rotateRight s).v = s.v := rfl
@[simp] theorem rotateRight_k0 : (rotateRight s).k0 = s.k0 := rfl
@[simp] theorem rotateRight_k1 : (rotateRight s).k1 = s.k1 := rfl
@[simp] theorem rotateRight_mw : (rotateRight s).mw = s.mw := rfl
@[simp] theorem rotateRight_phase : (rotateRight s).phase = s.phase := rfl
@[simp] theorem rotateRight_dg : (rotateRight s).dg = s.dg := rfl
@[simp] theorem rotateRight_mem : (rotateRight s).mem = s.mem := rfl
@[simp] theorem rotateRight_host : (rotateRight s).host = s.host := rfl
@[simp] theorem rotateRight_pace : (rotateRight s).pace = s.pace := rfl
@[simp] theorem rotateRight_hostData : (rotateRight s).hostData = s.hostData := rfl
@[simp] theorem rotateRight_free : (rotateRight s).free = s.free := rfl
@[simp] theorem rotateRight_awaited : (rotateRight s).awaited = s.awaited := rfl
@[simp] theorem rotateRight_accesses : (rotateRight s).accesses = s.accesses := rfl

/-! `initAcc` writes lanes, pos only. -/

@[simp] theorem initAcc_hw : (initAcc s).hw = s.hw := rfl
@[simp] theorem initAcc_cmd : (initAcc s).cmd = s.cmd := rfl
@[simp] theorem initAcc_status : (initAcc s).status = s.status := rfl
@[simp] theorem initAcc_err : (initAcc s).err = s.err := rfl
@[simp] theorem initAcc_inAddr : (initAcc s).inAddr = s.inAddr := rfl
@[simp] theorem initAcc_inLen : (initAcc s).inLen = s.inLen := rfl
@[simp] theorem initAcc_keyAddr : (initAcc s).keyAddr = s.keyAddr := rfl
@[simp] theorem initAcc_keyLen : (initAcc s).keyLen = s.keyLen := rfl
@[simp] theorem initAcc_outAddr : (initAcc s).outAddr = s.outAddr := rfl
@[simp] theorem initAcc_outCap : (initAcc s).outCap = s.outCap := rfl
@[simp] theorem initAcc_lane : (initAcc s).lane = s.lane := rfl
@[simp] theorem initAcc_k : (initAcc s).k = s.k := rfl
@[simp] theorem initAcc_rot : (initAcc s).rot = s.rot := rfl
@[simp] theorem initAcc_x : (initAcc s).x = s.x := rfl
@[simp] theorem initAcc_p : (initAcc s).p = s.p := rfl
@[simp] theorem initAcc_g : (initAcc s).g = s.g := rfl
@[simp] theorem initAcc_v : (initAcc s).v = s.v := rfl
@[simp] theorem initAcc_k0 : (initAcc s).k0 = s.k0 := rfl
@[simp] theorem initAcc_k1 : (initAcc s).k1 = s.k1 := rfl
@[simp] theorem initAcc_mw : (initAcc s).mw = s.mw := rfl
@[simp] theorem initAcc_phase : (initAcc s).phase = s.phase := rfl
@[simp] theorem initAcc_dg : (initAcc s).dg = s.dg := rfl
@[simp] theorem initAcc_mem : (initAcc s).mem = s.mem := rfl
@[simp] theorem initAcc_host : (initAcc s).host = s.host := rfl
@[simp] theorem initAcc_pace : (initAcc s).pace = s.pace := rfl
@[simp] theorem initAcc_hostData : (initAcc s).hostData = s.hostData := rfl
@[simp] theorem initAcc_free : (initAcc s).free = s.free := rfl
@[simp] theorem initAcc_awaited : (initAcc s).awaited = s.awaited := rfl
@[simp] theorem initAcc_accesses : (initAcc s).accesses = s.accesses := rfl

/-! `initLanes` writes lanes, lane, pos only. -/

@[simp] theorem initLanes_hw : (initLanes s).hw = s.hw := rfl
@[simp] theorem initLanes_cmd : (initLanes s).cmd = s.cmd := rfl
@[simp] theorem initLanes_status : (initLanes s).status = s.status := rfl
@[simp] theorem initLanes_err : (initLanes s).err = s.err := rfl
@[simp] theorem initLanes_inAddr : (initLanes s).inAddr = s.inAddr := rfl
@[simp] theorem initLanes_inLen : (initLanes s).inLen = s.inLen := rfl
@[simp] theorem initLanes_keyAddr : (initLanes s).keyAddr = s.keyAddr := rfl
@[simp] theorem initLanes_keyLen : (initLanes s).keyLen = s.keyLen := rfl
@[simp] theorem initLanes_outAddr : (initLanes s).outAddr = s.outAddr := rfl
@[simp] theorem initLanes_outCap : (initLanes s).outCap = s.outCap := rfl
@[simp] theorem initLanes_k : (initLanes s).k = s.k := rfl
@[simp] theorem initLanes_rot : (initLanes s).rot = s.rot := rfl
@[simp] theorem initLanes_x : (initLanes s).x = s.x := rfl
@[simp] theorem initLanes_p : (initLanes s).p = s.p := rfl
@[simp] theorem initLanes_g : (initLanes s).g = s.g := rfl
@[simp] theorem initLanes_v : (initLanes s).v = s.v := rfl
@[simp] theorem initLanes_k0 : (initLanes s).k0 = s.k0 := rfl
@[simp] theorem initLanes_k1 : (initLanes s).k1 = s.k1 := rfl
@[simp] theorem initLanes_mw : (initLanes s).mw = s.mw := rfl
@[simp] theorem initLanes_phase : (initLanes s).phase = s.phase := rfl
@[simp] theorem initLanes_dg : (initLanes s).dg = s.dg := rfl
@[simp] theorem initLanes_mem : (initLanes s).mem = s.mem := rfl
@[simp] theorem initLanes_host : (initLanes s).host = s.host := rfl
@[simp] theorem initLanes_pace : (initLanes s).pace = s.pace := rfl
@[simp] theorem initLanes_hostData : (initLanes s).hostData = s.hostData := rfl
@[simp] theorem initLanes_free : (initLanes s).free = s.free := rfl
@[simp] theorem initLanes_awaited : (initLanes s).awaited = s.awaited := rfl
@[simp] theorem initLanes_accesses : (initLanes s).accesses = s.accesses := rfl

/-! `block32` writes lanes, pos, accesses only. -/

@[simp] theorem block32_hw : (block32 s).hw = s.hw := rfl
@[simp] theorem block32_cmd : (block32 s).cmd = s.cmd := rfl
@[simp] theorem block32_status : (block32 s).status = s.status := rfl
@[simp] theorem block32_err : (block32 s).err = s.err := rfl
@[simp] theorem block32_inAddr : (block32 s).inAddr = s.inAddr := rfl
@[simp] theorem block32_inLen : (block32 s).inLen = s.inLen := rfl
@[simp] theorem block32_keyAddr : (block32 s).keyAddr = s.keyAddr := rfl
@[simp] theorem block32_keyLen : (block32 s).keyLen = s.keyLen := rfl
@[simp] theorem block32_outAddr : (block32 s).outAddr = s.outAddr := rfl
@[simp] theorem block32_outCap : (block32 s).outCap = s.outCap := rfl
@[simp] theorem block32_lane : (block32 s).lane = s.lane := rfl
@[simp] theorem block32_k : (block32 s).k = s.k := rfl
@[simp] theorem block32_rot : (block32 s).rot = s.rot := rfl
@[simp] theorem block32_x : (block32 s).x = s.x := rfl
@[simp] theorem block32_p : (block32 s).p = s.p := rfl
@[simp] theorem block32_g : (block32 s).g = s.g := rfl
@[simp] theorem block32_v : (block32 s).v = s.v := rfl
@[simp] theorem block32_k0 : (block32 s).k0 = s.k0 := rfl
@[simp] theorem block32_k1 : (block32 s).k1 = s.k1 := rfl
@[simp] theorem block32_mw : (block32 s).mw = s.mw := rfl
@[simp] theorem block32_phase : (block32 s).phase = s.phase := rfl
@[simp] theorem block32_dg : (block32 s).dg = s.dg := rfl
@[simp] theorem block32_mem : (block32 s).mem = s.mem := rfl
@[simp] theorem block32_host : (block32 s).host = s.host := rfl
@[simp] theorem block32_pace : (block32 s).pace = s.pace := rfl
@[simp] theorem block32_hostData : (block32 s).hostData = s.hostData := rfl
@[simp] theorem block32_free : (block32 s).free = s.free := rfl
@[simp] theorem block32_awaited : (block32 s).awaited = s.awaited := rfl

/-! `blockOpt` writes lanes, pos, accesses only. -/

@[simp] theorem blockOpt_hw : (blockOpt s).hw = s.hw := rfl
@[simp] theorem blockOpt_cmd : (blockOpt s).cmd = s.cmd := rfl
@[simp] theorem blockOpt_status : (blockOpt s).status = s.status := rfl
@[simp] theorem blockOpt_err : (blockOpt s).err = s.err := rfl
@[simp] theorem blockOpt_inAddr : (blockOpt s).inAddr = s.inAddr := rfl
@[simp] theorem blockOpt_inLen : (blockOpt s).inLen = s.inLen := rfl
@[simp] theorem blockOpt_keyAddr : (blockOpt s).keyAddr = s.keyAddr := rfl
@[simp] theorem blockOpt_keyLen : (blockOpt s).keyLen = s.keyLen := rfl
@[simp] theorem blockOpt_outAddr : (blockOpt s).outAddr = s.outAddr := rfl
@[simp] theorem blockOpt_outCap : (blockOpt s).outCap = s.outCap := rfl
@[simp] theorem blockOpt_lane : (blockOpt s).lane = s.lane := rfl
@[simp] theorem blockOpt_k : (blockOpt s).k = s.k := rfl
@[simp] theorem blockOpt_rot : (blockOpt s).rot = s.rot := rfl
@[simp] theorem blockOpt_x : (blockOpt s).x = s.x := rfl
@[simp] theorem blockOpt_p : (blockOpt s).p = s.p := rfl
@[simp] theorem blockOpt_g : (blockOpt s).g = s.g := rfl
@[simp] theorem blockOpt_v : (blockOpt s).v = s.v := rfl
@[simp] theorem blockOpt_k0 : (blockOpt s).k0 = s.k0 := rfl
@[simp] theorem blockOpt_k1 : (blockOpt s).k1 = s.k1 := rfl
@[simp] theorem blockOpt_mw : (blockOpt s).mw = s.mw := rfl
@[simp] theorem blockOpt_phase : (blockOpt s).phase = s.phase := rfl
@[simp] theorem blockOpt_dg : (blockOpt s).dg = s.dg := rfl
@[simp] theorem blockOpt_mem : (blockOpt s).mem = s.mem := rfl
@[simp] theorem blockOpt_host : (blockOpt s).host = s.host := rfl
@[simp] theorem blockOpt_pace : (blockOpt s).pace = s.pace := rfl
@[simp] theorem blockOpt_hostData : (blockOpt s).hostData = s.hostData := rfl
@[simp] theorem blockOpt_free : (blockOpt s).free = s.free := rfl
@[simp] theorem blockOpt_awaited : (blockOpt s).awaited = s.awaited := rfl

/-! `blockVn` writes x, g, lanes, pos, accesses only. -/

@[simp] theorem blockVn_hw : (blockVn s).hw = s.hw := rfl
@[simp] theorem blockVn_cmd : (blockVn s).cmd = s.cmd := rfl
@[simp] theorem blockVn_status : (blockVn s).status = s.status := rfl
@[simp] theorem blockVn_err : (blockVn s).err = s.err := rfl
@[simp] theorem blockVn_inAddr : (blockVn s).inAddr = s.inAddr := rfl
@[simp] theorem blockVn_inLen : (blockVn s).inLen = s.inLen := rfl
@[simp] theorem blockVn_keyAddr : (blockVn s).keyAddr = s.keyAddr := rfl
@[simp] theorem blockVn_keyLen : (blockVn s).keyLen = s.keyLen := rfl
@[simp] theorem blockVn_outAddr : (blockVn s).outAddr = s.outAddr := rfl
@[simp] theorem blockVn_outCap : (blockVn s).outCap = s.outCap := rfl
@[simp] theorem blockVn_lane : (blockVn s).lane = s.lane := rfl
@[simp] theorem blockVn_k : (blockVn s).k = s.k := rfl
@[simp] theorem blockVn_rot : (blockVn s).rot = s.rot := rfl
@[simp] theorem blockVn_p : (blockVn s).p = s.p := rfl
@[simp] theorem blockVn_v : (blockVn s).v = s.v := rfl
@[simp] theorem blockVn_k0 : (blockVn s).k0 = s.k0 := rfl
@[simp] theorem blockVn_k1 : (blockVn s).k1 = s.k1 := rfl
@[simp] theorem blockVn_mw : (blockVn s).mw = s.mw := rfl
@[simp] theorem blockVn_phase : (blockVn s).phase = s.phase := rfl
@[simp] theorem blockVn_dg : (blockVn s).dg = s.dg := rfl
@[simp] theorem blockVn_mem : (blockVn s).mem = s.mem := rfl
@[simp] theorem blockVn_host : (blockVn s).host = s.host := rfl
@[simp] theorem blockVn_pace : (blockVn s).pace = s.pace := rfl
@[simp] theorem blockVn_hostData : (blockVn s).hostData = s.hostData := rfl
@[simp] theorem blockVn_free : (blockVn s).free = s.free := rfl
@[simp] theorem blockVn_awaited : (blockVn s).awaited = s.awaited := rfl

/-! `blockVa` writes x, g, lanes, pos, accesses only. -/

@[simp] theorem blockVa_hw : (blockVa s).hw = s.hw := rfl
@[simp] theorem blockVa_cmd : (blockVa s).cmd = s.cmd := rfl
@[simp] theorem blockVa_status : (blockVa s).status = s.status := rfl
@[simp] theorem blockVa_err : (blockVa s).err = s.err := rfl
@[simp] theorem blockVa_inAddr : (blockVa s).inAddr = s.inAddr := rfl
@[simp] theorem blockVa_inLen : (blockVa s).inLen = s.inLen := rfl
@[simp] theorem blockVa_keyAddr : (blockVa s).keyAddr = s.keyAddr := rfl
@[simp] theorem blockVa_keyLen : (blockVa s).keyLen = s.keyLen := rfl
@[simp] theorem blockVa_outAddr : (blockVa s).outAddr = s.outAddr := rfl
@[simp] theorem blockVa_outCap : (blockVa s).outCap = s.outCap := rfl
@[simp] theorem blockVa_lane : (blockVa s).lane = s.lane := rfl
@[simp] theorem blockVa_k : (blockVa s).k = s.k := rfl
@[simp] theorem blockVa_rot : (blockVa s).rot = s.rot := rfl
@[simp] theorem blockVa_p : (blockVa s).p = s.p := rfl
@[simp] theorem blockVa_v : (blockVa s).v = s.v := rfl
@[simp] theorem blockVa_k0 : (blockVa s).k0 = s.k0 := rfl
@[simp] theorem blockVa_k1 : (blockVa s).k1 = s.k1 := rfl
@[simp] theorem blockVa_mw : (blockVa s).mw = s.mw := rfl
@[simp] theorem blockVa_phase : (blockVa s).phase = s.phase := rfl
@[simp] theorem blockVa_dg : (blockVa s).dg = s.dg := rfl
@[simp] theorem blockVa_mem : (blockVa s).mem = s.mem := rfl
@[simp] theorem blockVa_host : (blockVa s).host = s.host := rfl
@[simp] theorem blockVa_pace : (blockVa s).pace = s.pace := rfl
@[simp] theorem blockVa_hostData : (blockVa s).hostData = s.hostData := rfl
@[simp] theorem blockVa_free : (blockVa s).free = s.free := rfl
@[simp] theorem blockVa_awaited : (blockVa s).awaited = s.awaited := rfl

/-! `blockVb` writes x, p, g, lanes, pos, accesses only. -/

@[simp] theorem blockVb_hw : (blockVb s).hw = s.hw := rfl
@[simp] theorem blockVb_cmd : (blockVb s).cmd = s.cmd := rfl
@[simp] theorem blockVb_status : (blockVb s).status = s.status := rfl
@[simp] theorem blockVb_err : (blockVb s).err = s.err := rfl
@[simp] theorem blockVb_inAddr : (blockVb s).inAddr = s.inAddr := rfl
@[simp] theorem blockVb_inLen : (blockVb s).inLen = s.inLen := rfl
@[simp] theorem blockVb_keyAddr : (blockVb s).keyAddr = s.keyAddr := rfl
@[simp] theorem blockVb_keyLen : (blockVb s).keyLen = s.keyLen := rfl
@[simp] theorem blockVb_outAddr : (blockVb s).outAddr = s.outAddr := rfl
@[simp] theorem blockVb_outCap : (blockVb s).outCap = s.outCap := rfl
@[simp] theorem blockVb_lane : (blockVb s).lane = s.lane := rfl
@[simp] theorem blockVb_k : (blockVb s).k = s.k := rfl
@[simp] theorem blockVb_rot : (blockVb s).rot = s.rot := rfl
@[simp] theorem blockVb_v : (blockVb s).v = s.v := rfl
@[simp] theorem blockVb_k0 : (blockVb s).k0 = s.k0 := rfl
@[simp] theorem blockVb_k1 : (blockVb s).k1 = s.k1 := rfl
@[simp] theorem blockVb_mw : (blockVb s).mw = s.mw := rfl
@[simp] theorem blockVb_phase : (blockVb s).phase = s.phase := rfl
@[simp] theorem blockVb_dg : (blockVb s).dg = s.dg := rfl
@[simp] theorem blockVb_mem : (blockVb s).mem = s.mem := rfl
@[simp] theorem blockVb_host : (blockVb s).host = s.host := rfl
@[simp] theorem blockVb_pace : (blockVb s).pace = s.pace := rfl
@[simp] theorem blockVb_hostData : (blockVb s).hostData = s.hostData := rfl
@[simp] theorem blockVb_free : (blockVb s).free = s.free := rfl
@[simp] theorem blockVb_awaited : (blockVb s).awaited = s.awaited := rfl

/-! `ser32` writes dg only. -/

@[simp] theorem ser32_hw : (ser32 s).hw = s.hw := rfl
@[simp] theorem ser32_cmd : (ser32 s).cmd = s.cmd := rfl
@[simp] theorem ser32_status : (ser32 s).status = s.status := rfl
@[simp] theorem ser32_err : (ser32 s).err = s.err := rfl
@[simp] theorem ser32_inAddr : (ser32 s).inAddr = s.inAddr := rfl
@[simp] theorem ser32_inLen : (ser32 s).inLen = s.inLen := rfl
@[simp] theorem ser32_keyAddr : (ser32 s).keyAddr = s.keyAddr := rfl
@[simp] theorem ser32_keyLen : (ser32 s).keyLen = s.keyLen := rfl
@[simp] theorem ser32_outAddr : (ser32 s).outAddr = s.outAddr := rfl
@[simp] theorem ser32_outCap : (ser32 s).outCap = s.outCap := rfl
@[simp] theorem ser32_lanes : (ser32 s).lanes = s.lanes := rfl
@[simp] theorem ser32_lane : (ser32 s).lane = s.lane := rfl
@[simp] theorem ser32_k : (ser32 s).k = s.k := rfl
@[simp] theorem ser32_rot : (ser32 s).rot = s.rot := rfl
@[simp] theorem ser32_pos : (ser32 s).pos = s.pos := rfl
@[simp] theorem ser32_x : (ser32 s).x = s.x := rfl
@[simp] theorem ser32_p : (ser32 s).p = s.p := rfl
@[simp] theorem ser32_g : (ser32 s).g = s.g := rfl
@[simp] theorem ser32_v : (ser32 s).v = s.v := rfl
@[simp] theorem ser32_k0 : (ser32 s).k0 = s.k0 := rfl
@[simp] theorem ser32_k1 : (ser32 s).k1 = s.k1 := rfl
@[simp] theorem ser32_mw : (ser32 s).mw = s.mw := rfl
@[simp] theorem ser32_phase : (ser32 s).phase = s.phase := rfl
@[simp] theorem ser32_mem : (ser32 s).mem = s.mem := rfl
@[simp] theorem ser32_host : (ser32 s).host = s.host := rfl
@[simp] theorem ser32_pace : (ser32 s).pace = s.pace := rfl
@[simp] theorem ser32_hostData : (ser32 s).hostData = s.hostData := rfl
@[simp] theorem ser32_free : (ser32 s).free = s.free := rfl
@[simp] theorem ser32_awaited : (ser32 s).awaited = s.awaited := rfl
@[simp] theorem ser32_accesses : (ser32 s).accesses = s.accesses := rfl

/-! `ser128` writes dg only. -/

@[simp] theorem ser128_hw : (ser128 s).hw = s.hw := rfl
@[simp] theorem ser128_cmd : (ser128 s).cmd = s.cmd := rfl
@[simp] theorem ser128_status : (ser128 s).status = s.status := rfl
@[simp] theorem ser128_err : (ser128 s).err = s.err := rfl
@[simp] theorem ser128_inAddr : (ser128 s).inAddr = s.inAddr := rfl
@[simp] theorem ser128_inLen : (ser128 s).inLen = s.inLen := rfl
@[simp] theorem ser128_keyAddr : (ser128 s).keyAddr = s.keyAddr := rfl
@[simp] theorem ser128_keyLen : (ser128 s).keyLen = s.keyLen := rfl
@[simp] theorem ser128_outAddr : (ser128 s).outAddr = s.outAddr := rfl
@[simp] theorem ser128_outCap : (ser128 s).outCap = s.outCap := rfl
@[simp] theorem ser128_lanes : (ser128 s).lanes = s.lanes := rfl
@[simp] theorem ser128_lane : (ser128 s).lane = s.lane := rfl
@[simp] theorem ser128_k : (ser128 s).k = s.k := rfl
@[simp] theorem ser128_rot : (ser128 s).rot = s.rot := rfl
@[simp] theorem ser128_pos : (ser128 s).pos = s.pos := rfl
@[simp] theorem ser128_x : (ser128 s).x = s.x := rfl
@[simp] theorem ser128_p : (ser128 s).p = s.p := rfl
@[simp] theorem ser128_g : (ser128 s).g = s.g := rfl
@[simp] theorem ser128_v : (ser128 s).v = s.v := rfl
@[simp] theorem ser128_k0 : (ser128 s).k0 = s.k0 := rfl
@[simp] theorem ser128_k1 : (ser128 s).k1 = s.k1 := rfl
@[simp] theorem ser128_mw : (ser128 s).mw = s.mw := rfl
@[simp] theorem ser128_phase : (ser128 s).phase = s.phase := rfl
@[simp] theorem ser128_mem : (ser128 s).mem = s.mem := rfl
@[simp] theorem ser128_host : (ser128 s).host = s.host := rfl
@[simp] theorem ser128_pace : (ser128 s).pace = s.pace := rfl
@[simp] theorem ser128_hostData : (ser128 s).hostData = s.hostData := rfl
@[simp] theorem ser128_free : (ser128 s).free = s.free := rfl
@[simp] theorem ser128_awaited : (ser128 s).awaited = s.awaited := rfl
@[simp] theorem ser128_accesses : (ser128 s).accesses = s.accesses := rfl

/-! `sipInit` writes k0, k1, v, pos, accesses only. -/

@[simp] theorem sipInit_hw : (sipInit s).hw = s.hw := rfl
@[simp] theorem sipInit_cmd : (sipInit s).cmd = s.cmd := rfl
@[simp] theorem sipInit_status : (sipInit s).status = s.status := rfl
@[simp] theorem sipInit_err : (sipInit s).err = s.err := rfl
@[simp] theorem sipInit_inAddr : (sipInit s).inAddr = s.inAddr := rfl
@[simp] theorem sipInit_inLen : (sipInit s).inLen = s.inLen := rfl
@[simp] theorem sipInit_keyAddr : (sipInit s).keyAddr = s.keyAddr := rfl
@[simp] theorem sipInit_keyLen : (sipInit s).keyLen = s.keyLen := rfl
@[simp] theorem sipInit_outAddr : (sipInit s).outAddr = s.outAddr := rfl
@[simp] theorem sipInit_outCap : (sipInit s).outCap = s.outCap := rfl
@[simp] theorem sipInit_lanes : (sipInit s).lanes = s.lanes := rfl
@[simp] theorem sipInit_lane : (sipInit s).lane = s.lane := rfl
@[simp] theorem sipInit_k : (sipInit s).k = s.k := rfl
@[simp] theorem sipInit_rot : (sipInit s).rot = s.rot := rfl
@[simp] theorem sipInit_x : (sipInit s).x = s.x := rfl
@[simp] theorem sipInit_p : (sipInit s).p = s.p := rfl
@[simp] theorem sipInit_g : (sipInit s).g = s.g := rfl
@[simp] theorem sipInit_mw : (sipInit s).mw = s.mw := rfl
@[simp] theorem sipInit_phase : (sipInit s).phase = s.phase := rfl
@[simp] theorem sipInit_dg : (sipInit s).dg = s.dg := rfl
@[simp] theorem sipInit_mem : (sipInit s).mem = s.mem := rfl
@[simp] theorem sipInit_host : (sipInit s).host = s.host := rfl
@[simp] theorem sipInit_pace : (sipInit s).pace = s.pace := rfl
@[simp] theorem sipInit_hostData : (sipInit s).hostData = s.hostData := rfl
@[simp] theorem sipInit_free : (sipInit s).free = s.free := rfl
@[simp] theorem sipInit_awaited : (sipInit s).awaited = s.awaited := rfl

/-! `sipWord` writes mw, v, pos, accesses only. -/

@[simp] theorem sipWord_hw : (sipWord s).hw = s.hw := rfl
@[simp] theorem sipWord_cmd : (sipWord s).cmd = s.cmd := rfl
@[simp] theorem sipWord_status : (sipWord s).status = s.status := rfl
@[simp] theorem sipWord_err : (sipWord s).err = s.err := rfl
@[simp] theorem sipWord_inAddr : (sipWord s).inAddr = s.inAddr := rfl
@[simp] theorem sipWord_inLen : (sipWord s).inLen = s.inLen := rfl
@[simp] theorem sipWord_keyAddr : (sipWord s).keyAddr = s.keyAddr := rfl
@[simp] theorem sipWord_keyLen : (sipWord s).keyLen = s.keyLen := rfl
@[simp] theorem sipWord_outAddr : (sipWord s).outAddr = s.outAddr := rfl
@[simp] theorem sipWord_outCap : (sipWord s).outCap = s.outCap := rfl
@[simp] theorem sipWord_lanes : (sipWord s).lanes = s.lanes := rfl
@[simp] theorem sipWord_lane : (sipWord s).lane = s.lane := rfl
@[simp] theorem sipWord_k : (sipWord s).k = s.k := rfl
@[simp] theorem sipWord_rot : (sipWord s).rot = s.rot := rfl
@[simp] theorem sipWord_x : (sipWord s).x = s.x := rfl
@[simp] theorem sipWord_p : (sipWord s).p = s.p := rfl
@[simp] theorem sipWord_g : (sipWord s).g = s.g := rfl
@[simp] theorem sipWord_k0 : (sipWord s).k0 = s.k0 := rfl
@[simp] theorem sipWord_k1 : (sipWord s).k1 = s.k1 := rfl
@[simp] theorem sipWord_phase : (sipWord s).phase = s.phase := rfl
@[simp] theorem sipWord_dg : (sipWord s).dg = s.dg := rfl
@[simp] theorem sipWord_mem : (sipWord s).mem = s.mem := rfl
@[simp] theorem sipWord_host : (sipWord s).host = s.host := rfl
@[simp] theorem sipWord_pace : (sipWord s).pace = s.pace := rfl
@[simp] theorem sipWord_hostData : (sipWord s).hostData = s.hostData := rfl
@[simp] theorem sipWord_free : (sipWord s).free = s.free := rfl
@[simp] theorem sipWord_awaited : (sipWord s).awaited = s.awaited := rfl

/-! `sipLast` writes mw, v, pos, accesses only. -/

@[simp] theorem sipLast_hw : (sipLast s).hw = s.hw := rfl
@[simp] theorem sipLast_cmd : (sipLast s).cmd = s.cmd := rfl
@[simp] theorem sipLast_status : (sipLast s).status = s.status := rfl
@[simp] theorem sipLast_err : (sipLast s).err = s.err := rfl
@[simp] theorem sipLast_inAddr : (sipLast s).inAddr = s.inAddr := rfl
@[simp] theorem sipLast_inLen : (sipLast s).inLen = s.inLen := rfl
@[simp] theorem sipLast_keyAddr : (sipLast s).keyAddr = s.keyAddr := rfl
@[simp] theorem sipLast_keyLen : (sipLast s).keyLen = s.keyLen := rfl
@[simp] theorem sipLast_outAddr : (sipLast s).outAddr = s.outAddr := rfl
@[simp] theorem sipLast_outCap : (sipLast s).outCap = s.outCap := rfl
@[simp] theorem sipLast_lanes : (sipLast s).lanes = s.lanes := rfl
@[simp] theorem sipLast_lane : (sipLast s).lane = s.lane := rfl
@[simp] theorem sipLast_k : (sipLast s).k = s.k := rfl
@[simp] theorem sipLast_rot : (sipLast s).rot = s.rot := rfl
@[simp] theorem sipLast_x : (sipLast s).x = s.x := rfl
@[simp] theorem sipLast_p : (sipLast s).p = s.p := rfl
@[simp] theorem sipLast_g : (sipLast s).g = s.g := rfl
@[simp] theorem sipLast_k0 : (sipLast s).k0 = s.k0 := rfl
@[simp] theorem sipLast_k1 : (sipLast s).k1 = s.k1 := rfl
@[simp] theorem sipLast_phase : (sipLast s).phase = s.phase := rfl
@[simp] theorem sipLast_dg : (sipLast s).dg = s.dg := rfl
@[simp] theorem sipLast_mem : (sipLast s).mem = s.mem := rfl
@[simp] theorem sipLast_host : (sipLast s).host = s.host := rfl
@[simp] theorem sipLast_pace : (sipLast s).pace = s.pace := rfl
@[simp] theorem sipLast_hostData : (sipLast s).hostData = s.hostData := rfl
@[simp] theorem sipLast_free : (sipLast s).free = s.free := rfl
@[simp] theorem sipLast_awaited : (sipLast s).awaited = s.awaited := rfl

/-! `sipFin` writes v, dg only. -/

@[simp] theorem sipFin_hw : (sipFin s).hw = s.hw := rfl
@[simp] theorem sipFin_cmd : (sipFin s).cmd = s.cmd := rfl
@[simp] theorem sipFin_status : (sipFin s).status = s.status := rfl
@[simp] theorem sipFin_err : (sipFin s).err = s.err := rfl
@[simp] theorem sipFin_inAddr : (sipFin s).inAddr = s.inAddr := rfl
@[simp] theorem sipFin_inLen : (sipFin s).inLen = s.inLen := rfl
@[simp] theorem sipFin_keyAddr : (sipFin s).keyAddr = s.keyAddr := rfl
@[simp] theorem sipFin_keyLen : (sipFin s).keyLen = s.keyLen := rfl
@[simp] theorem sipFin_outAddr : (sipFin s).outAddr = s.outAddr := rfl
@[simp] theorem sipFin_outCap : (sipFin s).outCap = s.outCap := rfl
@[simp] theorem sipFin_lanes : (sipFin s).lanes = s.lanes := rfl
@[simp] theorem sipFin_lane : (sipFin s).lane = s.lane := rfl
@[simp] theorem sipFin_k : (sipFin s).k = s.k := rfl
@[simp] theorem sipFin_rot : (sipFin s).rot = s.rot := rfl
@[simp] theorem sipFin_pos : (sipFin s).pos = s.pos := rfl
@[simp] theorem sipFin_x : (sipFin s).x = s.x := rfl
@[simp] theorem sipFin_p : (sipFin s).p = s.p := rfl
@[simp] theorem sipFin_g : (sipFin s).g = s.g := rfl
@[simp] theorem sipFin_k0 : (sipFin s).k0 = s.k0 := rfl
@[simp] theorem sipFin_k1 : (sipFin s).k1 = s.k1 := rfl
@[simp] theorem sipFin_mw : (sipFin s).mw = s.mw := rfl
@[simp] theorem sipFin_phase : (sipFin s).phase = s.phase := rfl
@[simp] theorem sipFin_mem : (sipFin s).mem = s.mem := rfl
@[simp] theorem sipFin_host : (sipFin s).host = s.host := rfl
@[simp] theorem sipFin_pace : (sipFin s).pace = s.pace := rfl
@[simp] theorem sipFin_hostData : (sipFin s).hostData = s.hostData := rfl
@[simp] theorem sipFin_free : (sipFin s).free = s.free := rfl
@[simp] theorem sipFin_awaited : (sipFin s).awaited = s.awaited := rfl
@[simp] theorem sipFin_accesses : (sipFin s).accesses = s.accesses := rfl

/-! `hostRead` writes hostData, awaited only. -/

@[simp] theorem hostRead_hw (i : Nat) : (hostRead i s).hw = s.hw := rfl
@[simp] theorem hostRead_cmd (i : Nat) : (hostRead i s).cmd = s.cmd := rfl
@[simp] theorem hostRead_status (i : Nat) : (hostRead i s).status = s.status := rfl
@[simp] theorem hostRead_err (i : Nat) : (hostRead i s).err = s.err := rfl
@[simp] theorem hostRead_inAddr (i : Nat) : (hostRead i s).inAddr = s.inAddr := rfl
@[simp] theorem hostRead_inLen (i : Nat) : (hostRead i s).inLen = s.inLen := rfl
@[simp] theorem hostRead_keyAddr (i : Nat) : (hostRead i s).keyAddr = s.keyAddr := rfl
@[simp] theorem hostRead_keyLen (i : Nat) : (hostRead i s).keyLen = s.keyLen := rfl
@[simp] theorem hostRead_outAddr (i : Nat) : (hostRead i s).outAddr = s.outAddr := rfl
@[simp] theorem hostRead_outCap (i : Nat) : (hostRead i s).outCap = s.outCap := rfl
@[simp] theorem hostRead_lanes (i : Nat) : (hostRead i s).lanes = s.lanes := rfl
@[simp] theorem hostRead_lane (i : Nat) : (hostRead i s).lane = s.lane := rfl
@[simp] theorem hostRead_k (i : Nat) : (hostRead i s).k = s.k := rfl
@[simp] theorem hostRead_rot (i : Nat) : (hostRead i s).rot = s.rot := rfl
@[simp] theorem hostRead_pos (i : Nat) : (hostRead i s).pos = s.pos := rfl
@[simp] theorem hostRead_x (i : Nat) : (hostRead i s).x = s.x := rfl
@[simp] theorem hostRead_p (i : Nat) : (hostRead i s).p = s.p := rfl
@[simp] theorem hostRead_g (i : Nat) : (hostRead i s).g = s.g := rfl
@[simp] theorem hostRead_v (i : Nat) : (hostRead i s).v = s.v := rfl
@[simp] theorem hostRead_k0 (i : Nat) : (hostRead i s).k0 = s.k0 := rfl
@[simp] theorem hostRead_k1 (i : Nat) : (hostRead i s).k1 = s.k1 := rfl
@[simp] theorem hostRead_mw (i : Nat) : (hostRead i s).mw = s.mw := rfl
@[simp] theorem hostRead_phase (i : Nat) : (hostRead i s).phase = s.phase := rfl
@[simp] theorem hostRead_dg (i : Nat) : (hostRead i s).dg = s.dg := rfl
@[simp] theorem hostRead_mem (i : Nat) : (hostRead i s).mem = s.mem := rfl
@[simp] theorem hostRead_host (i : Nat) : (hostRead i s).host = s.host := rfl
@[simp] theorem hostRead_pace (i : Nat) : (hostRead i s).pace = s.pace := rfl
@[simp] theorem hostRead_free (i : Nat) : (hostRead i s).free = s.free := rfl
@[simp] theorem hostRead_accesses (i : Nat) : (hostRead i s).accesses = s.accesses := rfl

/-! `writeCmd` writes cmd only. -/

@[simp] theorem writeCmd_hw (n : Nat) : (writeCmd s n).hw = s.hw := rfl
@[simp] theorem writeCmd_status (n : Nat) : (writeCmd s n).status = s.status := rfl
@[simp] theorem writeCmd_err (n : Nat) : (writeCmd s n).err = s.err := rfl
@[simp] theorem writeCmd_inAddr (n : Nat) : (writeCmd s n).inAddr = s.inAddr := rfl
@[simp] theorem writeCmd_inLen (n : Nat) : (writeCmd s n).inLen = s.inLen := rfl
@[simp] theorem writeCmd_keyAddr (n : Nat) : (writeCmd s n).keyAddr = s.keyAddr := rfl
@[simp] theorem writeCmd_keyLen (n : Nat) : (writeCmd s n).keyLen = s.keyLen := rfl
@[simp] theorem writeCmd_outAddr (n : Nat) : (writeCmd s n).outAddr = s.outAddr := rfl
@[simp] theorem writeCmd_outCap (n : Nat) : (writeCmd s n).outCap = s.outCap := rfl
@[simp] theorem writeCmd_lanes (n : Nat) : (writeCmd s n).lanes = s.lanes := rfl
@[simp] theorem writeCmd_lane (n : Nat) : (writeCmd s n).lane = s.lane := rfl
@[simp] theorem writeCmd_k (n : Nat) : (writeCmd s n).k = s.k := rfl
@[simp] theorem writeCmd_rot (n : Nat) : (writeCmd s n).rot = s.rot := rfl
@[simp] theorem writeCmd_pos (n : Nat) : (writeCmd s n).pos = s.pos := rfl
@[simp] theorem writeCmd_x (n : Nat) : (writeCmd s n).x = s.x := rfl
@[simp] theorem writeCmd_p (n : Nat) : (writeCmd s n).p = s.p := rfl
@[simp] theorem writeCmd_g (n : Nat) : (writeCmd s n).g = s.g := rfl
@[simp] theorem writeCmd_v (n : Nat) : (writeCmd s n).v = s.v := rfl
@[simp] theorem writeCmd_k0 (n : Nat) : (writeCmd s n).k0 = s.k0 := rfl
@[simp] theorem writeCmd_k1 (n : Nat) : (writeCmd s n).k1 = s.k1 := rfl
@[simp] theorem writeCmd_mw (n : Nat) : (writeCmd s n).mw = s.mw := rfl
@[simp] theorem writeCmd_phase (n : Nat) : (writeCmd s n).phase = s.phase := rfl
@[simp] theorem writeCmd_dg (n : Nat) : (writeCmd s n).dg = s.dg := rfl
@[simp] theorem writeCmd_mem (n : Nat) : (writeCmd s n).mem = s.mem := rfl
@[simp] theorem writeCmd_host (n : Nat) : (writeCmd s n).host = s.host := rfl
@[simp] theorem writeCmd_pace (n : Nat) : (writeCmd s n).pace = s.pace := rfl
@[simp] theorem writeCmd_hostData (n : Nat) : (writeCmd s n).hostData = s.hostData := rfl
@[simp] theorem writeCmd_free (n : Nat) : (writeCmd s n).free = s.free := rfl
@[simp] theorem writeCmd_awaited (n : Nat) : (writeCmd s n).awaited = s.awaited := rfl
@[simp] theorem writeCmd_accesses (n : Nat) : (writeCmd s n).accesses = s.accesses := rfl

/-! What they write. -/

@[simp] theorem issueIllegal_status : (issueIllegal s).status = statusIllegal s.status := rfl
@[simp] theorem issueIllegal_accesses : (issueIllegal s).accesses = [] := rfl
@[simp] theorem issueLegal_status (i : Instr) : (issueLegal i s).status = statusIssued s.status := rfl
@[simp] theorem issueLegal_phase (i : Instr) : (issueLegal i s).phase = .validate := rfl
@[simp] theorem issueLegal_accesses (i : Instr) : (issueLegal i s).accesses = [] := rfl
@[simp] theorem issueLegal_awaited (i : Instr) : (issueLegal i s).awaited =
    if verdict i s = .code .success then footprint i s :: s.awaited else s.awaited := rfl
@[simp] theorem complete_err (e : ErrorCode) : (complete e s).err = e.word := rfl
@[simp] theorem complete_status (e : ErrorCode) : (complete e s).status = statusDone s.status := rfl
@[simp] theorem complete_phase (e : ErrorCode) : (complete e s).phase = .idle := rfl
@[simp] theorem mix_dg (d : Nat) : (mix d s).dg = s.dg ^^^ BitVec.ofNat 128 (Memory.readLE s.mem s.keyAddr.toNat d) := rfl
@[simp] theorem mix_accesses (d : Nat) : (mix d s).accesses = byteReads s.keyAddr.toNat d s.accesses := rfl
@[simp] theorem digestWrite_mem (d : Nat) : (digestWrite d s).mem = Memory.writeLE s.mem s.outAddr.toNat d s.dg.toNat := rfl
@[simp] theorem digestWrite_accesses (d : Nat) : (digestWrite d s).accesses = .write s.outAddr.toNat d :: s.accesses := rfl
@[simp] theorem loadK_k (b : Backend) : (loadK b s).k = BitVec.ofNat 5 (prefixLength (alignWidth b) s.inAddr.toNat s.inLen.toNat) := rfl
@[simp] theorem laneStep_pos : (laneStep s).pos = s.pos + 1 := rfl
@[simp] theorem laneStep_lane : (laneStep s).lane = s.lane + 1 := rfl
@[simp] theorem laneStep_accesses : (laneStep s).accesses = .read (cursor s) 1 :: s.accesses := rfl
@[simp] theorem laneStep_lanes : (laneStep s).lanes = s.lanes.set s.lane (byteStep (s.lanes.get s.lane) (Memory.read s.mem (cursor s))) := rfl
@[simp] theorem accStep_pos : (accStep s).pos = s.pos + 1 := rfl
@[simp] theorem accStep_accesses : (accStep s).accesses = .read (cursor s) 1 :: s.accesses := rfl
@[simp] theorem initAcc_pos : (initAcc s).pos = 0 := rfl
@[simp] theorem initLanes_pos : (initLanes s).pos = 0 := rfl
@[simp] theorem initLanes_lane : (initLanes s).lane = 0 := rfl
@[simp] theorem initLanes_lanes : (initLanes s).lanes = ⟨initialLane, initialLane, initialLane, initialLane⟩ := rfl
@[simp] theorem block32_pos : (block32 s).pos = s.pos + 16 := rfl
@[simp] theorem blockOpt_pos : (blockOpt s).pos = s.pos + 16 := rfl
@[simp] theorem blockVn_pos : (blockVn s).pos = s.pos + 8 := rfl
@[simp] theorem blockVa_pos : (blockVa s).pos = s.pos + 16 := rfl
@[simp] theorem blockVb_pos : (blockVb s).pos = s.pos + 16 := rfl
@[simp] theorem ser128_dg : (ser128 s).dg = s.lanes.joined := rfl
@[simp] theorem ser32_dg : (ser32 s).dg = s.dg.extractLsb' 32 96 ++ s.lanes.e0 := rfl
@[simp] theorem sipInit_pos : (sipInit s).pos = 0 := rfl
@[simp] theorem sipWord_pos : (sipWord s).pos = s.pos + 8 := rfl
@[simp] theorem sipLast_pos : (sipLast s).pos = s.inLen := rfl
@[simp] theorem hostRead_awaited (i : Nat) : (hostRead i s).awaited =
    if i = Reg.status.index ∧ s.done = true then [] else s.awaited := rfl
@[simp] theorem hostRead_hostData (i : Nat) : (hostRead i s).hostData = readReg s i := rfl
@[simp] theorem writeCmd_cmd (n : Nat) : (writeCmd s n).cmd = BitVec.ofNat 32 n := rfl

/-! The reset event. -/

@[simp] theorem resetEvent_hw : (resetEvent s).hw = s.hw := rfl
@[simp] theorem resetEvent_status : (resetEvent s).status = 0 := rfl
@[simp] theorem resetEvent_err : (resetEvent s).err = 0 := rfl
@[simp] theorem resetEvent_phase : (resetEvent s).phase = .idle := rfl
@[simp] theorem resetEvent_mem :
    (resetEvent s).mem = Memory.scribble s.mem s.outAddr.toNat (bytesCutOff s) s.free := rfl
@[simp] theorem resetEvent_awaited : (resetEvent s).awaited = [] := rfl
@[simp] theorem resetEvent_host : (resetEvent s).host = s.host := rfl
@[simp] theorem resetEvent_pace : (resetEvent s).pace = s.pace := rfl

@[simp] theorem resetEvent_cmd : (resetEvent s).cmd = 0 := rfl
@[simp] theorem resetEvent_inAddr : (resetEvent s).inAddr = 0 := rfl
@[simp] theorem resetEvent_inLen : (resetEvent s).inLen = 0 := rfl
@[simp] theorem resetEvent_keyAddr : (resetEvent s).keyAddr = 0 := rfl
@[simp] theorem resetEvent_keyLen : (resetEvent s).keyLen = 0 := rfl
@[simp] theorem resetEvent_outAddr : (resetEvent s).outAddr = 0 := rfl
@[simp] theorem resetEvent_outCap : (resetEvent s).outCap = 0 := rfl

end Sys2Proof.Machine
end

