-- ==== Sys2Proof/Laws/Memory.lean ====
section
/-! SUPPORT. The laws of memory: a read after a write (R62), the canonical form, and the multi-byte accesses byte by byte. -/

namespace Sys2Proof.Machine

@[simp] theorem Memory.read_nil (a : Nat) : Memory.read [] a = Memory.unlisted := rfl

theorem Memory.read_cons (k : Nat) (c : Byte) (m : Memory) (a : Nat) :
    Memory.read ((k, c) :: m) a = if k = a then c else Memory.read m a := rfl

/-- An address below every listed one reads as unlisted. -/
theorem Memory.read_of_lt {m : Memory} {a : Nat} (h : ∀ c ∈ m, a < c.1) : Memory.read m a = Memory.unlisted := by
  induction m with
  | nil => rfl
  | cons c m ih =>
    obtain ⟨k, b⟩ := c
    have hk : a < k := h (k, b) (by simp)
    rw [Memory.read_cons, if_neg (by omega)]
    exact ih fun c hc => h c (by simp [hc])

theorem Memory.wf_tail {c : Host.Cell} {m : Memory} (h : Memory.wf (c :: m)) : Memory.wf m :=
  ⟨(List.pairwise_cons.1 h.1).2, fun d hd => h.2 d (by simp [hd])⟩

/-- A write leaves every other address alone (R62). -/
theorem Memory.read_write_of_ne (m : Memory) {a x : Nat} (b : Byte) (h : x ≠ a) :
    Memory.read (Memory.write m a b) x = Memory.read m x := by
  have ha : a ≠ x := Ne.symm h
  induction m with
  | nil => unfold Memory.write; split <;> simp [Memory.read_cons, ha]
  | cons c m ih =>
    obtain ⟨k, c⟩ := c
    unfold Memory.write
    split_ifs with h1 h2 h3 h4 <;> simp only [Memory.read_cons, ih]
    · simp [ha]
    · subst h3; simp [ha]
    · subst h3; simp [ha]

/-- A read after a write of the same address gives the byte written (R62). -/
theorem Memory.read_write_same {m : Memory} (hm : Memory.wf m) (a : Nat) (b : Byte) :
    Memory.read (Memory.write m a b) a = b := by
  induction m with
  | nil => unfold Memory.write; split_ifs with h <;> simp [Memory.read_cons, h]
  | cons c m ih =>
    obtain ⟨k, c⟩ := c
    have hlt : ∀ d ∈ m, k < d.1 := (List.pairwise_cons.1 hm.1).1
    unfold Memory.write
    split_ifs with h1 h2 h3 h4
    · rw [h2]
      refine Memory.read_of_lt fun d hd => ?_
      rcases List.mem_cons.1 hd with rfl | hd
      · exact h1
      · exact Nat.lt_trans h1 (hlt d hd)
    · simp [Memory.read_cons]
    · rw [h4]; subst h3; exact Memory.read_of_lt hlt
    · simp [Memory.read_cons]
    · rw [Memory.read_cons, if_neg (Ne.symm h3)]
      exact ih (Memory.wf_tail hm)

theorem Memory.read_write {m : Memory} (hm : Memory.wf m) (a x : Nat) (b : Byte) :
    Memory.read (Memory.write m a b) x = if x = a then b else Memory.read m x := by
  split_ifs with h
  · subst h; exact Memory.read_write_same hm x b
  · exact Memory.read_write_of_ne m b h

/-- A write lists no address but its own and those listed before. -/
theorem Memory.mem_write {m : Memory} {a : Nat} {b : Byte} {c : Host.Cell} (h : c ∈ Memory.write m a b) :
    (c.1 = a ∧ c.2 = b ∧ b ≠ Memory.unlisted) ∨ c ∈ m := by
  induction m with
  | nil =>
    unfold Memory.write at h
    split_ifs at h with h1
    · simp at h
    · rw [List.mem_singleton] at h; subst h; exact .inl ⟨rfl, rfl, h1⟩
  | cons d m ih =>
    obtain ⟨k, d⟩ := d
    unfold Memory.write at h
    split_ifs at h with h1 h2 h3 h4
    · exact .inr h
    · rcases List.mem_cons.1 h with rfl | h
      · exact .inl ⟨rfl, rfl, h2⟩
      · exact .inr h
    · exact .inr (List.mem_cons_of_mem _ h)
    · rcases List.mem_cons.1 h with rfl | h
      · exact .inl ⟨rfl, rfl, h4⟩
      · exact .inr (List.mem_cons_of_mem _ h)
    · rcases List.mem_cons.1 h with rfl | h
      · exact .inr (by simp)
      · rcases ih h with h | h
        · exact .inl h
        · exact .inr (List.mem_cons_of_mem _ h)

/-- Every write keeps the canonical form. -/
theorem Memory.write_wf {m : Memory} (hm : Memory.wf m) (a : Nat) (b : Byte) : Memory.wf (Memory.write m a b) := by
  refine ⟨?_, fun c hc => ?_⟩
  · induction m with
    | nil => unfold Memory.write; split_ifs <;> simp
    | cons d m ih =>
      obtain ⟨k, d⟩ := d
      have hp := List.pairwise_cons.1 hm.1
      unfold Memory.write
      split_ifs with h1 h2 h3 h4
      · exact hm.1
      · refine List.pairwise_cons.2 ⟨fun c hc => ?_, hm.1⟩
        rcases List.mem_cons.1 hc with rfl | hc
        · exact h1
        · exact Nat.lt_trans h1 (hp.1 c hc)
      · exact hp.2
      · subst h3; exact List.pairwise_cons.2 ⟨hp.1, hp.2⟩
      · refine List.pairwise_cons.2 ⟨fun c hc => ?_, ih (Memory.wf_tail hm)⟩
        rcases Memory.mem_write hc with ⟨h, -, -⟩ | hc
        · show k < c.1; omega
        · exact hp.1 c hc
  · rcases Memory.mem_write hc with ⟨-, h, hb⟩ | hc
    · rw [h]; exact hb
    · exact hm.2 c hc

/-- Two memories in canonical form that read alike everywhere are the same list. -/
theorem Memory.ext_of_read {m n : Memory} (hm : Memory.wf m) (hn : Memory.wf n)
    (h : ∀ a, Memory.read m a = Memory.read n a) : m = n := by
  induction m generalizing n with
  | nil =>
    cases n with
    | nil => rfl
    | cons d n =>
      have := h d.1
      rw [Memory.read_nil, show d = (d.1, d.2) from rfl, Memory.read_cons, if_pos rfl] at this
      exact absurd this.symm (hn.2 d (by simp))
  | cons c m ih =>
    obtain ⟨k, c⟩ := c
    have hk := (List.pairwise_cons.1 hm.1).1
    cases n with
    | nil =>
      have := h k
      rw [Memory.read_nil, Memory.read_cons, if_pos rfl] at this
      exact absurd this (hm.2 (k, c) (by simp))
    | cons d n =>
      obtain ⟨l, d⟩ := d
      have hl := (List.pairwise_cons.1 hn.1).1
      have hkl : k = l := by
        rcases Nat.lt_trichotomy k l with hlt | heq | hgt
        · have := h k
          rw [Memory.read_cons, if_pos rfl, Memory.read_of_lt (m := (l, d) :: n)] at this
          · exact absurd this (hm.2 (k, c) (by simp))
          · intro e he
            rcases List.mem_cons.1 he with rfl | he
            · exact hlt
            · exact Nat.lt_trans hlt (hl e he)
        · exact heq
        · have := h l
          rw [Memory.read_cons (a := l) (k := l), if_pos rfl, Memory.read_of_lt (m := (k, c) :: m)] at this
          · exact absurd this.symm (hn.2 (l, d) (by simp))
          · intro e he
            rcases List.mem_cons.1 he with rfl | he
            · exact hgt
            · exact Nat.lt_trans hgt (hk e he)
      subst hkl
      have hcd : c = d := by simpa [Memory.read_cons] using h k
      subst hcd
      congr 1
      refine ih (Memory.wf_tail hm) (Memory.wf_tail hn) fun a => ?_
      rcases Nat.lt_or_ge k a with ha | ha
      · simpa [Memory.read_cons, Nat.ne_of_lt ha] using h a
      · rw [Memory.read_of_lt fun e he => Nat.lt_of_le_of_lt ha (hk e he),
          Memory.read_of_lt fun e he => Nat.lt_of_le_of_lt ha (hl e he)]

/-! ### Multi-byte writes -/

theorem Memory.writeLE_wf {m : Memory} (hm : Memory.wf m) (a n v : Nat) : Memory.wf (Memory.writeLE m a n v) := by
  induction n generalizing m a v with
  | zero => exact hm
  | succ n ih => exact ih (Memory.write_wf hm _ _) _ _

theorem Memory.mem_writeLE {m : Memory} {a n v : Nat} {c : Host.Cell} (h : c ∈ Memory.writeLE m a n v) :
    (a ≤ c.1 ∧ c.1 < a + n) ∨ c ∈ m := by
  induction n generalizing m a v with
  | zero => exact .inr h
  | succ n ih =>
    rcases ih h with h | h
    · exact .inl (by omega)
    · rcases Memory.mem_write h with ⟨h, -, -⟩ | h
      · exact .inl (by omega)
      · exact .inr h

/-- `MemWrite` changes nothing outside its bytes (R62). -/
theorem Memory.read_writeLE_of_outside (m : Memory) {a n x : Nat} (v : Nat) (h : x < a ∨ a + n ≤ x) :
    Memory.read (Memory.writeLE m a n v) x = Memory.read m x := by
  induction n generalizing m a v with
  | zero => rfl
  | succ n ih =>
    rw [Memory.writeLE, ih _ _ (by omega), Memory.read_write_of_ne _ _ (by omega)]

/-- `MemWrite` puts byte j of the value at the j-th address (R62). -/
theorem Memory.read_writeLE {m : Memory} (hm : Memory.wf m) {a n j : Nat} (v : Nat) (h : j < n) :
    Memory.read (Memory.writeLE m a n v) (a + j) = BitVec.ofNat 8 (v / 256 ^ j) := by
  induction n generalizing m a v j with
  | zero => omega
  | succ n ih =>
    rw [Memory.writeLE]
    cases j with
    | zero =>
      rw [Memory.read_writeLE_of_outside _ _ (by omega), Nat.add_zero, Memory.read_write_same hm]
      simp
    | succ j =>
      rw [show a + (j + 1) = a + 1 + j by omega, ih (Memory.write_wf hm _ _) _ (by omega), Nat.div_div_eq_div_mul,
        Nat.pow_succ, Nat.mul_comm]

theorem Memory.scribble_wf {m : Memory} (hm : Memory.wf m) (a n f : Nat) : Memory.wf (Memory.scribble m a n f) := by
  induction n generalizing m a f with
  | zero => exact hm
  | succ n ih => exact ih (Memory.write_wf hm _ _) _ _

theorem Memory.mem_scribble {m : Memory} {a n f : Nat} {c : Host.Cell} (h : c ∈ Memory.scribble m a n f) :
    (a ≤ c.1 ∧ c.1 < a + n) ∨ c ∈ m := by
  induction n generalizing m a f with
  | zero => exact .inr h
  | succ n ih =>
    rcases ih h with h | h
    · exact .inl (by omega)
    · rcases Memory.mem_write h with ⟨h, -, -⟩ | h
      · exact .inl (by omega)
      · exact .inr h

theorem Memory.read_scribble_of_outside (m : Memory) {a n x : Nat} (f : Nat) (h : x < a ∨ a + n ≤ x) :
    Memory.read (Memory.scribble m a n f) x = Memory.read m x := by
  induction n generalizing m a f with
  | zero => rfl
  | succ n ih =>
    rw [Memory.scribble, ih _ _ (by omega), Memory.read_write_of_ne _ _ (by omega)]

/-- The bytes a cut-off digest write leaves are the free values, in order (R302). -/
theorem Memory.read_scribble {m : Memory} (hm : Memory.wf m) (a n f : Nat) {j : Nat} (h : j < n) :
    Memory.read (Memory.scribble m a n f) (a + j) = Config.freeByte (f + j) := by
  induction n generalizing m a f j with
  | zero => omega
  | succ n ih =>
    rw [Memory.scribble]
    cases j with
    | zero => rw [Memory.read_scribble_of_outside _ _ (by omega), Nat.add_zero, Memory.read_write_same hm, Nat.add_zero]
    | succ j =>
      rw [show a + (j + 1) = a + 1 + j by omega, show f + (j + 1) = f + 1 + j by omega]
      exact ih (Memory.write_wf hm _ _) _ _ (by omega)

/-! ### Runs of bytes -/

@[simp] theorem Memory.bytes_length (m : Memory) (a n : Nat) : (Memory.bytes m a n).length = n := by
  induction n generalizing a with
  | zero => rfl
  | succ n ih => simp [Memory.bytes, ih]

theorem Memory.bytes_append (m : Memory) (a n k : Nat) :
    Memory.bytes m a (n + k) = Memory.bytes m a n ++ Memory.bytes m (a + n) k := by
  induction n generalizing a with
  | zero => simp [Memory.bytes]
  | succ n ih =>
    rw [show n + 1 + k = n + k + 1 by omega, Memory.bytes, Memory.bytes, ih, show a + 1 + n = a + (n + 1) by omega]
    rfl

theorem Memory.bytes_congr {m m' : Memory} {a n : Nat} (h : ∀ j, j < n → Memory.read m (a + j) = Memory.read m' (a + j)) :
    Memory.bytes m a n = Memory.bytes m' a n := by
  induction n generalizing a with
  | zero => rfl
  | succ n ih =>
    rw [Memory.bytes, Memory.bytes, ih fun j hj => ?_]
    · congr 1; simpa using h 0 (by omega)
    · have := h (j + 1) (by omega); rwa [show a + (j + 1) = a + 1 + j by omega] at this

theorem Memory.getElem_bytes (m : Memory) (a n j : Nat) (h : j < (Memory.bytes m a n).length) :
    (Memory.bytes m a n)[j] = Memory.read m (a + j) := by
  induction n generalizing a j with
  | zero => simp at h
  | succ n ih =>
    cases j with
    | zero => rfl
    | succ j =>
      simp only [Memory.bytes, List.getElem_cons_succ]
      rw [ih, show a + 1 + j = a + (j + 1) by omega]

end Sys2Proof.Machine
end

