-- ==== Sys2Proof/Laws/Words.lean ====
section
/-! SUPPORT. Bytes of words, vectors of four, and the block functions of the vector backends against the byte-by-byte fold
(44_mult128.md R211). -/

namespace Sys2Proof.Machine

/-! ### Bytes and numbers -/

theorem byteOf_eq_ofNat {n : Nat} (v : BitVec n) (j : Nat) : byteOf v j = BitVec.ofNat 8 (v.toNat / 256 ^ j) := by
  apply BitVec.eq_of_toNat_eq
  rw [byteOf, BitVec.extractLsb'_toNat, BitVec.toNat_ofNat, Nat.shiftRight_eq_div_pow, Nat.pow_mul]

theorem numberOfBytes_lt (bs : List Byte) : numberOfBytes bs < 256 ^ bs.length := by
  induction bs with
  | nil => simp [numberOfBytes]
  | cons b bs ih =>
    have hb : b.toNat < 256 := b.isLt
    rw [numberOfBytes, List.length_cons, Nat.pow_succ]
    omega

/-- Byte j of the number the bytes make up is the j-th of them. -/
theorem ofNat_numberOfBytes_div (bs : List Byte) (j : Nat) (h : j < bs.length) :
    BitVec.ofNat 8 (numberOfBytes bs / 256 ^ j) = bs[j] := by
  induction bs generalizing j with
  | nil => simp at h
  | cons b bs ih =>
    have hb : b.toNat < 256 := b.isLt
    cases j with
    | zero =>
      apply BitVec.eq_of_toNat_eq
      rw [numberOfBytes, BitVec.toNat_ofNat, Nat.pow_zero, Nat.div_one, List.getElem_cons_zero]
      omega
    | succ j =>
      rw [numberOfBytes, Nat.pow_succ, Nat.mul_comm (256 ^ j), ← Nat.div_div_eq_div_mul, List.getElem_cons_succ,
        ← ih j (by simpa using h)]
      congr 2
      omega

theorem byteOf_ofNat_numberOfBytes {n : Nat} (bs : List Byte) (j : Nat) (h : j < bs.length) (hn : 8 * bs.length ≤ n) :
    byteOf (BitVec.ofNat n (numberOfBytes bs)) j = bs[j] := by
  have hlt : numberOfBytes bs < 2 ^ n := by
    refine Nat.lt_of_lt_of_le (numberOfBytes_lt bs) ?_
    rw [show (256 : Nat) = 2 ^ 8 by rfl, ← Nat.pow_mul]
    exact Nat.pow_le_pow_right (by omega) hn
  rw [byteOf_eq_ofNat, BitVec.toNat_ofNat, Nat.mod_eq_of_lt hlt, ofNat_numberOfBytes_div bs j h]

/-- `MemRead` is the number its bytes make up (R62). -/
theorem Memory.readLE_eq (m : Memory) (a n : Nat) : Memory.readLE m a n = numberOfBytes (Memory.bytes m a n) := by
  induction n generalizing a with
  | zero => rfl
  | succ n ih => rw [Memory.readLE, ih, Memory.bytes, numberOfBytes]

/-- Byte j of a loaded block is the byte at the j-th address (R61). -/
theorem byteOf_load {n : Nat} (m : Memory) (a w j : Nat) (h : j < w) (hn : 8 * w ≤ n) :
    byteOf (BitVec.ofNat n (Memory.readLE m a w)) j = Memory.read m (a + j) := by
  rw [Memory.readLE_eq, byteOf_ofNat_numberOfBytes _ _ (by simpa using h) (by simpa using hn), Memory.getElem_bytes]

/-! ### Vectors of four -/

@[simp] theorem Quad.get_set_same (q : Quad) (i : Fin 4) (w : Word32) : (q.set i w).get i = w := by
  fin_cases i <;> rfl

theorem Quad.get_set_of_ne (q : Quad) {i j : Fin 4} (w : Word32) (h : j ≠ i) : (q.set i w).get j = q.get j := by
  fin_cases i <;> fin_cases j <;> first | rfl | exact absurd rfl h

theorem Quad.ext_get {q r : Quad} (h : ∀ i, q.get i = r.get i) : q = r := by
  cases q; cases r
  simpa [Quad.get] using And.intro (h 0) (And.intro (h 1) (And.intro (h 2) (h 3)))

/-- The vector rotated left by r lanes (R162). -/
def Quad.rotl (q : Quad) (r : Fin 4) : Quad := ⟨q.get r, q.get (r + 1), q.get (r + 2), q.get (r + 3)⟩

/-- The vector rotated right by r lanes (R164). -/
def Quad.rotr (q : Quad) (r : Fin 4) : Quad := ⟨q.get (0 - r), q.get (1 - r), q.get (2 - r), q.get (3 - r)⟩

theorem Quad.get_rotl (q : Quad) (r i : Fin 4) : (q.rotl r).get i = q.get (i + r) := by
  fin_cases i <;> fin_cases r <;> rfl

theorem Quad.get_rotr (q : Quad) (r i : Fin 4) : (q.rotr r).get i = q.get (i - r) := by
  fin_cases i <;> fin_cases r <;> rfl

@[simp] theorem Quad.rotr_rotl (q : Quad) (r : Fin 4) : (q.rotl r).rotr r = q := by
  apply Quad.ext_get; intro i; rw [Quad.get_rotr, Quad.get_rotl, sub_add_cancel]

theorem Quad.rotl_set (q : Quad) (r i : Fin 4) (w : Word32) : (q.rotl r).set i w = (q.set (i + r) w).rotl r := by
  fin_cases i <;> fin_cases r <;> rfl

theorem rotateLeft_lanes (s : State) : (rotateLeft s).lanes = s.lanes.rotl (Fin.ofNat 4 s.k.toNat) := rfl

theorem rotateLeft_rot (s : State) : (rotateLeft s).rot = Fin.ofNat 4 s.k.toNat := rfl

theorem rotateRight_lanes (s : State) : (rotateRight s).lanes = s.lanes.rotr s.rot := rfl

/-! ### Folds -/

theorem foldAcc_append (w : Word32) (bs cs : List Byte) : foldAcc w (bs ++ cs) = foldAcc (foldAcc w bs) cs := by
  induction bs generalizing w with
  | nil => rfl
  | cons b bs ih => exact ih _

theorem foldLanes_append (q : Quad) (l : Fin 4) (bs cs : List Byte) :
    foldLanes q l (bs ++ cs) = foldLanes (foldLanes q l bs) (l + Fin.ofNat 4 bs.length) cs := by
  induction bs generalizing q l with
  | nil => simp [foldLanes]
  | cons b bs ih =>
    simp only [List.cons_append, foldLanes, ih, List.length_cons]
    congr 1
    rw [add_assoc]
    congr 1
    ext; simp [Fin.val_add]; omega

/-- Folding into rotated registers from register l is folding from lane l + r, then rotating (R168). -/
theorem foldLanes_rotl (q : Quad) (r l : Fin 4) (bs : List Byte) :
    foldLanes (q.rotl r) l bs = (foldLanes q (l + r) bs).rotl r := by
  induction bs generalizing q l with
  | nil => rfl
  | cons b bs ih =>
    simp only [foldLanes]
    rw [Quad.rotl_set, Quad.get_rotl, ih, add_right_comm]

/-! ### The block functions (R211) -/

@[simp] theorem dwordOf_append_zero (a b : Word32) : dwordOf (a ++ b) 0 = b := by
  ext i hi
  simp only [dwordOf, BitVec.getElem_extractLsb', BitVec.getLsbD_append]
  simp [show i < 32 from hi]

@[simp] theorem dwordOf_append_one (a b : Word32) : dwordOf (a ++ b) 1 = a := by
  ext i hi
  simp only [dwordOf, BitVec.getElem_extractLsb', BitVec.getLsbD_append]
  simp [show ¬ (32 + i < 32) by omega, BitVec.getLsbD_eq_getElem hi]

theorem shiftLeft_five_add (s : Word32) : (s <<< 5) + s = s * multiplier := by
  apply BitVec.eq_of_toNat_eq
  have h : multiplier.toNat = 33 := rfl
  rw [BitVec.toNat_add, BitVec.toNat_shiftLeft, BitVec.toNat_mul, h, Nat.shiftLeft_eq]
  omega

theorem vecStepShift_eq (q g : Quad) : vecStepShift q g = vecStep q g := by
  simp [vecStepShift, vecStep, shiftLeft_five_add]

theorem gatherByte_eq (x : Word64) (n j : Nat) (h : n = 8 * j) : gatherByte x n = (byteOf x j).setWidth 32 := by
  subst h
  apply BitVec.eq_of_toNat_eq
  have h : (0xFF#64).toNat = 2 ^ 8 - 1 := rfl
  rw [gatherByte, byteOf, BitVec.toNat_setWidth, BitVec.toNat_setWidth, BitVec.toNat_and, h, Nat.and_two_pow_sub_one_eq_mod,
    BitVec.extractLsb'_toNat, BitVec.toNat_ushiftRight]

theorem gatherDword_eq {n : Nat} (x : BitVec n) (i sh j : Nat) (h : sh = 8 * (j - 4 * i)) (hj : 4 * i ≤ j)
    (hj' : j < 4 * i + 4) : (dwordOf x i >>> sh) &&& 0xFF = (byteOf x j).setWidth 32 := by
  subst h
  ext b hb
  have hb : b < 32 := hb
  have hm : (0xFF : Word32).getLsbD b = decide (b < 8) := by interval_cases b <;> rfl
  rw [BitVec.getElem_and, BitVec.getElem_setWidth, byteOf, BitVec.getLsbD_extractLsb', BitVec.getElem_ushiftRight,
    dwordOf, BitVec.getLsbD_extractLsb', ← BitVec.getLsbD_eq_getElem, hm, Bool.and_comm]
  rcases Nat.lt_or_ge b 8 with h8 | h8
  · rw [show 32 * i + (8 * (j - 4 * i) + b) = 8 * j + b by omega]
    simp [h8, show 8 * (j - 4 * i) + b < 32 by omega]
  · simp [show ¬ b < 8 by omega]

/-- The bytes of a loaded 8-byte or 16-byte block, in ascending order. -/
def blockBytes {n : Nat} (x : BitVec n) (w : Nat) : List Byte := (List.range w).map (byteOf x)

theorem blockBytes_load {n : Nat} (m : Memory) (a w : Nat) (hn : 8 * w ≤ n) :
    blockBytes (BitVec.ofNat n (Memory.readLE m a w)) w = Memory.bytes m a w := by
  apply List.ext_getElem
  · simp [blockBytes]
  · intro j h1 h2
    have hj : j < w := by simpa [blockBytes] using h1
    rw [Memory.getElem_bytes]
    simp [blockBytes, byteOf_load m a w j hj hn]

/-- The vector step folds one byte into each lane (R209). -/
theorem vecStep_bytes (q : Quad) (a b c d : Byte) :
    vecStep q ⟨a.setWidth 32, b.setWidth 32, c.setWidth 32, d.setWidth 32⟩ = foldLanes q 0 [a, b, c, d] := by
  cases q; rfl

/-- Four bytes on bring the fold back to lane 0. -/
theorem foldLanes_four (q : Quad) (a b c d : Byte) (bs : List Byte) :
    foldLanes q 0 (a :: b :: c :: d :: bs) = foldLanes (foldLanes q 0 [a, b, c, d]) 0 bs := rfl

/-- The narrow vector step on the two views is the four-lane vector step (R205, R209). -/
theorem stepVn_eq (x : Word64) (q : Quad) (t : Nat) :
    stepVn x q t = vecStep q ⟨gatherByte x (32 * t), gatherByte x (32 * t + 8), gatherByte x (32 * t + 16),
      gatherByte x (32 * t + 24)⟩ := by
  simp [stepVn, Quad.ofViews, vecStep2, Quad.ma, Quad.mb, gatherA, gatherB, vecStep]

theorem foldVn_eq (q : Quad) (x : Word64) : foldVn q x = foldLanes q 0 (blockBytes x 8) := by
  rw [show blockBytes x 8 = [byteOf x 0, byteOf x 1, byteOf x 2, byteOf x 3, byteOf x 4, byteOf x 5, byteOf x 6, byteOf x 7]
    from rfl, foldLanes_four, ← vecStep_bytes, ← vecStep_bytes, foldVn, stepVn_eq, stepVn_eq]
  congr 1
  · congr 1
    rw [gatherByte_eq x _ 0 rfl, gatherByte_eq x _ 1 rfl, gatherByte_eq x _ 2 rfl, gatherByte_eq x _ 3 rfl]
  · rw [gatherByte_eq x _ 4 rfl, gatherByte_eq x _ 5 rfl, gatherByte_eq x _ 6 rfl, gatherByte_eq x _ 7 rfl]

theorem gatherShift_eq (x : Word128) (t : Nat) :
    gatherShift x t = ⟨(byteOf x (4 * t)).setWidth 32, (byteOf x (4 * t + 1)).setWidth 32,
      (byteOf x (4 * t + 2)).setWidth 32, (byteOf x (4 * t + 3)).setWidth 32⟩ := by
  have h0 := gatherDword_eq x t 0 (4 * t) (by omega) (by omega) (by omega)
  rw [BitVec.ushiftRight_zero] at h0
  simp only [gatherShift, h0, gatherDword_eq x t 8 (4 * t + 1) (by omega) (by omega) (by omega),
    gatherDword_eq x t 16 (4 * t + 2) (by omega) (by omega) (by omega),
    gatherDword_eq x t 24 (4 * t + 3) (by omega) (by omega) (by omega)]

/-- The sixteen bytes of a block. -/
theorem blockBytes_sixteen (x : Word128) : blockBytes x 16 =
    [byteOf x 0, byteOf x 1, byteOf x 2, byteOf x 3, byteOf x 4, byteOf x 5, byteOf x 6, byteOf x 7,
     byteOf x 8, byteOf x 9, byteOf x 10, byteOf x 11, byteOf x 12, byteOf x 13, byteOf x 14, byteOf x 15] := rfl

theorem foldVa_eq (q : Quad) (x : Word128) : foldVa q x = foldLanes q 0 (blockBytes x 16) := by
  rw [blockBytes_sixteen, foldLanes_four, foldLanes_four, foldLanes_four, ← vecStep_bytes, ← vecStep_bytes, ← vecStep_bytes,
    ← vecStep_bytes, foldVa]
  simp only [vecStepShift_eq, gatherShift_eq]

/-- Byte j of the permuted block is byte PERM[j] of the block (R207). -/
theorem byteOf_permute (x : Word128) (j : Nat) (h : j < perm.length) : byteOf (permute x) j = byteOf x perm[j] := by
  rw [permute, byteOf_ofNat_numberOfBytes _ _ (by simpa using h) (by simp [perm]), List.getElem_map]

theorem gatherPermuted_eq (x : Word128) (t : Nat) (h : t < 4) :
    gatherPermuted (permute x) t = ⟨(byteOf x (4 * t)).setWidth 32, (byteOf x (4 * t + 1)).setWidth 32,
      (byteOf x (4 * t + 2)).setWidth 32, (byteOf x (4 * t + 3)).setWidth 32⟩ := by
  simp only [gatherPermuted, gatherDword_eq (permute x) 0 (8 * t) t (by omega) (by omega) (by omega),
    gatherDword_eq (permute x) 1 (8 * t) (4 + t) (by omega) (by omega) (by omega),
    gatherDword_eq (permute x) 2 (8 * t) (8 + t) (by omega) (by omega) (by omega),
    gatherDword_eq (permute x) 3 (8 * t) (12 + t) (by omega) (by omega) (by omega),
    byteOf_permute x t (by simp [perm]; omega), byteOf_permute x (4 + t) (by simp [perm]; omega),
    byteOf_permute x (8 + t) (by simp [perm]; omega), byteOf_permute x (12 + t) (by simp [perm]; omega)]
  interval_cases t <;> rfl

theorem foldVb_eq (q : Quad) (x : Word128) : foldVb q (permute x) = foldLanes q 0 (blockBytes x 16) := by
  rw [blockBytes_sixteen, foldLanes_four, foldLanes_four, foldLanes_four, ← vecStep_bytes, ← vecStep_bytes, ← vecStep_bytes,
    ← vecStep_bytes, foldVb]
  simp only [gatherPermuted_eq x _ (show 0 < 4 by omega), gatherPermuted_eq x _ (show 1 < 4 by omega),
    gatherPermuted_eq x _ (show 2 < 4 by omega), gatherPermuted_eq x _ (show 3 < 4 by omega)]

/-! ### Serialisation (R188, R210) -/

theorem byteOf_append_low {n k : Nat} (a : BitVec n) (b : BitVec k) (j : Nat) (h : 8 * j + 8 ≤ k) :
    byteOf (a ++ b) j = byteOf b j := by
  ext i hi
  simp only [byteOf, BitVec.getElem_extractLsb', BitVec.getLsbD_append]
  simp [show 8 * j + i < k by omega]

theorem byteOf_append_high {n k : Nat} (a : BitVec n) (b : BitVec k) (j : Nat) (h : k = 8 * j) (i : Nat) :
    byteOf (a ++ b) (j + i) = byteOf a i := by
  subst h
  ext c hc
  simp only [byteOf, BitVec.getElem_extractLsb', BitVec.getLsbD_append]
  simp [show ¬ 8 * (j + i) + c < 8 * j by omega, show 8 * (j + i) + c - 8 * j = 8 * i + c by omega]

/-- Digest byte j of four lanes is byte j mod 4 of lane j div 4 (R210). -/
theorem byteOf_joined (q : Quad) (j : Nat) (h : j < 16) :
    byteOf q.joined j = byteOf (q.get (Fin.ofNat 4 (j / 4))) (j % 4) := by
  have h0 : ∀ i, i < 4 → byteOf q.joined i = byteOf q.e0 i := fun i hi => by
    rw [Quad.joined, byteOf_append_low _ _ _ (by omega)]
  have h1 : ∀ i, i < 4 → byteOf q.joined (4 + i) = byteOf q.e1 i := fun i hi => by
    rw [Quad.joined, byteOf_append_high _ _ 4 rfl, byteOf_append_low _ _ _ (by omega)]
  have h2 : ∀ i, i < 4 → byteOf q.joined (4 + (4 + i)) = byteOf q.e2 i := fun i hi => by
    rw [Quad.joined, byteOf_append_high _ _ 4 rfl, byteOf_append_high _ _ 4 rfl, byteOf_append_low _ _ _ (by omega)]
  have h3 : ∀ i, i < 4 → byteOf q.joined (4 + (4 + (4 + i))) = byteOf q.e3 i := fun i hi => by
    rw [Quad.joined, byteOf_append_high _ _ 4 rfl, byteOf_append_high _ _ 4 rfl, byteOf_append_high _ _ 4 rfl]
  have h' : j / 4 < 4 := by omega
  obtain ⟨r, hr, hj⟩ : ∃ r, r < 4 ∧ j = 4 * (j / 4) + r := ⟨j % 4, by omega, by omega⟩
  have hm : j % 4 = r := by omega
  rw [hm]
  generalize j / 4 = d at *
  subst hj
  interval_cases d
  · rw [show 4 * 0 + r = r by omega]; exact h0 r hr
  · exact h1 r hr
  · rw [show 4 * 2 + r = 4 + (4 + r) by omega]; exact h2 r hr
  · rw [show 4 * 3 + r = 4 + (4 + (4 + r)) by omega]; exact h3 r hr

end Sys2Proof.Machine
end

