-- ==== Sys2Proof/Laws/Loops.lean ====
section
/-! SUPPORT. What the loops of a command do: the prefix, the main loop and the tail (42_splicer.md, 43_mult32.md), and the
words of the keyed permutation hash (46_siphash.md). -/

namespace Sys2Proof.Machine

/-- Everything but the working registers and the access log is the same: the register file, PHASE, memory, and the host. -/
structure SameOutside (s t : State) : Prop where
  hw : t.hw = s.hw
  cmd : t.cmd = s.cmd
  status : t.status = s.status
  err : t.err = s.err
  inAddr : t.inAddr = s.inAddr
  inLen : t.inLen = s.inLen
  keyAddr : t.keyAddr = s.keyAddr
  keyLen : t.keyLen = s.keyLen
  outAddr : t.outAddr = s.outAddr
  outCap : t.outCap = s.outCap
  phase : t.phase = s.phase
  mem : t.mem = s.mem
  host : t.host = s.host
  pace : t.pace = s.pace
  hostData : t.hostData = s.hostData
  free : t.free = s.free
  awaited : t.awaited = s.awaited

theorem SameOutside.refl (s : State) : SameOutside s s := by constructor <;> rfl

theorem SameOutside.trans {s t u : State} (h : SameOutside s t) (h' : SameOutside t u) : SameOutside s u := by
  constructor
  · rw [h'.hw, h.hw]
  · rw [h'.cmd, h.cmd]
  · rw [h'.status, h.status]
  · rw [h'.err, h.err]
  · rw [h'.inAddr, h.inAddr]
  · rw [h'.inLen, h.inLen]
  · rw [h'.keyAddr, h.keyAddr]
  · rw [h'.keyLen, h.keyLen]
  · rw [h'.outAddr, h.outAddr]
  · rw [h'.outCap, h.outCap]
  · rw [h'.phase, h.phase]
  · rw [h'.mem, h.mem]
  · rw [h'.host, h.host]
  · rw [h'.pace, h.pace]
  · rw [h'.hostData, h.hostData]
  · rw [h'.free, h.free]
  · rw [h'.awaited, h.awaited]

theorem sameOutside_loadK (b : Backend) (s : State) : SameOutside s (loadK b s) := by constructor <;> rfl
theorem sameOutside_laneStep (s : State) : SameOutside s (laneStep s) := by constructor <;> rfl
theorem sameOutside_accStep (s : State) : SameOutside s (accStep s) := by constructor <;> rfl
theorem sameOutside_rotateLeft (s : State) : SameOutside s (rotateLeft s) := by constructor <;> rfl
theorem sameOutside_rotateRight (s : State) : SameOutside s (rotateRight s) := by constructor <;> rfl
theorem sameOutside_initAcc (s : State) : SameOutside s (initAcc s) := by constructor <;> rfl
theorem sameOutside_initLanes (s : State) : SameOutside s (initLanes s) := by constructor <;> rfl
theorem sameOutside_block32 (s : State) : SameOutside s (block32 s) := by constructor <;> rfl
theorem sameOutside_blockOpt (s : State) : SameOutside s (blockOpt s) := by constructor <;> rfl
theorem sameOutside_blockVn (s : State) : SameOutside s (blockVn s) := by constructor <;> rfl
theorem sameOutside_blockVa (s : State) : SameOutside s (blockVa s) := by constructor <;> rfl
theorem sameOutside_blockVb (s : State) : SameOutside s (blockVb s) := by constructor <;> rfl
theorem sameOutside_ser32 (s : State) : SameOutside s (ser32 s) := by constructor <;> rfl
theorem sameOutside_ser128 (s : State) : SameOutside s (ser128 s) := by constructor <;> rfl
theorem sameOutside_mix (d : Nat) (s : State) : SameOutside s (mix d s) := by constructor <;> rfl
theorem sameOutside_sipInit (s : State) : SameOutside s (sipInit s) := by constructor <;> rfl
theorem sameOutside_sipWord (s : State) : SameOutside s (sipWord s) := by constructor <;> rfl
theorem sameOutside_sipLast (s : State) : SameOutside s (sipLast s) := by constructor <;> rfl
theorem sameOutside_sipFin (s : State) : SameOutside s (sipFin s) := by constructor <;> rfl

theorem SameOutside.loop {f : State → State} (h : ∀ s, SameOutside s (f s)) (n : Nat) (s : State) :
    SameOutside s (loop f n s) := by
  induction n generalizing s with
  | zero => exact .refl s
  | succ n ih => exact (h s).trans (ih _)

/-- Two states alike outside their working registers get the same verdict. -/
theorem SameOutside.verdict_eq {s t : State} (h : SameOutside s t) (i : Instr) : verdict i t = verdict i s := by
  simp only [verdict, h.hw, h.inAddr, h.inLen, h.keyAddr, h.keyLen, h.outAddr, h.outCap]

/-! ### Loops in general -/

theorem loop_add (f : State → State) (m n : Nat) (s : State) : loop f (m + n) s = loop f n (loop f m s) := by
  induction m generalizing s with
  | zero => rw [Nat.zero_add]; rfl
  | succ m ih => rw [show m + 1 + n = m + n + 1 by omega]; exact ih _

theorem pos_add_toNat {s : State} {n : Nat} (h : s.pos.toNat + n ≤ s.inLen.toNat) :
    (s.pos + BitVec.ofNat 64 n).toNat = s.pos.toNat + n := by
  have := s.inLen.isLt
  rw [BitVec.toNat_add, BitVec.toNat_ofNat, Nat.mod_eq_of_lt (a := n) (by omega), Nat.mod_eq_of_lt (by omega)]

theorem ofNat_add_four (l : Fin 4) (m n : Nat) : l + Fin.ofNat 4 m + Fin.ofNat 4 n = l + Fin.ofNat 4 (m + n) := by
  ext; simp [Fin.val_add]; omega

theorem byteReads_append (a m n : Nat) (l : List Access) :
    byteReads a (m + n) l = byteReads (a + m) n (byteReads a m l) := by
  induction m generalizing a l with
  | zero => simp [byteReads]
  | succ m ih => rw [show m + 1 + n = m + n + 1 by omega, byteReads, byteReads, ih]; congr 1; omega

/-! ### Single-byte steps -/

/-- A run of single-byte steps on the four lanes that stays inside the input (R161, R165). -/
theorem loop_laneStep (n : Nat) (s : State) (h : s.pos.toNat + n ≤ s.inLen.toNat) :
    loop laneStep n s = { s with
      lanes := foldLanes s.lanes s.lane (Memory.bytes s.mem (cursor s) n)
      lane := s.lane + Fin.ofNat 4 n
      pos := s.pos + BitVec.ofNat 64 n
      accesses := byteReads (cursor s) n s.accesses } := by
  induction n generalizing s with
  | zero => simp [loop, foldLanes, Memory.bytes, byteReads]
  | succ n ih =>
    have hp : (laneStep s).pos.toNat = s.pos.toNat + 1 := by
      rw [laneStep_pos]; exact pos_add_toNat (n := 1) (by omega)
    have hc : cursor (laneStep s) = cursor s + 1 := by
      rw [cursor, hp, laneStep_inAddr, cursor, Nat.add_assoc]
    rw [loop, ih _ (by rw [hp, laneStep_inLen]; omega), hc]
    have hl : s.lane + 1 + Fin.ofNat 4 n = s.lane + Fin.ofNat 4 (n + 1) := by
      rw [Nat.add_comm n 1]; exact ofNat_add_four s.lane 1 n
    have hq : s.pos + 1 + BitVec.ofNat 64 n = s.pos + BitVec.ofNat 64 (n + 1) := by
      rw [BitVec.add_assoc, Nat.add_comm n 1, BitVec.ofNat_add]; rfl
    simpa [laneStep, Memory.bytes, foldLanes, byteReads] using And.intro hl hq

/-- A run of single-byte steps on the accumulator that stays inside the input (R190). -/
theorem loop_accStep (n : Nat) (s : State) (h : s.pos.toNat + n ≤ s.inLen.toNat) :
    loop accStep n s = { s with
      lanes := { s.lanes with e0 := foldAcc s.lanes.e0 (Memory.bytes s.mem (cursor s) n) }
      pos := s.pos + BitVec.ofNat 64 n
      accesses := byteReads (cursor s) n s.accesses } := by
  induction n generalizing s with
  | zero => simp [loop, foldAcc, Memory.bytes, byteReads]
  | succ n ih =>
    have hp : (accStep s).pos.toNat = s.pos.toNat + 1 := by
      rw [accStep_pos]; exact pos_add_toNat (n := 1) (by omega)
    have hc : cursor (accStep s) = cursor s + 1 := by
      rw [cursor, hp, accStep_inAddr, cursor, Nat.add_assoc]
    rw [loop, ih _ (by rw [hp, accStep_inLen]; omega), hc]
    have hq : s.pos + 1 + BitVec.ofNat 64 n = s.pos + BitVec.ofNat 64 (n + 1) := by
      rw [BitVec.add_assoc, Nat.add_comm n 1, BitVec.ofNat_add]; rfl
    simpa [accStep, Memory.bytes, foldAcc, byteReads] using hq

/-! ### Main loops -/

/-- The accesses of m consecutive block loads, each put in front of a log by `acc` (R163). -/
def blockAccesses (acc : Nat → List Access → List Access) (w : Nat) : Nat → Nat → List Access → List Access
  | _, 0, l => l
  | a, m + 1, l => blockAccesses acc w (a + w) m (acc a l)

/-- What a main-loop iteration on four lanes does (R163, R211): it folds w bytes from register 0 on and moves POS by w. -/
structure FoldsBlock (f : State → State) (w : Nat) (acc : Nat → List Access → List Access) : Prop where
  outside : ∀ s, SameOutside s (f s)
  lanes : ∀ s, (f s).lanes = foldLanes s.lanes 0 (Memory.bytes s.mem (cursor s) w)
  lane : ∀ s, (f s).lane = s.lane
  k : ∀ s, (f s).k = s.k
  rot : ∀ s, (f s).rot = s.rot
  pos : ∀ s, (f s).pos = s.pos + BitVec.ofNat 64 w
  accesses : ∀ s, (f s).accesses = acc (cursor s) s.accesses

theorem foldsBlock_opt : FoldsBlock blockOpt 16 (fun a l => byteReads a 16 l) where
  outside := sameOutside_blockOpt
  lanes _ := rfl
  lane _ := rfl
  k _ := rfl
  rot _ := rfl
  pos _ := rfl
  accesses _ := rfl

theorem foldsBlock_vn : FoldsBlock blockVn 8 (fun a l => .read a 8 :: l) where
  outside := sameOutside_blockVn
  lanes s := by
    show foldVn s.lanes (load8 s) = _
    rw [foldVn_eq, load8, blockBytes_load _ _ _ (by omega)]
  lane _ := rfl
  k _ := rfl
  rot _ := rfl
  pos _ := rfl
  accesses _ := rfl

theorem foldsBlock_va : FoldsBlock blockVa 16 (fun a l => .read a 16 :: l) where
  outside := sameOutside_blockVa
  lanes s := by
    show foldVa s.lanes (load16 s) = _
    rw [foldVa_eq, load16, blockBytes_load _ _ _ (by omega)]
  lane _ := rfl
  k _ := rfl
  rot _ := rfl
  pos _ := rfl
  accesses _ := rfl

theorem foldsBlock_vb : FoldsBlock blockVb 16 (fun a l => .read a 16 :: l) where
  outside := sameOutside_blockVb
  lanes s := by
    show foldVb s.lanes (permute (load16 s)) = _
    rw [foldVb_eq, load16, blockBytes_load _ _ _ (by omega)]
  lane _ := rfl
  k _ := rfl
  rot _ := rfl
  pos _ := rfl
  accesses _ := rfl

/-- A main loop on four lanes that stays inside the input folds all its bytes from register 0 on (R163). -/
theorem FoldsBlock.loop {f : State → State} {w : Nat} {acc : Nat → List Access → List Access} (hf : FoldsBlock f w acc)
    (hw : w % 4 = 0) (m : Nat) (s : State) (h : s.pos.toNat + w * m ≤ s.inLen.toNat) :
    (loop f m s).lanes = foldLanes s.lanes 0 (Memory.bytes s.mem (cursor s) (w * m)) ∧ (loop f m s).lane = s.lane ∧
      (loop f m s).k = s.k ∧ (loop f m s).rot = s.rot ∧ (loop f m s).pos = s.pos + BitVec.ofNat 64 (w * m) ∧
      (loop f m s).accesses = blockAccesses acc w (cursor s) m s.accesses := by
  induction m generalizing s with
  | zero => simp [Machine.loop, foldLanes, Memory.bytes, blockAccesses]
  | succ m ih =>
    rw [Nat.mul_succ] at h
    have hp : (f s).pos.toNat = s.pos.toNat + w := by rw [hf.pos]; exact pos_add_toNat (by omega)
    have hc : cursor (f s) = cursor s + w := by rw [cursor, hp, (hf.outside s).inAddr, cursor, Nat.add_assoc]
    obtain ⟨h1, h2, h3, h4, h5, h6⟩ := ih (f s) (by rw [hp, (hf.outside s).inLen]; omega)
    have hz : (0 : Fin 4) + Fin.ofNat 4 w = 0 := by ext; simp [hw]
    refine ⟨?_, ?_, ?_, ?_, ?_, ?_⟩
    · rw [Machine.loop, h1, hf.lanes, (hf.outside s).mem, hc, Nat.mul_succ, Nat.add_comm (w * m), Memory.bytes_append,
        foldLanes_append, Memory.bytes_length, hz]
    · rw [Machine.loop, h2, hf.lane]
    · rw [Machine.loop, h3, hf.k]
    · rw [Machine.loop, h4, hf.rot]
    · rw [Machine.loop, h5, hf.pos, BitVec.add_assoc, ← BitVec.ofNat_add, Nat.mul_succ, Nat.add_comm w]
    · rw [Machine.loop, h6, hf.accesses, hc]; rfl

/-- A main loop of `Mult32(OPT)` that stays inside the input (R191). -/
theorem loop_block32 (m : Nat) (s : State) (h : s.pos.toNat + 16 * m ≤ s.inLen.toNat) :
    loop block32 m s = { s with
      lanes := { s.lanes with e0 := foldAcc s.lanes.e0 (Memory.bytes s.mem (cursor s) (16 * m)) }
      pos := s.pos + BitVec.ofNat 64 (16 * m)
      accesses := byteReads (cursor s) (16 * m) s.accesses } := by
  induction m generalizing s with
  | zero => simp [loop, foldAcc, Memory.bytes, byteReads]
  | succ m ih =>
    have hp : (block32 s).pos.toNat = s.pos.toNat + 16 := by
      rw [block32_pos]; exact pos_add_toNat (n := 16) (by omega)
    have hc : cursor (block32 s) = cursor s + 16 := by rw [cursor, hp, block32_inAddr, cursor, Nat.add_assoc]
    rw [loop, ih _ (by rw [hp, block32_inLen]; omega), hc]
    have hq : s.pos + 16 + BitVec.ofNat 64 (16 * m) = s.pos + BitVec.ofNat 64 (16 + 16 * m) := by
      rw [BitVec.add_assoc, BitVec.ofNat_add]; rfl
    rw [show 16 * (m + 1) = 16 + 16 * m by omega, Memory.bytes_append, foldAcc_append, byteReads_append]
    simp only [block32_mem, block32_pos, hq]
    rfl

end Sys2Proof.Machine
end

