-- ==== Sys2Proof/Laws/Digests.lean ====
section
/-! SUPPORT. The digest each command's body leaves in DG, and the accesses it makes, against the closed forms of Safety.lean. -/

namespace Sys2Proof.Machine

/-! ### Closed forms (R189, R217) -/

theorem toNat_byteStep (w : Word32) (b : Byte) : (byteStep w b).toNat = (w.toNat * 33 + b.toNat) % 2 ^ 32 := by
  have hb : b.toNat < 2 ^ 32 := Nat.lt_of_lt_of_le b.isLt (by decide)
  rw [byteStep, BitVec.toNat_add, BitVec.toNat_mul, BitVec.toNat_setWidth, Nat.mod_eq_of_lt hb,
    show multiplier.toNat = 33 from rfl]
  omega

/-- A fold of single-byte steps from any value, in closed form (R189). -/
theorem foldAcc_eq (w : Word32) (bs : List Byte) :
    foldAcc w bs = BitVec.ofNat 32 (w.toNat * 33 ^ bs.length + weightedSum bs) := by
  induction bs generalizing w with
  | nil => simp [foldAcc, weightedSum]
  | cons b bs ih =>
    rw [foldAcc, ih]
    apply BitVec.eq_of_toNat_eq
    rw [BitVec.toNat_ofNat, BitVec.toNat_ofNat, toNat_byteStep, List.length_cons, weightedSum, Nat.pow_succ]
    rw [Nat.add_mod, Nat.mod_mul_mod, ← Nat.add_mod]
    congr 1
    ring

theorem foldAcc_initial (bs : List Byte) : foldAcc initialLane bs = closedForm bs := foldAcc_eq _ _

/-- How many bytes come before the first one lane i takes, when the next byte goes to lane l. -/
def laneDistance (l i : Fin 4) : Nat := (i - l).val

/-- Each lane of a fold on four lanes is a fold of its own bytes (R217). -/
theorem get_foldLanes (q : Quad) (l i : Fin 4) (bs : List Byte) :
    (foldLanes q l bs).get i = foldAcc (q.get i) (everyFourth (laneDistance l i) bs) := by
  induction bs generalizing q l with
  | nil => cases h : laneDistance l i <;> simp [foldLanes, everyFourth, foldAcc]
  | cons b bs ih =>
    rw [foldLanes, ih]
    rcases eq_or_ne i l with rfl | hne
    · have h0 : laneDistance i i = 0 := by simp [laneDistance]
      have h3 : laneDistance (i + 1) i = 3 := by fin_cases i <;> rfl
      rw [h0, h3, Quad.get_set_same, everyFourth, foldAcc]
    · have h1 : laneDistance l i = laneDistance (l + 1) i + 1 := by
        revert hne; fin_cases l <;> fin_cases i <;> decide
      rw [h1, Quad.get_set_of_ne _ _ hne, everyFourth]

/-- The four lanes over a run of bytes, in closed form (R217). -/
theorem foldLanes_initial (bs : List Byte) :
    foldLanes ⟨initialLane, initialLane, initialLane, initialLane⟩ 0 bs = closedLanes bs := by
  apply Quad.ext_get
  intro i
  rw [get_foldLanes]
  fin_cases i <;> exact foldAcc_initial _

/-! ### Bytes of the staging register -/

@[simp] theorem lowBytes_length {k : Nat} (v : BitVec k) (n : Nat) : (lowBytes v n).length = n := by simp [lowBytes]

theorem getElem_lowBytes {k : Nat} (v : BitVec k) (n j : Nat) (h : j < (lowBytes v n).length) :
    (lowBytes v n)[j] = byteOf v j := by simp [lowBytes]

theorem lowBytes_ser32 (s : State) : lowBytes (ser32 s).dg 4 = lowBytes s.lanes.e0 4 := by
  apply List.ext_getElem (by simp)
  intro j h1 h2
  have hj : j < 4 := by simpa using h1
  rw [getElem_lowBytes, getElem_lowBytes, ser32_dg, byteOf_append_low _ _ _ (by omega)]

theorem lowBytes_joined (q : Quad) : lowBytes q.joined 16 = laneBytes q := by
  apply List.ext_getElem (by simp [laneBytes])
  intro j h1 h2
  have hj : j < 16 := by simpa using h1
  rw [getElem_lowBytes, byteOf_joined q j hj]
  simp only [laneBytes, lowBytes]
  interval_cases j <;> rfl

theorem lowBytes_sipFin (s : State) : lowBytes (sipFin s).dg 8 = lowBytes (sipDigest (sipFinalize s.v)) 8 := by
  apply List.ext_getElem (by simp)
  intro j h1 h2
  have hj : j < 8 := by simpa using h1
  rw [getElem_lowBytes, getElem_lowBytes]
  exact byteOf_append_low _ _ _ (by omega)

theorem byteOf_xor {n : Nat} (a b : BitVec n) (j : Nat) : byteOf (a ^^^ b) j = byteOf a j ^^^ byteOf b j := by
  ext i hi; simp [byteOf]

/-- The mixer byte by byte (R230). -/
theorem lowBytes_mix (d : Nat) (s : State) (hd : d ≤ 16) :
    lowBytes (mix d s).dg d = xorBytes (lowBytes s.dg d) (keyBytes s d) := by
  apply List.ext_getElem (by simp [xorBytes, keyBytes])
  intro j h1 h2
  have hj : j < d := by simpa using h1
  rw [getElem_lowBytes, mix_dg, byteOf_xor, byteOf_load _ _ _ _ hj (by omega)]
  simp [xorBytes, getElem_lowBytes, keyBytes, Memory.getElem_bytes]

/-! ### The access log -/

theorem readsFrom_succ (a n : Nat) : readsFrom a (n + 1) = .read a 1 :: readsFrom (a + 1) n := by
  simp only [readsFrom, List.range_succ_eq_map, List.map_cons, List.map_map]
  congr 1
  apply List.map_congr_left
  intro j _
  simp [Nat.add_assoc, Nat.add_comm 1]

theorem blocksFrom_succ (a w m : Nat) : blocksFrom a w (m + 1) = .read a w :: blocksFrom (a + w) w m := by
  simp only [blocksFrom, List.range_succ_eq_map, List.map_cons, List.map_map]
  congr 1
  apply List.map_congr_left
  intro j _
  simp [Nat.mul_succ, Nat.add_assoc, Nat.add_comm w]

theorem byteReads_eq (a n : Nat) (l : List Access) : byteReads a n l = (readsFrom a n).reverse ++ l := by
  induction n generalizing a l with
  | zero => rfl
  | succ n ih => rw [byteReads, ih, readsFrom_succ]; simp

theorem blockAccesses_reads (w a m : Nat) (l : List Access) :
    blockAccesses (fun a l => byteReads a w l) w a m l = (readsFrom a (w * m)).reverse ++ l := by
  induction m generalizing a l with
  | zero => rfl
  | succ m ih =>
    rw [blockAccesses, ih, Nat.mul_succ, Nat.add_comm (w * m), ← byteReads_eq, ← byteReads_eq, byteReads_append]

theorem blockAccesses_loads (w a m : Nat) (l : List Access) :
    blockAccesses (fun a l => .read a w :: l) w a m l = (blocksFrom a w m).reverse ++ l := by
  induction m generalizing a l with
  | zero => rfl
  | succ m ih => rw [blockAccesses, ih, blocksFrom_succ]; simp

theorem readsFrom_append (a m n : Nat) : readsFrom a (m + n) = readsFrom a m ++ readsFrom (a + m) n := by
  have := byteReads_append a m n []
  rw [byteReads_eq, byteReads_eq, byteReads_eq] at this
  simpa using congrArg List.reverse this

/-- The input cut into prefix, blocks and tail (R166). -/
theorem bytes_split (mem : Memory) (a : Nat) {n k j : Nat} (h : k + j ≤ n) :
    Memory.bytes mem a n =
      Memory.bytes mem a k ++ Memory.bytes mem (a + k) j ++ Memory.bytes mem (a + (k + j)) (n - (k + j)) := by
  conv_lhs => rw [show n = k + j + (n - (k + j)) by omega, Memory.bytes_append, Memory.bytes_append]

theorem readsFrom_split (a : Nat) {n k j : Nat} (h : k + j ≤ n) :
    readsFrom a n = readsFrom a k ++ readsFrom (a + k) j ++ readsFrom (a + (k + j)) (n - (k + j)) := by
  conv_lhs => rw [show n = k + j + (n - (k + j)) by omega, readsFrom_append, readsFrom_append]

/-! ### The 32-bit bodies -/

theorem cursor_zero {s : State} (h : s.pos = 0) : cursor s = s.inAddr.toNat := by rw [cursor, h]; simp

theorem ofNat_inLen (s : State) : BitVec.ofNat 64 s.inLen.toNat = s.inLen := by simp

/-- `Mult32(REF)` (R190). -/
theorem mult32Ref_eq (s : State) : mult32Ref s = { s with
    lanes := { s.lanes with e0 := closedForm (inputBytes s) }
    pos := s.inLen
    accesses := (readsFrom s.inAddr.toNat s.inLen.toNat).reverse ++ s.accesses } := by
  have hp : (initAcc s).pos.toNat = 0 := by simp
  rw [mult32Ref, foldAccTail, hp, Nat.sub_zero, initAcc_inLen, loop_accStep _ _ (by rw [hp]; simp), cursor_zero rfl,
    byteReads_eq]
  have he : foldAcc (initAcc s).lanes.e0 (Memory.bytes s.mem s.inAddr.toNat s.inLen.toNat) = closedForm (inputBytes s) :=
    foldAcc_initial _
  simp [he]
  simp [initAcc]

theorem prefixLength_le (w a n : Nat) : prefixLength w a n ≤ n := Nat.min_le_right _ _

theorem gap_lt (w a : Nat) (hw : 0 < w) : gap w a < w := Nat.mod_lt _ hw

theorem prefixLength_lt (w a n : Nat) (hw : 0 < w) : prefixLength w a n < w :=
  Nat.lt_of_le_of_lt (Nat.min_le_left _ _) (gap_lt w a hw)

theorem alignWidth_pos (b : Backend) : 0 < alignWidth b := by cases b <;> decide

theorem alignWidth_le (b : Backend) : alignWidth b ≤ 16 := by cases b <;> decide

/-- K holds the prefix length whole: it is below 16 (R37, R160). -/
theorem loadK_k_toNat (b : Backend) (s : State) :
    (loadK b s).k.toNat = prefixLength (alignWidth b) s.inAddr.toNat s.inLen.toNat := by
  have h1 := prefixLength_lt (alignWidth b) s.inAddr.toNat s.inLen.toNat (alignWidth_pos b)
  have h2 := alignWidth_le b
  rw [loadK_k, BitVec.toNat_ofNat, Nat.mod_eq_of_lt (by omega)]

theorem stride_mul_blockCount_le (st n k : Nat) (hk : k ≤ n) : k + st * blockCount st n k ≤ n := by
  have := Nat.div_mul_le_self (n - k) st
  rw [blockCount, Nat.mul_comm]; omega

/-- `Mult32(OPT)` (R191): the same fold, with K written. -/
theorem mult32Opt_eq (s : State) : mult32Opt s = { s with
    lanes := { s.lanes with e0 := closedForm (inputBytes s) }
    k := BitVec.ofNat 5 (prefixLength 16 s.inAddr.toNat s.inLen.toNat)
    pos := s.inLen
    accesses := (readsFrom s.inAddr.toNat s.inLen.toNat).reverse ++ s.accesses } := by
  set s0 := loadK .opt (initAcc s) with hs0
  have hp0 : s0.pos = 0 := rfl
  have hl0 : s0.inLen = s.inLen := rfl
  have ha0 : s0.inAddr = s.inAddr := rfl
  have hk : s0.k.toNat = prefixLength 16 s.inAddr.toNat s.inLen.toNat := loadK_k_toNat .opt (initAcc s)
  have hkn := prefixLength_le 16 s.inAddr.toNat s.inLen.toNat
  have hm := stride_mul_blockCount_le 16 s.inLen.toNat _ hkn
  have hz : s0.pos.toNat = 0 := by rw [hp0]; rfl
  show foldAccTail (mainLoop .opt block32 (loop accStep s0.k.toNat s0)) = _
  rw [hk]
  set k := prefixLength 16 s.inAddr.toNat s.inLen.toNat with hkdef
  set m := blockCount 16 s.inLen.toNat k with hmdef
  have hpk : (0 + BitVec.ofNat 64 k : Word64).toNat = k := by
    have := s.inLen.isLt
    rw [zero_add, BitVec.toNat_ofNat, Nat.mod_eq_of_lt (by omega)]
  rw [loop_accStep k s0 (by rw [hz, hl0]; omega), mainLoop]
  simp only [hp0, hl0, hk]
  rw [show stride .opt = 16 from rfl, ← hmdef, loop_block32 m _ (by simp only [hpk]; omega)]
  have hpm : (0 + BitVec.ofNat 64 k + BitVec.ofNat 64 (16 * m) : Word64).toNat = k + 16 * m := by
    have := s.inLen.isLt
    rw [zero_add, ← BitVec.ofNat_add, BitVec.toNat_ofNat, Nat.mod_eq_of_lt (by omega)]
  rw [foldAccTail]
  simp only [hpm]
  rw [loop_accStep _ _ (by simp only [hpm]; omega)]
  have hsplit : s.inLen.toNat = k + 16 * m + (s.inLen.toNat - (k + 16 * m)) := by omega
  have hpos : (0 + BitVec.ofNat 64 k + BitVec.ofNat 64 (16 * m) + BitVec.ofNat 64 (s.inLen.toNat - (k + 16 * m)) : Word64)
      = s.inLen := by
    rw [zero_add, ← BitVec.ofNat_add, ← BitVec.ofNat_add, ← hsplit]; simp
  rw [← foldAcc_initial, inputBytes, bytes_split s.mem s.inAddr.toNat hm, foldAcc_append, foldAcc_append,
    readsFrom_split s.inAddr.toNat hm]
  simp only [cursor, hpk, hpm, hpos, ha0, byteReads_eq, hz, Nat.add_zero]
  simp [hs0, loadK, initAcc, alignWidth, ← hkdef, List.append_assoc]

/-! ### The 128-bit bodies -/

theorem fin4_ofNat_zero_add (n : Nat) : (0 : Fin 4) + Fin.ofNat 4 n = Fin.ofNat 4 n := zero_add _

/-- `Mult128(REF)` (R212). -/
theorem mult128Ref_eq (s : State) : mult128Ref s = { s with
    lanes := closedLanes (inputBytes s)
    lane := Fin.ofNat 4 s.inLen.toNat
    pos := s.inLen
    accesses := (readsFrom s.inAddr.toNat s.inLen.toNat).reverse ++ s.accesses } := by
  have hp : (initLanes s).pos.toNat = 0 := by simp
  rw [mult128Ref, foldTail, hp, Nat.sub_zero, initLanes_inLen, loop_laneStep _ _ (by rw [hp]; simp), cursor_zero rfl,
    byteReads_eq]
  have he : foldLanes (initLanes s).lanes (initLanes s).lane (Memory.bytes s.mem s.inAddr.toNat s.inLen.toNat)
      = closedLanes (inputBytes s) := foldLanes_initial _
  rw [initLanes_mem, initLanes_inAddr, he]
  simp [initLanes]

theorem stride_mod_four {b : Backend} (hb : b ≠ .ref) : stride b % 4 = 0 := by cases b <;> first | rfl | exact absurd rfl hb

/-- What `Mult128(backend)` leaves, whatever the block function, as long as it folds its block from register 0 on: the lanes
of the reference backend (R168, R216). -/
theorem mult128Spliced_eq {b : Backend} {block : State → State} {acc : Nat → List Access → List Access}
    (hb : b ≠ .ref) (hf : FoldsBlock block (stride b) acc) (s : State) :
    let k := prefixLength (alignWidth b) s.inAddr.toNat s.inLen.toNat
    let m := blockCount (stride b) s.inLen.toNat k
    let t := mult128Spliced b block s
    SameOutside s t ∧ t.lanes = closedLanes (inputBytes s) ∧ t.pos = s.inLen ∧
      t.accesses = (readsFrom (s.inAddr.toNat + (k + stride b * m)) (s.inLen.toNat - (k + stride b * m))).reverse ++
        blockAccesses acc (stride b) (s.inAddr.toNat + k) m ((readsFrom s.inAddr.toNat k).reverse ++ s.accesses) := by
  intro k m t
  have hkn : k ≤ s.inLen.toNat := prefixLength_le _ _ _
  have hm : k + stride b * m ≤ s.inLen.toNat := stride_mul_blockCount_le _ _ _ hkn
  have hlt := s.inLen.isLt
  -- the prefix
  have hk0 : (loadK b (initLanes s)).k.toNat = k := loadK_k_toNat b (initLanes s)
  have hp0 : (loadK b (initLanes s)).pos.toNat = 0 := by simp
  have h1 : foldPrefix (loadK b (initLanes s)) = _ :=
    loop_laneStep _ (loadK b (initLanes s)) (by rw [hk0, hp0]; simpa using hkn)
  set s1 := foldPrefix (loadK b (initLanes s)) with hs1
  have o1 : SameOutside s s1 := (sameOutside_initLanes s).trans ((sameOutside_loadK b _).trans
    (SameOutside.loop sameOutside_laneStep _ _))
  have hc0 : cursor (loadK b (initLanes s)) = s.inAddr.toNat := cursor_zero rfl
  rw [hk0, hc0] at h1
  have hk1 : s1.k.toNat = k := by rw [h1]; exact hk0
  have hp1 : s1.pos.toNat = k := by
    rw [h1]
    show ((0 : Word64) + BitVec.ofNat 64 k).toNat = k
    rw [zero_add, BitVec.toNat_ofNat, Nat.mod_eq_of_lt (by omega)]
  have hl1 : s1.lanes = foldLanes ⟨initialLane, initialLane, initialLane, initialLane⟩ 0 (Memory.bytes s.mem s.inAddr.toNat k) := by
    rw [h1]; rfl
  have hn1 : s1.lane = Fin.ofNat 4 k := by rw [h1]; exact fin4_ofNat_zero_add k
  have ha1 : s1.accesses = (readsFrom s.inAddr.toNat k).reverse ++ s.accesses := by rw [h1, ← byteReads_eq]; rfl
  -- the left rotation
  set r := Fin.ofNat 4 k with hr
  have hl2 : (rotateLeft s1).lanes = s1.lanes.rotl r := by rw [rotateLeft_lanes, hk1]
  have hr2 : (rotateLeft s1).rot = r := by rw [rotateLeft_rot, hk1]
  -- the main loop
  have o2 : SameOutside s (rotateLeft s1) := o1.trans (sameOutside_rotateLeft _)
  have hc2 : cursor (rotateLeft s1) = s.inAddr.toNat + k := by
    rw [cursor, o2.inAddr, rotateLeft_pos, hp1]
  obtain ⟨l3, n3, k3, r3, p3, a3⟩ := hf.loop (stride_mod_four hb) m (rotateLeft s1)
    (by rw [rotateLeft_pos, hp1, o2.inLen]; exact hm)
  have hmain : mainLoop b block (rotateLeft s1) = loop block m (rotateLeft s1) := by
    rw [mainLoop, o2.inLen, rotateLeft_k, hk1]
  set s3 := loop block m (rotateLeft s1) with hs3
  have o3 : SameOutside s s3 := o2.trans (SameOutside.loop hf.outside _ _)
  -- the right rotation
  have o4 : SameOutside s (rotateRight s3) := o3.trans (sameOutside_rotateRight _)
  have hl4 : (rotateRight s3).lanes = foldLanes s1.lanes r (Memory.bytes s.mem (s.inAddr.toNat + k) (stride b * m)) := by
    rw [rotateRight_lanes, r3, hr2, l3, hl2, foldLanes_rotl, Quad.rotr_rotl, hc2, o2.mem, zero_add]
  have hp4 : (rotateRight s3).pos.toNat = k + stride b * m := by
    rw [rotateRight_pos, p3, pos_add_toNat (by rw [rotateLeft_pos, hp1, o2.inLen]; exact hm), rotateLeft_pos, hp1]
  have hc4 : cursor (rotateRight s3) = s.inAddr.toNat + (k + stride b * m) := by rw [cursor, o4.inAddr, hp4]
  have hn4 : (rotateRight s3).lane = Fin.ofNat 4 k := by rw [rotateRight_lane, n3, rotateLeft_lane, hn1]
  -- the tail
  have ht : t = foldTail (rotateRight s3) := by
    show foldTail (rotateRight (mainLoop b block (rotateLeft s1))) = _
    rw [hmain]
  have htail : foldTail (rotateRight s3) = loop laneStep (s.inLen.toNat - (k + stride b * m)) (rotateRight s3) := by
    rw [foldTail, o4.inLen, hp4]
  rw [loop_laneStep _ (rotateRight s3) (by rw [hp4, o4.inLen]; omega)] at htail
  rw [ht]
  have hn : (0 : Fin 4) + Fin.ofNat 4 (k + stride b * m) = Fin.ofNat 4 k := by
    have := stride_mod_four hb
    ext; simp [Nat.add_mod, Nat.mul_mod, this]
  refine ⟨o4.trans (SameOutside.loop sameOutside_laneStep _ _), ?_, ?_, ?_⟩
  · rw [htail, ← foldLanes_initial, inputBytes, bytes_split s.mem s.inAddr.toNat hm, foldLanes_append, foldLanes_append]
    show foldLanes (rotateRight s3).lanes (rotateRight s3).lane (Memory.bytes (rotateRight s3).mem (cursor (rotateRight s3)) _) = _
    rw [hl4, hn4, hc4, o4.mem, hl1, List.length_append, Memory.bytes_length, Memory.bytes_length, hn, fin4_ofNat_zero_add]
  · rw [htail]
    show (rotateRight s3).pos + _ = _
    rw [rotateRight_pos, p3, rotateLeft_pos, h1]
    show (0 : Word64) + BitVec.ofNat 64 k + _ + _ = _
    rw [zero_add, ← BitVec.ofNat_add, ← BitVec.ofNat_add,
      show k + stride b * m + (s.inLen.toNat - (k + stride b * m)) = s.inLen.toNat by omega]
    simp
  · rw [htail]
    show byteReads (cursor (rotateRight s3)) _ (rotateRight s3).accesses = _
    rw [byteReads_eq, hc4, rotateRight_accesses, a3, hc2, rotateLeft_accesses, ha1]

/-! ### The keyed permutation hash -/

theorem sipAbsorb_succ_last (n : Nat) (w : SipWords) (bs : List Byte) :
    sipAbsorb (n + 1) w bs =
      sipCompress (sipAbsorb n w bs) (BitVec.ofNat 64 (numberOfBytes ((bs.drop (8 * n)).take 8))) := by
  induction n generalizing w bs with
  | zero => simp [sipAbsorb]
  | succ n ih =>
    rw [sipAbsorb, ih, sipAbsorb, List.drop_drop, Nat.mul_succ, Nat.add_comm]

theorem bytes_take (mem : Memory) (a : Nat) {n k : Nat} (h : k ≤ n) :
    (Memory.bytes mem a n).take k = Memory.bytes mem a k := by
  conv_lhs => rw [show n = k + (n - k) by omega, Memory.bytes_append]
  rw [List.take_left' (by simp)]

theorem bytes_drop (mem : Memory) (a : Nat) {n k : Nat} (h : k ≤ n) :
    (Memory.bytes mem a n).drop k = Memory.bytes mem (a + k) (n - k) := by
  conv_lhs => rw [show n = k + (n - k) by omega, Memory.bytes_append]
  rw [List.drop_left' (by simp)]

/-- The words of SIP (R247): q full words absorbed. -/
theorem loop_sipWord (q : Nat) (s : State) (h : s.pos.toNat + 8 * q ≤ s.inLen.toNat) :
    (loop sipWord q s).v = sipAbsorb q s.v (Memory.bytes s.mem (cursor s) (8 * q)) ∧
      (loop sipWord q s).pos = s.pos + BitVec.ofNat 64 (8 * q) ∧
      (loop sipWord q s).dg = s.dg ∧
      (loop sipWord q s).accesses = byteReads (cursor s) (8 * q) s.accesses := by
  induction q generalizing s with
  | zero => simp [loop, sipAbsorb, byteReads]
  | succ q ih =>
    have hp : (sipWord s).pos.toNat = s.pos.toNat + 8 := by rw [sipWord_pos]; exact pos_add_toNat (n := 8) (by omega)
    have hc : cursor (sipWord s) = cursor s + 8 := by rw [cursor, hp, sipWord_inAddr, cursor, Nat.add_assoc]
    obtain ⟨h1, h2, h3, h4⟩ := ih (sipWord s) (by rw [hp, sipWord_inLen]; omega)
    rw [loop, h1, h2, h3, h4, hc, show 8 * (q + 1) = 8 + 8 * q by omega]
    refine ⟨?_, ?_, rfl, ?_⟩
    · rw [sipAbsorb, bytes_take _ _ (by omega), bytes_drop _ _ (by omega), Nat.add_sub_cancel_left, ← Memory.readLE_eq]
      rfl
    · rw [sipWord_pos, BitVec.add_assoc, BitVec.ofNat_add]; rfl
    · rw [byteReads_append]; rfl

/-- `SipHash24()` (R251). -/
theorem sipHash24_spec (s : State) :
    SameOutside s (sipHash24 s) ∧
      lowBytes (sipHash24 s).dg 8 = lowBytes (sipHash (keyBytes s 16) (inputBytes s)) 8 ∧
      (sipHash24 s).accesses = (readsFrom s.keyAddr.toNat 16 ++ readsFrom s.inAddr.toNat s.inLen.toNat).reverse ++
        s.accesses := by
  have hq : 8 * (s.inLen.toNat / 8) ≤ s.inLen.toNat := Nat.mul_div_le _ _
  have hp0 : (sipInit s).pos.toNat = 0 := by simp
  have hc0 : cursor (sipInit s) = s.inAddr.toNat := cursor_zero rfl
  obtain ⟨h1, h2, -, h4⟩ := loop_sipWord (s.inLen.toNat / 8) (sipInit s) (by rw [hp0, sipInit_inLen]; omega)
  have o1 : SameOutside s (loop sipWord (s.inLen.toNat / 8) (sipInit s)) :=
    (sameOutside_sipInit s).trans (SameOutside.loop sameOutside_sipWord _ _)
  set s1 := loop sipWord (s.inLen.toNat / 8) (sipInit s) with hs1
  have hp1 : s1.pos.toNat = 8 * (s.inLen.toNat / 8) := by
    rw [h2, pos_add_toNat (by rw [hp0, sipInit_inLen]; omega), hp0, Nat.zero_add]
  have hc1 : cursor s1 = s.inAddr.toNat + 8 * (s.inLen.toNat / 8) := by rw [cursor, hp1, o1.inAddr]
  refine ⟨o1.trans ((sameOutside_sipLast _).trans (sameOutside_sipFin _)), ?_, ?_⟩
  · rw [sipHash24, lowBytes_sipFin, sipHash]
    have hk0 : (keyBytes s 16).take 8 = Memory.bytes s.mem s.keyAddr.toNat 8 := bytes_take _ _ (by omega)
    have hk1 : (keyBytes s 16).drop 8 = Memory.bytes s.mem (s.keyAddr.toNat + 8) 8 := bytes_drop _ _ (by omega)
    have hlen : (inputBytes s).length = s.inLen.toNat := Memory.bytes_length _ _ _
    have hdrop : (inputBytes s).drop (8 * (s.inLen.toNat / 8)) =
        Memory.bytes s.mem (s.inAddr.toNat + 8 * (s.inLen.toNat / 8)) (s.inLen.toNat % 8) := by
      rw [inputBytes, bytes_drop _ _ hq]; congr 1; omega
    have habs : s1.v = sipAbsorb (s.inLen.toNat / 8)
        (sipInitWords (BitVec.ofNat 64 (numberOfBytes ((keyBytes s 16).take 8)))
          (BitVec.ofNat 64 (numberOfBytes ((keyBytes s 16).drop 8)))) (inputBytes s) := by
      rw [h1, hc0, hk0, hk1, ← Memory.readLE_eq, ← Memory.readLE_eq]
      have : ∀ (n : Nat) (w : SipWords) (bs cs : List Byte), bs.length = 8 * n →
          sipAbsorb n w bs = sipAbsorb n w (bs ++ cs) := by
        intro n
        induction n with
        | zero => intros; rfl
        | succ n ih =>
          intro w bs cs hl
          rw [sipAbsorb, sipAbsorb, List.take_append_of_le_length (by omega), List.drop_append_of_le_length (by omega)]
          exact ih _ _ _ (by rw [List.length_drop]; omega)
      rw [this _ _ _ (Memory.bytes s.mem (s.inAddr.toNat + 8 * (s.inLen.toNat / 8)) (s.inLen.toNat % 8)) (by simp)]
      congr 1
      show Memory.bytes s.mem s.inAddr.toNat (8 * (s.inLen.toNat / 8)) ++ _ = _
      rw [← Memory.bytes_append, Nat.div_add_mod]; rfl
    have hlast : (sipLast s1).v = sipCompress s1.v (sipFinalWord s1.inLen.toNat
        (Memory.readLE s1.mem (cursor s1) (s1.inLen.toNat % 8))) := rfl
    rw [hlast, habs, o1.inLen, o1.mem, hc1, hlen, hdrop, ← Memory.readLE_eq]
  · show byteReads (cursor s1) (s1.inLen.toNat % 8) s1.accesses = _
    rw [h4, hc0, hc1, o1.inLen, ← byteReads_append, Nat.div_add_mod]
    show byteReads _ _ (byteReads _ _ _) = _
    rw [byteReads_eq, byteReads_eq, List.reverse_append, List.append_assoc]

end Sys2Proof.Machine
end

