-- ==== Sys2Proof/Laws/Commands.lean ====
section
/-! SUPPORT. What a command does, said once: exec is the shared skeleton over the command's body, the skeleton has four
outcomes, and each body leaves the digest of Safety.lean in DG and makes the accesses R73 lists. -/

namespace Sys2Proof.Machine

/-- The part of a command between validation and the digest write. -/
def commandBody : Instr → State → State
  | .m32Ref => fun s => ser32 (mult32Ref s)
  | .m32Opt => fun s => ser32 (mult32Opt s)
  | .m32kRef => fun s => mix 4 (ser32 (mult32Ref s))
  | .m32kOpt => fun s => mix 4 (ser32 (mult32Opt s))
  | .m128Ref => fun s => mix 16 (ser128 (mult128Ref s))
  | .m128Opt => fun s => mix 16 (ser128 (mult128Spliced .opt blockOpt s))
  | .m128Vn => fun s => mix 16 (ser128 (mult128Spliced .vn blockVn s))
  | .m128Va => fun s => mix 16 (ser128 (mult128Spliced .va blockVa s))
  | .m128Vb => fun s => mix 16 (ser128 (mult128Spliced .vb blockVb s))
  | .sipRef => sipHash24

theorem exec_eq_runCommand (i : Instr) (s : State) : exec i s = runCommand i (commandBody i) s := by cases i <;> rfl

/-! ### The bodies -/

theorem sameOutside_mult32Ref (s : State) : SameOutside s (mult32Ref s) := by rw [mult32Ref_eq]; constructor <;> rfl
theorem sameOutside_mult32Opt (s : State) : SameOutside s (mult32Opt s) := by rw [mult32Opt_eq]; constructor <;> rfl
theorem sameOutside_mult128Ref (s : State) : SameOutside s (mult128Ref s) := by rw [mult128Ref_eq]; constructor <;> rfl

/-- Two states alike outside the working registers hold the same input and key bytes. -/
theorem SameOutside.inputBytes_eq {s t : State} (h : SameOutside s t) : inputBytes t = inputBytes s := by
  simp only [inputBytes, h.mem, h.inAddr, h.inLen]

theorem SameOutside.keyBytes_eq {s t : State} (h : SameOutside s t) (n : Nat) : keyBytes t n = keyBytes s n := by
  simp only [keyBytes, h.mem, h.keyAddr]

theorem SameOutside.digestBytes_eq {s t : State} (h : SameOutside s t) (i : Instr) : digestBytes i t = digestBytes i s := by
  simp only [digestBytes, h.inputBytes_eq, h.keyBytes_eq]

theorem SameOutside.accessOrder_eq {s t : State} (h : SameOutside s t) (i : Instr) : accessOrder i t = accessOrder i s := by
  simp only [accessOrder, splicedReads, h.inAddr, h.inLen, h.keyAddr, h.outAddr]

/-- What a body leaves: nothing outside the working registers, the digest in DG, and the accesses of R73 in the log. -/
structure LeavesDigest (i : Instr) (s t : State) : Prop where
  outside : SameOutside s t
  digest : lowBytes t.dg (digestSize i.variant) = digestBytes i s
  accesses : .write s.outAddr.toNat (digestSize i.variant) :: t.accesses = (accessOrder i s).reverse ++ s.accesses

theorem mix_ser32 (t : State) : lowBytes (mix 4 (ser32 t)).dg 4 = xorBytes (lowBytes t.lanes.e0 4) (keyBytes t 4) := by
  rw [lowBytes_mix _ _ (by omega), lowBytes_ser32]; rfl

theorem mix_ser128 (t : State) : lowBytes (mix 16 (ser128 t)).dg 16 = xorBytes (laneBytes t.lanes) (keyBytes t 16) := by
  rw [lowBytes_mix _ _ (by omega), ser128_dg, lowBytes_joined]; rfl

theorem leavesDigest_m128 {b : Backend} {block : State → State} {acc : Nat → List Access → List Access} {i : Instr}
    (hv : i.variant = .m128) (hb : b ≠ .ref) (hf : FoldsBlock block (stride b) acc)
    (hacc : ∀ s : State, let k := prefixLength (alignWidth b) s.inAddr.toNat s.inLen.toNat
      let m := blockCount (stride b) s.inLen.toNat k
      accessOrder i s = (readsFrom s.inAddr.toNat k ++ (blockAccesses acc (stride b) (s.inAddr.toNat + k) m []).reverse ++
        readsFrom (s.inAddr.toNat + (k + stride b * m)) (s.inLen.toNat - (k + stride b * m))) ++
        readsFrom s.keyAddr.toNat 16 ++ [.write s.outAddr.toNat 16])
    (happ : ∀ a m l, blockAccesses acc (stride b) a m l = blockAccesses acc (stride b) a m [] ++ l) (s : State) :
    LeavesDigest i s (mix 16 (ser128 (mult128Spliced b block s))) := by
  obtain ⟨ho, hl, -, ha⟩ := mult128Spliced_eq hb hf s
  refine ⟨ho.trans ((sameOutside_ser128 _).trans (sameOutside_mix _ _)), ?_, ?_⟩
  · simp only [digestBytes, hv, digestSize]
    rw [mix_ser128, hl, ho.keyBytes_eq]
  · simp only [hv, digestSize]
    rw [mix_accesses, ser128_keyAddr, ho.keyAddr, ser128_accesses, ha, byteReads_eq, hacc, happ]
    simp [List.append_assoc]

theorem blockAccesses_byteReads_append (w a m : Nat) (l : List Access) :
    blockAccesses (fun a l => byteReads a w l) w a m l = blockAccesses (fun a l => byteReads a w l) w a m [] ++ l := by
  rw [blockAccesses_reads, blockAccesses_reads, List.append_nil]

theorem blockAccesses_loads_append (w a m : Nat) (l : List Access) :
    blockAccesses (fun a l => .read a w :: l) w a m l = blockAccesses (fun a l => .read a w :: l) w a m [] ++ l := by
  rw [blockAccesses_loads, blockAccesses_loads, List.append_nil]

theorem leavesDigest (i : Instr) (s : State) : LeavesDigest i s (commandBody i s) := by
  cases i with
  | m32Ref =>
    refine ⟨(sameOutside_mult32Ref s).trans (sameOutside_ser32 _), ?_, ?_⟩
    · show lowBytes (ser32 (mult32Ref s)).dg 4 = _
      rw [lowBytes_ser32, mult32Ref_eq]; rfl
    · show _ :: (mult32Ref s).accesses = _
      rw [mult32Ref_eq]
      simp [accessOrder, Instr.backend, Instr.variant, keyBytesUsed, digestSize, readsFrom]
  | m32Opt =>
    refine ⟨(sameOutside_mult32Opt s).trans (sameOutside_ser32 _), ?_, ?_⟩
    · show lowBytes (ser32 (mult32Opt s)).dg 4 = _
      rw [lowBytes_ser32, mult32Opt_eq]; rfl
    · show _ :: (mult32Opt s).accesses = _
      rw [mult32Opt_eq]
      simp [accessOrder, Instr.backend, Instr.variant, keyBytesUsed, digestSize, readsFrom]
  | m32kRef =>
    refine ⟨(sameOutside_mult32Ref s).trans ((sameOutside_ser32 _).trans (sameOutside_mix _ _)), ?_, ?_⟩
    · show lowBytes (mix 4 (ser32 (mult32Ref s))).dg 4 = _
      rw [mix_ser32, mult32Ref_eq]; rfl
    · show _ :: byteReads _ _ (mult32Ref s).accesses = _
      rw [byteReads_eq, mult32Ref_eq]
      simp [accessOrder, Instr.backend, Instr.variant, keyBytesUsed, digestSize]
  | m32kOpt =>
    refine ⟨(sameOutside_mult32Opt s).trans ((sameOutside_ser32 _).trans (sameOutside_mix _ _)), ?_, ?_⟩
    · show lowBytes (mix 4 (ser32 (mult32Opt s))).dg 4 = _
      rw [mix_ser32, mult32Opt_eq]; rfl
    · show _ :: byteReads _ _ (mult32Opt s).accesses = _
      rw [byteReads_eq, mult32Opt_eq]
      simp [accessOrder, Instr.backend, Instr.variant, keyBytesUsed, digestSize]
  | m128Ref =>
    refine ⟨(sameOutside_mult128Ref s).trans ((sameOutside_ser128 _).trans (sameOutside_mix _ _)), ?_, ?_⟩
    · show lowBytes (mix 16 (ser128 (mult128Ref s))).dg 16 = _
      rw [mix_ser128, mult128Ref_eq]; rfl
    · show _ :: byteReads _ _ (mult128Ref s).accesses = _
      rw [byteReads_eq, mult128Ref_eq]
      simp [accessOrder, Instr.backend, Instr.variant, keyBytesUsed, digestSize]
  | m128Opt =>
    refine leavesDigest_m128 (b := .opt) rfl (by decide) foldsBlock_opt (fun s => ?_)
      (fun a m l => blockAccesses_byteReads_append 16 a m l) s
    intro k m
    have hm : k + 16 * m ≤ s.inLen.toNat := stride_mul_blockCount_le 16 _ _ (prefixLength_le _ _ _)
    show readsFrom s.inAddr.toNat s.inLen.toNat ++ readsFrom s.keyAddr.toNat 16 ++ _ = _
    rw [show stride .opt = 16 from rfl, blockAccesses_reads, List.append_nil, List.reverse_reverse,
      readsFrom_split s.inAddr.toNat hm]
    rfl
  | m128Vn =>
    refine leavesDigest_m128 (b := .vn) rfl (by decide) foldsBlock_vn (fun s => ?_)
      (fun a m l => blockAccesses_loads_append 8 a m l) s
    intro k m
    rw [show stride .vn = 8 from rfl, blockAccesses_loads, List.append_nil, List.reverse_reverse]
    simp [accessOrder, splicedReads, Instr.backend, Instr.variant, keyBytesUsed, digestSize, k, m, stride, Nat.add_assoc,
      Nat.sub_sub]
  | m128Va =>
    refine leavesDigest_m128 (b := .va) rfl (by decide) foldsBlock_va (fun s => ?_)
      (fun a m l => blockAccesses_loads_append 16 a m l) s
    intro k m
    rw [show stride .va = 16 from rfl, blockAccesses_loads, List.append_nil, List.reverse_reverse]
    simp [accessOrder, splicedReads, Instr.backend, Instr.variant, keyBytesUsed, digestSize, k, m, stride, Nat.add_assoc,
      Nat.sub_sub]
  | m128Vb =>
    refine leavesDigest_m128 (b := .vb) rfl (by decide) foldsBlock_vb (fun s => ?_)
      (fun a m l => blockAccesses_loads_append 16 a m l) s
    intro k m
    rw [show stride .vb = 16 from rfl, blockAccesses_loads, List.append_nil, List.reverse_reverse]
    simp [accessOrder, splicedReads, Instr.backend, Instr.variant, keyBytesUsed, digestSize, k, m, stride, Nat.add_assoc,
      Nat.sub_sub]
  | sipRef =>
    obtain ⟨ho, hd, ha⟩ := sipHash24_spec s
    refine ⟨ho, hd, ?_⟩
    show _ :: (sipHash24 s).accesses = _
    rw [ha]
    simp [accessOrder, Instr.backend, Instr.variant, keyBytesUsed, digestSize]

/-! ### The skeleton -/

/-- The four outcomes of a command (R97, R122, R125, R152): an illegal word, a refusal, an error, or the digest. -/
theorem exec_cases (i : Instr) (s : State) :
    (backendPresent s.hw i.backend = false ∧ exec i s = .next (issueIllegal s)) ∨
    (backendPresent s.hw i.backend = true ∧ verdict i s = .pastTop ∧ exec i s = .refused .rangePastTop) ∨
    (∃ e, e ≠ .success ∧ backendPresent s.hw i.backend = true ∧ verdict i s = .code e ∧
      exec i s = .next (complete e (issueLegal i s))) ∨
    (backendPresent s.hw i.backend = true ∧ verdict i s = .code .success ∧
      exec i s = .next (complete .success (digestWrite (digestSize i.variant) (commandBody i (issueLegal i s))))) := by
  rw [exec_eq_runCommand, runCommand]
  cases hp : backendPresent s.hw i.backend
  · exact .inl ⟨rfl, by simp⟩
  · right
    cases hv : verdict i s with
    | pastTop => exact .inl ⟨rfl, rfl, by simp⟩
    | code e =>
      right
      cases e
      · exact .inr ⟨rfl, rfl, by simp⟩
      all_goals exact .inl ⟨_, by decide, rfl, rfl, by simp⟩

theorem exec_of_success {i : Instr} {s : State} (hp : backendPresent s.hw i.backend = true)
    (hv : verdict i s = .code .success) :
    exec i s = .next (complete .success (digestWrite (digestSize i.variant) (commandBody i (issueLegal i s)))) := by
  rw [exec_eq_runCommand, runCommand, if_pos hp, hv]

theorem exec_of_error {i : Instr} {s : State} {e : ErrorCode} (hp : backendPresent s.hw i.backend = true)
    (hv : verdict i s = .code e) (he : e ≠ .success) : exec i s = .next (complete e (issueLegal i s)) := by
  rw [exec_eq_runCommand, runCommand, if_pos hp, hv]
  cases e <;> first | rfl | exact absurd rfl he

theorem exec_of_pastTop {i : Instr} {s : State} (hp : backendPresent s.hw i.backend = true)
    (hv : verdict i s = .pastTop) : exec i s = .refused .rangePastTop := by
  rw [exec_eq_runCommand, runCommand, if_pos hp, hv]

theorem exec_of_absent {i : Instr} {s : State} (hp : backendPresent s.hw i.backend = false) :
    exec i s = .next (issueIllegal s) := by
  rw [exec_eq_runCommand, runCommand, if_neg (by simp [hp])]

/-! ### The flags -/

@[simp] theorem issueLegal_busy (i : Instr) (s : State) : (issueLegal i s).busy = true := by
  simp [State.busy, statusIssued, withBit]

@[simp] theorem issueLegal_done (i : Instr) (s : State) : (issueLegal i s).done = false := by
  simp [State.done, statusIssued, withBit]

@[simp] theorem issueLegal_ill (i : Instr) (s : State) : (issueLegal i s).ill = false := by
  simp [State.ill, statusIssued, withBit]

@[simp] theorem issueIllegal_busy (s : State) : (issueIllegal s).busy = s.busy := by
  simp [State.busy, statusIllegal, withBit]

@[simp] theorem issueIllegal_done (s : State) : (issueIllegal s).done = false := by
  simp [State.done, statusIllegal, withBit]

@[simp] theorem issueIllegal_ill (s : State) : (issueIllegal s).ill = true := by
  simp [State.ill, statusIllegal, withBit]

@[simp] theorem complete_busy (e : ErrorCode) (s : State) : (complete e s).busy = false := by
  simp [State.busy, statusDone, withBit]

@[simp] theorem complete_done (e : ErrorCode) (s : State) : (complete e s).done = true := by
  simp [State.done, statusDone, withBit]

@[simp] theorem complete_ill (e : ErrorCode) (s : State) : (complete e s).ill = s.ill := by
  simp [State.ill, statusDone, withBit]

theorem SameOutside.ill_eq {s t : State} (h : SameOutside s t) : t.ill = s.ill := by simp only [State.ill, h.status]
theorem SameOutside.busy_eq {s t : State} (h : SameOutside s t) : t.busy = s.busy := by simp only [State.busy, h.status]

/-- The status word of a command that ends, from any word STATUS can hold (R23). -/
theorem statusDone_statusIssued {w : Word32} (h : w = 0 ∨ w = 1 ∨ w = 2 ∨ w = 4) : statusDone (statusIssued w) = 2 := by
  rcases h with rfl | rfl | rfl | rfl <;> decide

/-! ### The digest in memory -/

/-- The D bytes a digest write leaves in memory (R233). -/
theorem bytes_writeLE {m : Memory} (hm : Memory.wf m) (a n : Nat) {k : Nat} (v : BitVec k) :
    Memory.bytes (Memory.writeLE m a n v.toNat) a n = lowBytes v n := by
  apply List.ext_getElem (by simp)
  intro j h1 h2
  have hj : j < n := by simpa using h1
  rw [Memory.getElem_bytes, Memory.read_writeLE hm _ hj, getElem_lowBytes, byteOf_eq_ofNat]

theorem sameOutside_digestBytes_issueLegal (i : Instr) (s : State) : digestBytes i (issueLegal i s) = digestBytes i s := rfl

end Sys2Proof.Machine
end

