-- ==== Sys2Proof/Laws/Validator.lean ====
section
/-! SUPPORT. What the Validator answers, in terms of intervals, and what a command it accepts does: the conditions of
`Accepted` are exactly a present backend and a verdict of success. -/

namespace Sys2Proof.Machine

/-- The overlap test as one pair of inequalities on ends (R145, R146). -/
theorem overlap_eq_true_iff (a la b lb : Nat) :
    overlap a la b lb = true ↔ 0 < la ∧ 0 < lb ∧ a < b + lb ∧ b < a + la := by
  unfold overlap
  split
  · rename_i h
    simp only [Bool.or_eq_true, decide_eq_true_eq] at h
    simp only [Bool.false_eq_true, false_iff]
    omega
  · rename_i h
    simp only [Bool.or_eq_true, decide_eq_true_eq, not_or] at h
    simp only [Bool.or_eq_true, Bool.and_eq_true, decide_eq_true_eq]
    omega

/-- Two ranges share a byte when their ends interleave. -/
theorem shareByte_iff_lt (a la b lb : Nat) : shareByte a la b lb ↔ 0 < la ∧ 0 < lb ∧ a < b + lb ∧ b < a + la := by
  constructor
  · rintro ⟨x, h⟩; omega
  · intro h
    by_cases hab : a ≤ b
    · exact ⟨b, by omega⟩
    · exact ⟨a, by omega⟩

theorem passesTop_eq_false_iff (aw base len : Nat) : passesTop aw base len = false ↔ insideTop aw base len := by
  simp [passesTop, insideTop]

theorem toNat_eq_zero_iff (w : Word64) : w.toNat = 0 ↔ w = 0 :=
  ⟨fun h => BitVec.eq_of_toNat_eq h, fun h => by rw [h]; rfl⟩

/-- The Validator answers success exactly when every check and the precondition hold (R150, R152). -/
theorem validate_success_iff (aw d : Nat) (key : Bool) (ia il ka kl oa oc : Nat) :
    validate aw d key ia il ka kl oa oc = .code .success ↔
      (ia ≠ 0 ∧ oa ≠ 0 ∧ (key = true → ka ≠ 0)) ∧ d ≤ oc ∧ (key = true → 16 ≤ kl) ∧
        (passesTop aw ia il = false ∧ passesTop aw oa oc = false ∧ (key = true → passesTop aw ka kl = false)) ∧
        overlap ia il oa oc = false ∧ (key = true → overlap ia il ka kl = false) ∧
        (key = true → overlap oa oc ka kl = false) := by
  constructor
  · intro h
    unfold validate at h
    iterate 8
      split at h
      · cases h
    rename_i h1 h2 h3 h4 h5 h6 h7 h8
    simp only [Bool.or_eq_true, Bool.and_eq_true, decide_eq_true_eq, not_or, not_and, Bool.not_eq_true, keyMinimum]
      at h1 h2 h4 h5 h6 h7 h8
    exact ⟨⟨h1.1, h1.2, h2⟩, by omega, fun hk => Nat.not_lt.1 (of_decide_eq_false (h4 hk)), ⟨h5.1.1, h5.1.2, h5.2⟩, h6, h7, h8⟩
  · rintro ⟨⟨h1, h2, h3⟩, h4, h5, ⟨h6, h7, h8⟩, h9, h10, h11⟩
    unfold validate
    cases key
    · simp [h1, h2, Nat.not_lt.2 h4, h6, h7, h9]
    · simp [h1, h2, h3 rfl, Nat.not_lt.2 h4, keyMinimum, h6, h7, h8 rfl, h9, h10 rfl, h11 rfl]
      exact decide_eq_false (Nat.not_lt.2 (h5 rfl))

/-- What `Accepted` says, as the skeleton of a command asks it. -/
theorem accepted_iff (i : Instr) (s : State) :
    Accepted i s ↔ backendPresent s.hw i.backend = true ∧ verdict i s = .code .success := by
  have ho : ∀ a la b lb, overlap a la b lb = false ↔ ¬ shareByte a la b lb := fun a la b lb => by
    rw [shareByte_iff_lt, ← overlap_eq_true_iff, Bool.not_eq_true]
  rw [verdict, validate_success_iff]
  simp only [passesTop_eq_false_iff, ho, ne_eq, toNat_eq_zero_iff]
  constructor
  · rintro ⟨h1, h2, h3, h4, h5, h6, h7, h8, h9, h10, h11, h12⟩
    exact ⟨h1, ⟨h2, h3, h4⟩, h5, h6, ⟨h7, h8, h9⟩, h10, h11, h12⟩
  · rintro ⟨h1, ⟨h2, h3, h4⟩, h5, h6, ⟨h7, h8, h9⟩, h10, h11, h12⟩
    exact ⟨h1, h2, h3, h4, h5, h6, h7, h8, h9, h10, h11, h12⟩

/-- The D output bytes of a command that passes the Validator lie in the address space. -/
theorem outAddr_add_le_of_success {i : Instr} {s : State} (hv : verdict i s = .code .success) :
    s.outAddr.toNat + digestSize i.variant ≤ 2 ^ s.hw.aw.bits := by
  have hd : 0 < digestSize i.variant := by cases i <;> decide
  rw [verdict, validate_success_iff] at hv
  have := (passesTop_eq_false_iff _ _ _).1 hv.2.2.2.1.2.1 (by omega)
  omega

/-! ### What an accepted command leaves -/

/-- The state a command that passes the Validator ends in. -/
def completed (i : Instr) (s : State) : State :=
  complete .success (digestWrite (digestSize i.variant) (commandBody i (issueLegal i s)))

theorem exec_of_accepted {i : Instr} {s : State} (h : Accepted i s) : exec i s = .next (completed i s) :=
  let ⟨hp, hv⟩ := (accepted_iff i s).1 h
  exec_of_success hp hv

theorem completed_mem (i : Instr) (s : State) : (completed i s).mem =
    Memory.writeLE s.mem s.outAddr.toNat (digestSize i.variant) (commandBody i (issueLegal i s)).dg.toNat := by
  have ho := (leavesDigest i (issueLegal i s)).outside
  show Memory.writeLE (commandBody i (issueLegal i s)).mem (commandBody i (issueLegal i s)).outAddr.toNat _ _ = _
  rw [ho.mem, ho.outAddr]
  rfl

/-- The D bytes at OUT_ADDR afterwards are the digest of Safety.lean (R233). -/
theorem completed_bytes (i : Instr) (s : State) (hm : Memory.wf s.mem) :
    Memory.bytes (completed i s).mem s.outAddr.toNat (digestSize i.variant) = digestBytes i s := by
  rw [completed_mem, bytes_writeLE hm]
  exact (leavesDigest i (issueLegal i s)).digest

theorem completed_accesses (i : Instr) (s : State) : (completed i s).accesses = (accessOrder i s).reverse := by
  obtain ⟨ho, -, ha⟩ := leavesDigest i (issueLegal i s)
  show Access.write (commandBody i (issueLegal i s)).outAddr.toNat _ :: _ = _
  rw [ho.outAddr, ha, issueLegal_accesses, List.append_nil]
  rfl

theorem completed_ended (i : Instr) (s : State) : Ended .success (completed i s) where
  err := rfl
  busy := complete_busy _ _
  done := complete_done _ _
  ill := by
    rw [completed, complete_ill]
    exact (leavesDigest i (issueLegal i s)).outside.ill_eq.trans (issueLegal_ill i s)
  phase := rfl

/-- The lanes after the body of a 32-bit command: ACC in closed form, the others kept. -/
theorem commandBody_lanes_of_m32 {i : Instr} (h : i.variant = .m32 ∨ i.variant = .m32k) (s : State) :
    (commandBody i s).lanes = { s.lanes with e0 := closedForm (inputBytes s) } := by
  cases i <;> simp [Instr.variant] at h <;> simp [commandBody, mult32Ref_eq, mult32Opt_eq]

/-- The lanes after the body of a 128-bit command, in closed form. -/
theorem commandBody_lanes_of_m128 {i : Instr} (h : i.variant = .m128) (s : State) :
    (commandBody i s).lanes = closedLanes (inputBytes s) := by
  cases i <;> simp [Instr.variant] at h <;> simp only [commandBody, mix_lanes, ser128_lanes]
  · rw [mult128Ref_eq]
  · exact (mult128Spliced_eq (by decide) foldsBlock_opt s).2.1
  · exact (mult128Spliced_eq (by decide) foldsBlock_vn s).2.1
  · exact (mult128Spliced_eq (by decide) foldsBlock_va s).2.1
  · exact (mult128Spliced_eq (by decide) foldsBlock_vb s).2.1

/-- A function of the state that no step of the Splicer changes is kept by it. -/
theorem mult128Spliced_keeps {α : Type} {b : Backend} {block : State → State} (g : State → α)
    (hinit : ∀ s, g (initLanes s) = g s) (hk : ∀ s, g (loadK b s) = g s) (hbyte : ∀ s, g (laneStep s) = g s)
    (hleft : ∀ s, g (rotateLeft s) = g s) (hright : ∀ s, g (rotateRight s) = g s) (hblock : ∀ s, g (block s) = g s)
    (s : State) : g (mult128Spliced b block s) = g s := by
  have hloop : ∀ (f : State → State), (∀ s, g (f s) = g s) → ∀ n s, g (loop f n s) = g s := by
    intro f hf n
    induction n with
    | zero => intro s; rfl
    | succ n ih => intro s; rw [loop, ih, hf]
  simp only [mult128Spliced, spliced128, foldTail, mainLoop, foldPrefix, hloop _ hblock, hloop _ hbyte, hleft, hright, hk,
    hinit]

end Sys2Proof.Machine
end

