-- ==== Sys2Proof/Laws/Accesses.lean ====
section
/-! SUPPORT. Counting the accesses of a log that touch an address, and where the blocks of a spliced command start. -/

namespace Sys2Proof.Machine

theorem readsOf_append (l m : List Access) (x : Nat) : readsOf (l ++ m) x = readsOf l x + readsOf m x := by
  simp [readsOf]

theorem readsOf_reverse (l : List Access) (x : Nat) : readsOf l.reverse x = readsOf l x := by
  simp [readsOf, List.filter_reverse]

theorem writesOf_append (l m : List Access) (x : Nat) : writesOf (l ++ m) x = writesOf l x + writesOf m x := by
  simp [writesOf]

theorem writesOf_reverse (l : List Access) (x : Nat) : writesOf l.reverse x = writesOf l x := by
  simp [writesOf, List.filter_reverse]

theorem readsOf_cons (c : Access) (l : List Access) (x : Nat) :
    readsOf (c :: l) x = (if c.isRead && c.covers x then 1 else 0) + readsOf l x := by
  simp only [readsOf, List.filter_cons]
  split <;> simp [Nat.add_comm]

/-- Two disjoint conditions counted together. -/
theorem indicator_add (p q r : Prop) [Decidable p] [Decidable q] [Decidable r] (h : r ↔ p ∨ q) (h' : ¬ (p ∧ q)) :
    (if p then 1 else 0) + (if q then 1 else 0) = if r then 1 else 0 := by
  by_cases p <;> by_cases q <;> by_cases r <;> simp_all

/-- Consecutive reads of w bytes touch each byte of their span once. -/
theorem readsOf_blocksFrom (a w m x : Nat) : readsOf (blocksFrom a w m) x = if a ≤ x ∧ x < a + w * m then 1 else 0 := by
  induction m generalizing a with
  | zero => simp [blocksFrom, readsOf]
  | succ m ih =>
    rw [blocksFrom_succ, readsOf_cons, ih]
    apply indicator_add <;>
      simp only [Access.isRead, Access.covers, Bool.true_and, Bool.and_eq_true, decide_eq_true_eq, Nat.mul_succ] <;> omega

theorem readsFrom_eq_blocksFrom (a n : Nat) : readsFrom a n = blocksFrom a 1 n := by simp [readsFrom, blocksFrom]

theorem readsOf_readsFrom (a n x : Nat) : readsOf (readsFrom a n) x = if a ≤ x ∧ x < a + n then 1 else 0 := by
  rw [readsFrom_eq_blocksFrom, readsOf_blocksFrom, Nat.one_mul]

theorem writesOf_blocksFrom (a w m x : Nat) : writesOf (blocksFrom a w m) x = 0 := by
  simp [writesOf, blocksFrom, Access.isRead]

theorem writesOf_readsFrom (a n x : Nat) : writesOf (readsFrom a n) x = 0 := by
  rw [readsFrom_eq_blocksFrom, writesOf_blocksFrom]

/-- The prefix, the blocks and the tail touch each input byte once (R65, R166). -/
theorem readsOf_splicedReads (b : Backend) (s : State) (x : Nat) : readsOf (splicedReads b s) x =
    if s.inAddr.toNat ≤ x ∧ x < s.inAddr.toNat + s.inLen.toNat then 1 else 0 := by
  simp only [splicedReads, readsOf_append, readsOf_readsFrom, readsOf_blocksFrom]
  have h1 := prefixLength_le (alignWidth b) s.inAddr.toNat s.inLen.toNat
  have h2 := stride_mul_blockCount_le (stride b) _ _ h1
  generalize prefixLength _ _ _ = k at *
  generalize stride b * _ = q at *
  split <;> split <;> split <;> split <;> omega

theorem writesOf_splicedReads (b : Backend) (s : State) (x : Nat) : writesOf (splicedReads b s) x = 0 := by
  simp only [splicedReads, writesOf_append, writesOf_readsFrom, writesOf_blocksFrom]

/-- After the prefix the address is aligned, unless the prefix is the whole input (R160, R171). -/
theorem aligned_or_eq_length (w a n : Nat) (hw : 0 < w) :
    (a + prefixLength w a n) % w = 0 ∨ prefixLength w a n = n := by
  by_cases h : prefixLength w a n = n
  · exact .inr h
  left
  have hle := prefixLength_le w a n
  have hmod := Nat.mod_lt a hw
  have hda := Nat.div_add_mod a w
  have hgap : gap w a = if a % w = 0 then 0 else w - a % w := by
    unfold gap
    split
    · rename_i h; rw [h]; simp
    · rw [Nat.mod_eq_of_lt]; omega
  rw [show prefixLength w a n = gap w a by unfold prefixLength at *; omega, hgap]
  split
  · simpa
  · rw [show a + (w - a % w) = w * (a / w + 1) by rw [Nat.mul_add]; omega]
    simp

end Sys2Proof.Machine
end

