-- ==== Sys2Proof/Laws/Awaited.lean ====
section
/-! SUPPORT. The footprints the host is to leave alone (20_memory.md R76): which addresses they cover, what a host load or
store then does, and what a command, a read and an engine that runs do to them. -/

namespace Sys2Proof.Machine

theorem Footprint.reads_eq_true_iff (f : Footprint) (a : Nat) :
    f.reads a = true ↔ (f.inAddr ≤ a ∧ a < f.inAddr + f.inLen) ∨ (f.keyAddr ≤ a ∧ a < f.keyAddr + f.keyLen) := by
  simp [Footprint.reads]

theorem Footprint.writes_eq_true_iff (f : Footprint) (a : Nat) :
    f.writes a = true ↔ f.outAddr ≤ a ∧ a < f.outAddr + f.outLen := by
  simp [Footprint.writes]

theorem inAwaitedOutput_eq_true_iff (s : State) (a : Nat) :
    inAwaitedOutput s a = true ↔ ∃ f ∈ s.awaited, f.writes a = true := by
  simp [inAwaitedOutput]

theorem inAwaited_eq_true_iff (s : State) (a : Nat) :
    inAwaited s a = true ↔ ∃ f ∈ s.awaited, f.reads a = true ∨ f.writes a = true := by
  simp [inAwaited]

/-- What a host store in the address space does (R60, R76). -/
theorem hostStore_eq {s : State} {a : Nat} (h : a < 2 ^ s.hw.aw.bits) (b : Byte) :
    hostStore a b s =
      if inAwaited s a then .refused .bufferTouched else .next { s with mem := Memory.write s.mem a b } := by
  rw [hostStore, if_neg (Nat.not_le.2 h)]

/-- What a host load in the address space does (R60, R76). -/
theorem hostLoad_eq {s : State} {a : Nat} (h : a < 2 ^ s.hw.aw.bits) :
    hostLoad a s = if inAwaitedOutput s a then .refused .bufferTouched
      else .next { s with hostData := (Memory.read s.mem a).setWidth 64 } := by
  rw [hostLoad, if_neg (Nat.not_le.2 h)]

@[simp] theorem writeOperand_awaited (s : State) (index value : Nat) :
    (writeOperand s index value).awaited = s.awaited := by
  unfold writeOperand; split <;> rfl

theorem issueLegal_awaited_of_accepted {i : Instr} {s : State} (h : Accepted i s) :
    (issueLegal i s).awaited = footprint i s :: s.awaited := by
  rw [issueLegal_awaited, if_pos ((accepted_iff i s).1 h).2]

/-- A command puts its footprint in front when it passes the Validator, and nothing else (R65, R76). -/
theorem exec_awaited {i : Instr} {s t : State} (h : exec i s = .next t) :
    (Accepted i s ∧ t.awaited = footprint i s :: s.awaited) ∨ (¬ Accepted i s ∧ t.awaited = s.awaited) := by
  rcases exec_cases i s with ⟨hp, h'⟩ | ⟨-, -, h'⟩ | ⟨e, he, -, hv, h'⟩ | ⟨hp, hv, h'⟩ <;> rw [h'] at h <;> cases h
  · exact .inr ⟨fun a => absurd a.present (by simp [hp]), rfl⟩
  · have hs : ¬ verdict i s = .code .success := by rw [hv]; exact fun c => he (Verdict.code.inj c)
    exact .inr ⟨fun a => hs ((accepted_iff i s).1 a).2, if_neg hs⟩
  · have a := (accepted_iff i s).2 ⟨hp, hv⟩
    exact .inl ⟨a, (leavesDigest i (issueLegal i s)).outside.awaited.trans (issueLegal_awaited_of_accepted a)⟩

/-- While a command runs in a good state no RD returns DONE (R23). -/
theorem State.Inv.not_done_of_busy {s : State} (h : s.Inv) (hb : s.busy = true) : s.done = false := by
  rcases h.status with e | e | e | e <;> simp [State.busy, State.done, e] at hb ⊢

theorem hostRead_awaited_of_not_done {s : State} (h : s.done = false) (index : Nat) :
    (hostRead index s).awaited = s.awaited := by
  rw [hostRead_awaited, if_neg (by simp [h])]

/-- In a good state the command that runs is awaited, if it is accepted (R76). -/
theorem State.Inv.footprint_mem_awaited {i : Instr} {s : State} (h : s.Inv) (hb : s.busy = true)
    (hd : decode s.cmd = .ok i) (ha : Accepted i s) : footprint i s ∈ s.awaited := by
  obtain ⟨j, hj, r⟩ := h.running hb
  rw [hd] at hj; cases hj
  exact r.guarded ((accepted_iff i s).1 ha).2

end Sys2Proof.Machine
end

