-- ==== Sys2Proof/Laws/PerInstr.lean ====
section
/-! SUPPORT. One statement about every command as syntax (30_encoding.md R90, R95, R97), proved command by command. -/

namespace Sys2Proof.Laws.CommandWord

/-- The word of a command holds its two field codes in bits 2:0 and 6:4 and nothing else (R90), its two fields name it in the
opcode map (R95), and it is well formed exactly where its backend is present (R97). -/
def Statement (i : Instr) : Prop :=
  (encode i).toNat = 16 * i.backend.code.toNat + i.variant.code.toNat ∧
    Variant.ofCode i.variant.code = some i.variant ∧ Backend.ofCode i.backend.code = some i.backend ∧
    Instr.ofPair i.variant i.backend = some i ∧ ∀ hw, i.wellFormed hw = Machine.backendPresent hw i.backend

theorem m32Ref : Statement .m32Ref := ⟨by decide, by decide, by decide, rfl, fun _ => rfl⟩

theorem m32Opt : Statement .m32Opt := ⟨by decide, by decide, by decide, rfl, fun _ => rfl⟩

theorem m32kRef : Statement .m32kRef := ⟨by decide, by decide, by decide, rfl, fun _ => rfl⟩

theorem m32kOpt : Statement .m32kOpt := ⟨by decide, by decide, by decide, rfl, fun _ => rfl⟩

theorem m128Ref : Statement .m128Ref := ⟨by decide, by decide, by decide, rfl, fun _ => rfl⟩

theorem m128Opt : Statement .m128Opt := ⟨by decide, by decide, by decide, rfl, fun _ => rfl⟩

theorem m128Vn : Statement .m128Vn := ⟨by decide, by decide, by decide, rfl, fun _ => rfl⟩

theorem m128Va : Statement .m128Va := ⟨by decide, by decide, by decide, rfl, fun _ => rfl⟩

theorem m128Vb : Statement .m128Vb := ⟨by decide, by decide, by decide, rfl, fun _ => rfl⟩

theorem sipRef : Statement .sipRef := ⟨by decide, by decide, by decide, rfl, fun _ => rfl⟩

end Sys2Proof.Laws.CommandWord
end

