-- ==== Sys2Proof/Laws/Phases.lean ====
section
/-! SUPPORT. What one step of the engine, one host operation and one step of the machine can do, said once; and runs of the
engine phase by phase, composed. -/

namespace Sys2Proof.Machine

/-! ### One engine step -/

theorem sameOutside_initPhase (i : Instr) (s : State) : SameOutside s (initPhase i s) := by cases i <;> constructor <;> rfl
theorem sameOutside_byteStepPhase (i : Instr) (s : State) : SameOutside s (byteStepPhase i s) := by
  cases i <;> constructor <;> rfl
theorem sameOutside_blockPhase (i : Instr) (s : State) : SameOutside s (blockPhase i s) := by cases i <;> constructor <;> rfl
theorem sameOutside_serializePhase (i : Instr) (s : State) : SameOutside s (serializePhase i s) := by
  cases i <;> constructor <;> rfl

/-- The steps the engine can make while it runs a command (R43, R126): a failed validation, a move to the next phase after
the work `f` of the present one, a loop iteration, or completion. -/
inductive EngineMove (i : Instr) (s : State) : State → Prop
  | fail (e : ErrorCode) : s.phase = .validate → e ≠ .success → verdict i s = .code e → EngineMove i s (complete e s)
  | validated (q : Phase) : s.phase = .validate → verdict i s = .code .success →
      phaseAfter .validate (phaseOrder i) = some q → EngineMove i s { s with phase := q }
  | init (q : Phase) : s.phase = .init → phaseAfter .init (phaseOrder i) = some q →
      EngineMove i s { initPhase i s with phase := q }
  | prefixByte : s.phase = .prefixFold → s.pos.toNat < s.k.toNat → EngineMove i s (byteStepPhase i s)
  | prefixDone (q : Phase) : s.phase = .prefixFold → s.k.toNat ≤ s.pos.toNat →
      phaseAfter .prefixFold (phaseOrder i) = some q → EngineMove i s { s with phase := q }
  | rotl (q : Phase) : s.phase = .rotl → phaseAfter .rotl (phaseOrder i) = some q →
      EngineMove i s { rotateLeft s with phase := q }
  | block : s.phase = .main → s.pos.toNat + stride i.backend ≤ s.inLen.toNat → EngineMove i s (blockPhase i s)
  | mainDone (q : Phase) : s.phase = .main → s.inLen.toNat < s.pos.toNat + stride i.backend →
      phaseAfter .main (phaseOrder i) = some q → EngineMove i s { s with phase := q }
  | rotr (q : Phase) : s.phase = .rotr → phaseAfter .rotr (phaseOrder i) = some q →
      EngineMove i s { rotateRight s with phase := q }
  | tailByte : s.phase = .tail → s.pos.toNat < s.inLen.toNat → EngineMove i s (byteStepPhase i s)
  | tailDone (q : Phase) : s.phase = .tail → s.inLen.toNat ≤ s.pos.toNat → phaseAfter .tail (phaseOrder i) = some q →
      EngineMove i s { serializePhase i s with phase := q }
  | mix (q : Phase) : s.phase = .mix → phaseAfter .mix (phaseOrder i) = some q →
      EngineMove i s { mix (digestSize i.variant) s with phase := q }
  | write : s.phase = .write → EngineMove i s (complete .success (digestWrite (digestSize i.variant) s))
  | sipInit (q : Phase) : s.phase = .sipInit → phaseAfter .sipInit (phaseOrder i) = some q →
      EngineMove i s { sipInit s with phase := q }
  | sipWord : s.phase = .sipWords → s.pos.toNat + 8 ≤ s.inLen.toNat → EngineMove i s (sipWord s)
  | sipWordsDone (q : Phase) : s.phase = .sipWords → s.inLen.toNat < s.pos.toNat + 8 →
      phaseAfter .sipWords (phaseOrder i) = some q → EngineMove i s { s with phase := q }
  | sipLast (q : Phase) : s.phase = .sipLast → phaseAfter .sipLast (phaseOrder i) = some q →
      EngineMove i s { sipLast s with phase := q }
  | sipFin (q : Phase) : s.phase = .sipFin → phaseAfter .sipFin (phaseOrder i) = some q →
      EngineMove i s { sipFin s with phase := q }

theorem advance_eq_next {i : Instr} {s t : State} (h : advance i s = .next t) :
    ∃ q, phaseAfter s.phase (phaseOrder i) = some q ∧ t = { s with phase := q } := by
  unfold advance at h
  split at h
  · cases h; exact ⟨_, by assumption, rfl⟩
  · cases h

/-- Every engine step that answers a next state is one of those moves. -/
theorem engineMove_of_phaseStep {i : Instr} {s t : State} (h : phaseStep i s = .next t) : EngineMove i s t := by
  unfold phaseStep at h
  split at h <;> rename_i hp
  · cases h
  · split at h <;> rename_i hv
    · cases h
    · obtain ⟨q, hq, rfl⟩ := advance_eq_next h
      rw [hp] at hq; exact .validated q hp hv hq
    · cases h; rename_i he; exact .fail _ hp he hv
  · obtain ⟨q, hq, rfl⟩ := advance_eq_next h
    rw [(sameOutside_initPhase i s).phase, hp] at hq; exact .init q hp hq
  · split at h <;> rename_i hl
    · cases h; exact .prefixByte hp hl
    · obtain ⟨q, hq, rfl⟩ := advance_eq_next h
      rw [hp] at hq; exact .prefixDone q hp (by omega) hq
  · obtain ⟨q, hq, rfl⟩ := advance_eq_next h
    rw [rotateLeft_phase, hp] at hq; exact .rotl q hp hq
  · split at h <;> rename_i hl
    · cases h; exact .block hp hl
    · obtain ⟨q, hq, rfl⟩ := advance_eq_next h
      rw [hp] at hq; exact .mainDone q hp (by omega) hq
  · obtain ⟨q, hq, rfl⟩ := advance_eq_next h
    rw [rotateRight_phase, hp] at hq; exact .rotr q hp hq
  · split at h <;> rename_i hl
    · cases h; exact .tailByte hp hl
    · obtain ⟨q, hq, rfl⟩ := advance_eq_next h
      rw [(sameOutside_serializePhase i s).phase, hp] at hq; exact .tailDone q hp (by omega) hq
  · obtain ⟨q, hq, rfl⟩ := advance_eq_next h
    rw [mix_phase, hp] at hq; exact .mix q hp hq
  · cases h; exact .write hp
  · obtain ⟨q, hq, rfl⟩ := advance_eq_next h
    rw [sipInit_phase, hp] at hq; exact .sipInit q hp hq
  · split at h <;> rename_i hl
    · cases h; exact .sipWord hp hl
    · obtain ⟨q, hq, rfl⟩ := advance_eq_next h
      rw [hp] at hq; exact .sipWordsDone q hp (by omega) hq
  · obtain ⟨q, hq, rfl⟩ := advance_eq_next h
    rw [sipLast_phase, hp] at hq; exact .sipLast q hp hq
  · obtain ⟨q, hq, rfl⟩ := advance_eq_next h
    rw [sipFin_phase, hp] at hq; exact .sipFin q hp hq

/-- Two states alike in everything but the working registers, PHASE and the access log. -/
structure SameButPhase (s t : State) : Prop where
  hw : t.hw = s.hw
  cmd : t.cmd = s.cmd
  status : t.status = s.status
  err : t.err = s.err
  inAddr : t.inAddr = s.inAddr
  inLen : t.inLen = s.inLen
  keyAddr : t.keyAddr = s.keyAddr
  keyLen : t.keyLen = s.keyLen
  outAddr : t.outAddr = s.outAddr
  outCap : t.outCap = s.outCap
  mem : t.mem = s.mem
  host : t.host = s.host
  pace : t.pace = s.pace
  hostData : t.hostData = s.hostData
  free : t.free = s.free
  awaited : t.awaited = s.awaited

theorem SameOutside.butPhase {s t : State} (h : SameOutside s t) : SameButPhase s t :=
  ⟨h.hw, h.cmd, h.status, h.err, h.inAddr, h.inLen, h.keyAddr, h.keyLen, h.outAddr, h.outCap, h.mem, h.host, h.pace,
    h.hostData, h.free, h.awaited⟩

theorem SameButPhase.withPhase {s t : State} (h : SameButPhase s t) (q : Phase) : SameButPhase s { t with phase := q } :=
  ⟨h.hw, h.cmd, h.status, h.err, h.inAddr, h.inLen, h.keyAddr, h.keyLen, h.outAddr, h.outCap, h.mem, h.host, h.pace,
    h.hostData, h.free, h.awaited⟩

theorem SameButPhase.verdict_eq {s t : State} (h : SameButPhase s t) (i : Instr) : verdict i t = verdict i s := by
  simp only [verdict, h.hw, h.inAddr, h.inLen, h.keyAddr, h.keyLen, h.outAddr, h.outCap]

/-- An engine step completes the command, with an error or with the digest write, or touches the working registers and PHASE
only (R45, R67). -/
theorem EngineMove.outside {i : Instr} {s t : State} (h : EngineMove i s t) :
    (∃ e, e ≠ .success ∧ verdict i s = .code e ∧ s.phase = .validate ∧ t = complete e s) ∨
      (s.phase = .write ∧ t = complete .success (digestWrite (digestSize i.variant) s)) ∨ SameButPhase s t := by
  have self := (SameOutside.refl s).butPhase
  cases h with
  | fail e hp he hv => exact .inl ⟨e, he, hv, hp, rfl⟩
  | write hp => exact .inr (.inl ⟨hp, rfl⟩)
  | validated q => exact .inr (.inr (self.withPhase q))
  | init q => exact .inr (.inr ((sameOutside_initPhase i s).butPhase.withPhase q))
  | prefixByte => exact .inr (.inr (sameOutside_byteStepPhase i s).butPhase)
  | prefixDone q => exact .inr (.inr (self.withPhase q))
  | rotl q => exact .inr (.inr ((sameOutside_rotateLeft s).butPhase.withPhase q))
  | block => exact .inr (.inr (sameOutside_blockPhase i s).butPhase)
  | mainDone q => exact .inr (.inr (self.withPhase q))
  | rotr q => exact .inr (.inr ((sameOutside_rotateRight s).butPhase.withPhase q))
  | tailByte => exact .inr (.inr (sameOutside_byteStepPhase i s).butPhase)
  | tailDone q => exact .inr (.inr ((sameOutside_serializePhase i s).butPhase.withPhase q))
  | mix q => exact .inr (.inr ((sameOutside_mix _ s).butPhase.withPhase q))
  | sipInit q => exact .inr (.inr ((sameOutside_sipInit s).butPhase.withPhase q))
  | sipWord => exact .inr (.inr (sameOutside_sipWord s).butPhase)
  | sipWordsDone q => exact .inr (.inr (self.withPhase q))
  | sipLast q => exact .inr (.inr ((sameOutside_sipLast s).butPhase.withPhase q))
  | sipFin q => exact .inr (.inr ((sameOutside_sipFin s).butPhase.withPhase q))

theorem phaseAfter_mem {p q : Phase} {i : Instr} (h : phaseAfter p (phaseOrder i) = some q) : q ∈ phaseOrder i := by
  revert h; cases i <;> cases p <;> simp [phaseAfter, phaseOrder] <;> rintro rfl <;> simp

/-! ### Cursor, lane index and prefix length under an iteration -/

theorem byteStepPhase_pos {i : Instr} {s : State} (hi : i ≠ .sipRef) (h : s.pos.toNat < s.inLen.toNat) :
    (byteStepPhase i s).pos.toNat = s.pos.toNat + 1 := by
  have : (s.pos + 1 : Word64).toNat = s.pos.toNat + 1 := pos_add_toNat (n := 1) (by omega)
  cases i <;> first | exact absurd rfl hi | exact this

theorem blockPhase_pos {i : Instr} {s : State} (hi : i.backend ≠ .ref)
    (h : s.pos.toNat + stride i.backend ≤ s.inLen.toNat) :
    (blockPhase i s).pos.toNat = s.pos.toNat + stride i.backend := by
  cases i <;> first | exact absurd rfl hi | exact pos_add_toNat h

theorem byteStepPhase_k (i : Instr) (s : State) : (byteStepPhase i s).k = s.k := by cases i <;> rfl

theorem byteStepPhase_lane {i : Instr} (hi : i.variant = .m128) (s : State) : (byteStepPhase i s).lane = s.lane + 1 := by
  cases i <;> simp [Instr.variant] at hi <;> rfl

theorem blockPhase_lane (i : Instr) (s : State) : (blockPhase i s).lane = s.lane := by cases i <;> rfl

theorem ne_sipRef_of_mem {i : Instr}
    (h : Phase.prefixFold ∈ phaseOrder i ∨ Phase.tail ∈ phaseOrder i ∨ Phase.main ∈ phaseOrder i) : i ≠ .sipRef := by
  rintro rfl; revert h; decide

theorem backend_ne_ref_of_mem {i : Instr} (h : Phase.main ∈ phaseOrder i ∨ Phase.prefixFold ∈ phaseOrder i) :
    i.backend ≠ .ref := by
  cases i <;> revert h <;> decide

/-! ### One host operation and one step -/

/-- What the issue of CMD can do: report an illegal word, execute the command, or only start it (R122 to R124, log 4). -/
theorem issueCmd_cases (s : State) :
    (∃ e, decode s.cmd = .error e ∧ issueCmd s = .next (issueIllegal s)) ∨
      (∃ i, decode s.cmd = .ok i ∧ s.pace = [] ∧ issueCmd s = exec i s) ∨
      (∃ i, decode s.cmd = .ok i ∧ s.pace ≠ [] ∧ issueCmd s = .next (issueOnly i s)) := by
  unfold issueCmd
  split
  · exact .inl ⟨_, by assumption, rfl⟩
  · split
    · exact .inr (.inl ⟨_, by assumption, by assumption, rfl⟩)
    · rename_i hp
      exact .inr (.inr ⟨_, by assumption, by rw [hp]; simp, rfl⟩)

/-- What a step does (Step.lean): the engine's move, an idle step of a host with nothing to do, or the host's oldest
operation; `pace` loses at most its first turn. -/
theorem step_cases {s t : State} (h : step s = .next t) :
    (∃ p, s.busy = true ∧ engineStep { s with pace := p } = .next t) ∨
      (s.host = [] ∧ ∃ p, t = { s with pace := p }) ∨
      (∃ p op ops, s.host = op :: ops ∧ hostOp op { s with host := ops, pace := p } = .next t) := by
  unfold step at h
  split at h
  · rename_i hb
    split at h <;> rename_i hp
    · refine .inl ⟨[], hb, ?_⟩
      rw [← hp]; exact h
    · exact .inl ⟨_, hb, h⟩
    · right
      unfold hostStep at h
      split at h <;> rename_i hh
      · cases h; exact .inl ⟨hh, _, rfl⟩
      · exact .inr ⟨_, _, _, hh, h⟩
  · right
    unfold hostStep at h
    split at h <;> rename_i hh
    · cases h; exact .inl ⟨hh, s.pace, rfl⟩
    · exact .inr ⟨s.pace, _, _, hh, h⟩

/-! ### Runs, composed -/

/-- `n` steps of the machine take `s` to `t`. -/
def Reaches (n : Nat) (s t : State) : Prop := Sys2Proof.core.run n s = .next t

theorem Reaches.zero (s : State) : Reaches 0 s s := rfl

theorem Reaches.cons {n : Nat} {s t u : State} (h : step s = .next t) (h' : Reaches n t u) : Reaches (n + 1) s u := by
  have key : ∀ (M : Host.Core) (s t : M.State), M.step s = .next t → M.run (n + 1) s = M.run n t := by
    intro M s t h; rw [Host.Core.run, h]
  exact (key core s t h).trans h'

theorem Reaches.append {m n : Nat} {s t u : State} (h : Reaches m s t) (h' : Reaches n t u) : Reaches (m + n) s u := by
  induction m generalizing s with
  | zero => cases h; simpa using h'
  | succ m ih =>
    have key : ∀ (M : Host.Core) (s t : M.State), M.run (m + 1) s = .next t →
        ∃ v, M.step s = .next v ∧ M.run m v = .next t := by
      intro M s t h
      rw [Host.Core.run] at h
      split at h
      · exact ⟨_, by assumption, h⟩
      · cases h
      · cases h
    obtain ⟨v, hs, h2⟩ := key core s t h
    rw [Nat.succ_add]
    exact Reaches.cons hs (ih h2)

/-- A state with PHASE set. -/
def State.at (s : State) (p : Phase) : State := { s with phase := p }

/-- A command `i` runs in `s` and the engine has every coming turn. -/
structure Undisturbed (i : Instr) (s : State) : Prop where
  busy : s.busy = true
  pace : s.pace = []
  cmd : decode s.cmd = .ok i

theorem Undisturbed.of_same {i : Instr} {s t : State} (g : Undisturbed i s) (h : SameOutside s t) : Undisturbed i t :=
  ⟨h.busy_eq.trans g.busy, h.pace.trans g.pace, by rw [h.cmd, g.cmd]⟩

theorem Undisturbed.step_eq {i : Instr} {s : State} (g : Undisturbed i s) (p : Phase) :
    step (s.at p) = phaseStep i (s.at p) := by
  have hb : (s.at p).busy = true := g.busy
  have hp : (s.at p).pace = [] := g.pace
  have hd : decode (s.at p).cmd = .ok i := g.cmd
  rw [step, if_pos hb, hp]
  simp only [engineStep, hd]

theorem byteStepPhase_at (i : Instr) (s : State) (p : Phase) : byteStepPhase i (s.at p) = (byteStepPhase i s).at p := by
  cases i <;> rfl
theorem blockPhase_at (i : Instr) (s : State) (p : Phase) : blockPhase i (s.at p) = (blockPhase i s).at p := by
  cases i <;> rfl
theorem initPhase_at (i : Instr) (s : State) (p : Phase) : initPhase i (s.at p) = (initPhase i s).at p := by
  cases i <;> rfl
theorem serializePhase_at (i : Instr) (s : State) (p : Phase) : serializePhase i (s.at p) = (serializePhase i s).at p := by
  cases i <;> rfl

/-- The tail, one byte a step (R165). -/
theorem reaches_tail {i : Instr} (hi : i ≠ .sipRef) (n : Nat) (s : State) (g : Undisturbed i s)
    (h : s.pos.toNat + n = s.inLen.toNat) :
    Reaches n (s.at .tail) ((loop (byteStepPhase i) n s).at .tail) ∧
      (loop (byteStepPhase i) n s).pos.toNat = s.inLen.toNat := by
  induction n generalizing s with
  | zero => exact ⟨Reaches.zero _, h⟩
  | succ n ih =>
    have hs := byteStepPhase_pos hi (s := s) (by omega)
    have hl := (sameOutside_byteStepPhase i s).inLen
    obtain ⟨a, b⟩ := ih (byteStepPhase i s) (g.of_same (sameOutside_byteStepPhase i s)) (by rw [hs, hl]; omega)
    refine ⟨Reaches.cons ?_ a, by rw [loop, b, hl]⟩
    rw [g.step_eq]
    show (if s.pos.toNat < s.inLen.toNat then _ else _) = _
    rw [if_pos (by omega), byteStepPhase_at]

/-- The prefix, one byte a step (R161). -/
theorem reaches_prefix {i : Instr} (hi : i ≠ .sipRef) (n : Nat) (s : State) (g : Undisturbed i s)
    (h : s.pos.toNat + n = s.k.toNat) (hk : s.k.toNat ≤ s.inLen.toNat) :
    Reaches n (s.at .prefixFold) ((loop (byteStepPhase i) n s).at .prefixFold) ∧
      (loop (byteStepPhase i) n s).pos.toNat = s.k.toNat ∧ (loop (byteStepPhase i) n s).k = s.k := by
  induction n generalizing s with
  | zero => exact ⟨Reaches.zero _, h, rfl⟩
  | succ n ih =>
    have hs := byteStepPhase_pos hi (s := s) (by omega)
    have hl := (sameOutside_byteStepPhase i s).inLen
    have hkk := byteStepPhase_k i s
    obtain ⟨a, b, c⟩ := ih (byteStepPhase i s) (g.of_same (sameOutside_byteStepPhase i s)) (by rw [hs, hkk]; omega)
      (by rw [hkk, hl]; exact hk)
    refine ⟨Reaches.cons ?_ a, by rw [loop, b, hkk], by rw [loop, c, hkk]⟩
    rw [g.step_eq]
    show (if s.pos.toNat < s.k.toNat then _ else _) = _
    rw [if_pos (by omega), byteStepPhase_at]

/-- The main loop, one block a step (R163). -/
theorem reaches_main {i : Instr} (hi : i.backend ≠ .ref) (n : Nat) (s : State) (g : Undisturbed i s)
    (h : s.pos.toNat + stride i.backend * n ≤ s.inLen.toNat) :
    Reaches n (s.at .main) ((loop (blockPhase i) n s).at .main) ∧
      (loop (blockPhase i) n s).pos.toNat = s.pos.toNat + stride i.backend * n := by
  induction n generalizing s with
  | zero => exact ⟨Reaches.zero _, rfl⟩
  | succ n ih =>
    rw [Nat.mul_succ] at h
    have hm : s.pos.toNat + stride i.backend ≤ s.inLen.toNat := by omega
    have hs := blockPhase_pos hi hm
    have hl := (sameOutside_blockPhase i s).inLen
    obtain ⟨a, b⟩ := ih (blockPhase i s) (g.of_same (sameOutside_blockPhase i s)) (by rw [hs, hl]; omega)
    refine ⟨Reaches.cons ?_ a, by rw [loop, b, hs, Nat.mul_succ]; omega⟩
    rw [g.step_eq]
    show (if s.pos.toNat + stride i.backend ≤ s.inLen.toNat then _ else _) = _
    rw [if_pos hm, blockPhase_at]

/-- The message words of SIP, one word a step (R247). -/
theorem reaches_sipWords (n : Nat) (s : State) (g : Undisturbed .sipRef s) (h : s.pos.toNat + 8 * n ≤ s.inLen.toNat) :
    Reaches n (s.at .sipWords) ((loop sipWord n s).at .sipWords) ∧
      (loop sipWord n s).pos.toNat = s.pos.toNat + 8 * n := by
  induction n generalizing s with
  | zero => exact ⟨Reaches.zero _, rfl⟩
  | succ n ih =>
    have hm : s.pos.toNat + 8 ≤ s.inLen.toNat := by omega
    have hs : (sipWord s).pos.toNat = s.pos.toNat + 8 := pos_add_toNat hm
    obtain ⟨a, b⟩ := ih (sipWord s) (g.of_same (sameOutside_sipWord s)) (by rw [hs]; show _ ≤ s.inLen.toNat; omega)
    refine ⟨Reaches.cons ?_ a, by rw [loop, b, hs]; omega⟩
    rw [g.step_eq]
    show (if s.pos.toNat + 8 ≤ s.inLen.toNat then _ else _) = _
    rw [if_pos hm]
    rfl

end Sys2Proof.Machine
end

