-- ==== Sys2Proof/Tests/Slice0.lean ====
section
/-! SUPPORT. The model's own tests, with expected values from spec/95_test_vectors.md, and for each statement with hypotheses
a state and operands that meet them. -/

namespace Sys2Proof.Tests

open Sys2Proof Sys2Proof.Machine

set_option Elab.async false

/-! ### Helpers -/

/-- The bytes 0, 1, ... below n. -/
def upTo (n : Nat) : List Byte := (List.range n).map (BitVec.ofNat 8)

/-- Memory with a run of bytes written from an address on. -/
def place : Memory → Nat → List Byte → Memory
  | m, _, [] => m
  | m, a, b :: bs => place (Memory.write m a b) (a + 1) bs

/-- An idle engine, just reset, with an input at `a`, the standard key at 0x2000 and an output range at 0x3000. -/
def ready (a : Nat) (input : List Byte) : State :=
  { State.reset with
    inAddr := BitVec.ofNat 64 a
    inLen := BitVec.ofNat 64 input.length
    keyAddr := 0x2000
    keyLen := 16
    outAddr := 0x3000
    outCap := 20
    mem := place (place [] 0x2000 (upTo 16)) a input }

/-- What a function says of the next state, when there is one. -/
def onNext {α : Type} (f : State → α) : Host.Outcome State Fault Refusal → Option α
  | .next t => some (f t)
  | .fault _ => none
  | .refused _ => none

/-- What stopped the machine, when it refused. -/
def refusalOf : Host.Outcome State Fault Refusal → Option Refusal
  | .next _ => none
  | .fault _ => none
  | .refused r => some r

/-- What stopped the machine, when it faulted. -/
def faultOf : Host.Outcome State Fault Refusal → Option Fault
  | .next _ => none
  | .fault r => some r
  | .refused _ => none

/-- ERR and the n bytes at OUT_ADDR after a command. -/
def output (i : Instr) (n : Nat) (s : State) : Option (Word32 × List Byte) :=
  onNext (fun t => (t.err, Memory.bytes t.mem 0x3000 n)) (exec i s)

/-- "abc" -/
def abc : List Byte := [0x61, 0x62, 0x63]

/-! ### Well-formedness (R97) -/

theorem test_ill_formed_vn : Instr.wellFormed { Params.default with capVN := false } .m128Vn = false := by decide
theorem test_ill_formed_va : Instr.wellFormed { Params.default with capVA := false } .m128Va = false := by decide
theorem test_ill_formed_vb : Instr.wellFormed { Params.default with capVB := false } .m128Vb = false := by decide

/-! ### Decoding: bits 31:7, BACKEND, bit 3, VARIANT of R90, the codes of R91 and R92 -/

theorem test_decode_m32Ref : decode 0b0000000000000000000000000_000_0_001#32 = .ok .m32Ref := by rfl
theorem test_decode_m32Opt : decode 0b0000000000000000000000000_001_0_001#32 = .ok .m32Opt := by rfl
theorem test_decode_m32kRef : decode 0b0000000000000000000000000_000_0_010#32 = .ok .m32kRef := by rfl
theorem test_decode_m32kOpt : decode 0b0000000000000000000000000_001_0_010#32 = .ok .m32kOpt := by rfl
theorem test_decode_m128Ref : decode 0b0000000000000000000000000_000_0_011#32 = .ok .m128Ref := by rfl
theorem test_decode_m128Opt : decode 0b0000000000000000000000000_001_0_011#32 = .ok .m128Opt := by rfl
theorem test_decode_m128Vn : decode 0b0000000000000000000000000_010_0_011#32 = .ok .m128Vn := by rfl
theorem test_decode_m128Va : decode 0b0000000000000000000000000_011_0_011#32 = .ok .m128Va := by rfl
theorem test_decode_m128Vb : decode 0b0000000000000000000000000_100_0_011#32 = .ok .m128Vb := by rfl
theorem test_decode_sipRef : decode 0b0000000000000000000000000_000_0_100#32 = .ok .sipRef := by rfl

/-- 95_test_vectors.md section 2.2. -/
theorem test_illegal_words :
    [0x00, 0x05, 0x06, 0x07, 0x21, 0x31, 0x41, 0x22, 0x32, 0x42, 0x14, 0x24, 0x34, 0x44, 0x10, 0x20, 0x53, 0x63, 0x73,
      0x0B, 0x83, 0x103, 0x80000003, 0xFFFFFFFF].map (decodeTableWord 32) = List.replicate 24 none := by decide

/-! ### Commands: 95_test_vectors.md sections 3.4 to 3.7, programs P2 and P3 -/

theorem test_m32Ref_abc : output .m32Ref 5 (ready 0x1000 abc) = some (0, [0x8B, 0x5C, 0x88, 0x0B, 0]) := by decide +kernel
theorem test_m32Ref_high_byte :
    output .m32Ref 4 (ready 0x1000 [0xFF]) = some (0, [0xA4, 0xB6, 0x02, 0x00]) := by decide +kernel
theorem test_m32Opt_split :
    output .m32Opt 4 (ready 0x1003 (upTo 37)) = some (0, [0xFF, 0x95, 0x76, 0x0B]) := by decide +kernel
theorem test_m32kRef_abc : output .m32kRef 4 (ready 0x1000 abc) = some (0, [0x8B, 0x5D, 0x8A, 0x08]) := by decide +kernel
theorem test_m32kOpt_split :
    output .m32kOpt 4 (ready 0x1003 (upTo 37)) = some (0, [0xFF, 0x94, 0x74, 0x08]) := by decide +kernel

/-- The digest of program P2. -/
def digestP2 : List Byte := [0xF9, 0x3A, 0x31, 0x2F, 0xBA, 0xEC, 0x46, 0xDF, 0x4F, 0x37, 0x6B, 0x83, 0xDC, 0x9F, 0x8F, 0x37]

theorem test_m128Ref_abc : output .m128Ref 16 (ready 0x1000 abc) =
    some (0, [0x06, 0xB7, 0x00, 0x03, 0x03, 0xB3, 0x04, 0x07, 0x00, 0xBF, 0x08, 0x0B, 0x09, 0x18, 0x0E, 0x0F]) := by
  decide +kernel
theorem test_m128Opt_split : output .m128Opt 16 (ready 0x1003 (upTo 37)) = some (0, digestP2) := by decide +kernel
theorem test_m128Vn_split : output .m128Vn 16 (ready 0x1003 (upTo 37)) = some (0, digestP2) := by decide +kernel
theorem test_m128Va_split : output .m128Va 17 (ready 0x1003 (upTo 37)) = some (0, digestP2 ++ [0]) := by decide +kernel
theorem test_m128Vb_split : output .m128Vb 16 (ready 0x1003 (upTo 37)) = some (0, digestP2) := by decide +kernel
theorem test_sipRef_fifteen : output .sipRef 9 (ready 0x1003 (upTo 15)) =
    some (0, [0xE5, 0x45, 0xBE, 0x49, 0x61, 0xCA, 0x29, 0xA1, 0]) := by decide +kernel
theorem test_sipRef_empty : output .sipRef 8 (ready 0x1000 []) =
    some (0, [0x31, 0x0E, 0x0E, 0xDD, 0x47, 0xDB, 0x6F, 0x72]) := by decide +kernel

/-- Program P2: the accesses of M128.VN. -/
theorem test_m128Vn_accesses : onNext (fun t => (t.accesses.reverse.take 9, t.accesses.head?)) (exec .m128Vn (ready 0x1003 (upTo 37))) =
    some ([.read 0x1003 1, .read 0x1004 1, .read 0x1005 1, .read 0x1006 1, .read 0x1007 1, .read 0x1008 8, .read 0x1010 8,
      .read 0x1018 8, .read 0x1020 8], some (.write 0x3000 16)) := by decide +kernel

/-! ### Parts: 95_test_vectors.md sections 1.2, 3.3, 3.4, 3.5 -/

theorem test_byteStep_wraps : byteStep 0xFFFFFFFF 0xFF = 0x000000DE := by decide
theorem test_vecStep_lanes : vecStep ⟨0xFFFFFFFF, 0, 0x80000000, 0x07FFFFFF⟩ ⟨0xFF, 0, 0x80, 1⟩ =
    ⟨0x000000DE, 0, 0x80000080, 0x07FFFFE0⟩ := by decide
theorem test_rotateLeft_direction :
    (rotateLeft { State.reset with k := 3, lanes := ⟨0x2B5B5, 0x2B5B6, 0x2B5B7, 0x1505⟩ }).lanes =
      ⟨0x1505, 0x2B5B5, 0x2B5B6, 0x2B5B7⟩ := by decide
theorem test_permute :
    permute 0x0F0E0D0C0B0A09080706050403020100 = 0x0F0B07030E0A06020D0905010C080400 := by decide +kernel
theorem test_sipRound : sipRound ⟨0x7469686173716475, 0x6B617F6D656E6665, 0x6B7F62616D677361, 0x7C6D6C6A717C6D7B⟩ =
    ⟨0x64668A929363847F, 0x4ED232083D9AA8DC, 0xF2F74892D8141A2E, 0x9290F9810552F4A8⟩ := by decide +kernel

/-! ### The register file and the Validator: 95_test_vectors.md sections 3.1 and 3.2 -/

theorem test_operand_write_wraps : onNext (·.inAddr) (hostOp (.wr 4 0x10000000000001000) State.reset) = some 0x1000 := by
  decide +kernel
theorem test_narrow_operand_write_wraps :
    onNext (·.inAddr) (hostOp (.wr 4 0x100001000) { State.reset with hw := { Params.default with aw := .aw32 } }) =
      some 0x1000 := by decide +kernel
theorem test_command_write_wraps :
    onNext (fun t => (t.cmd, t.status, t.err)) (hostOp (.wr 0 0x100000001) State.reset) = some (1, 2, 0xFFFFFFFF) := by
  decide +kernel
theorem test_illegal_keeps_err :
    onNext (fun t => (t.cmd, t.status, t.err)) (hostOp (.wr 0 0x21) { State.reset with status := 2, err := 0xFFFFFFFF }) =
      some (0x21, 4, 0xFFFFFFFF) := by decide +kernel
theorem test_word_runs_from_reset :
    onNext (fun t => (t.cmd, t.status, t.err)) (step (State.reset.withFetchWord 32 0x33)) = some (0x33, 2, 0xFFFFFFFF) := by
  decide +kernel

/-- The Validator of a keyed command with a 16-byte digest. -/
def check16 (ia il ka kl oa oc : Nat) : Verdict := validate 64 16 true ia il ka kl oa oc

/-- V14, V15, V16: the first failing check wins. -/
theorem test_validator_order :
    [check16 0 0x20 0x2000 0x10 0x3000 0, check16 0x1000 0x20 0x2000 8 0x3000 0xF, check16 0x1000 0x20 0x2000 8 0x1010 0x10] =
      [.code .invalidParameter, .code .outputTooSmall, .code .keyTooSmall] := by decide

/-- V17 to V24, V26 and V28. -/
theorem test_validator_overlap :
    [check16 0x1000 0x20 0x2000 0x10 0x1010 0x10, check16 0x1008 4 0x2000 0x10 0x1000 0x10,
      check16 0x1000 0x20 0x2000 0x10 0x101F 0x10, check16 0x1000 0x20 0x2000 0x10 0x1020 0x10,
      check16 0x1010 0x20 0x2000 0x10 0x1000 0x10, check16 0x100F 0x20 0x2000 0x10 0x1000 0x10,
      check16 0x1000 0x20 0x1018 0x10 0x3000 0x10, check16 0x1000 0x20 0x3008 0x10 0x3000 0x10,
      check16 0x3004 0 0x2000 0x10 0x3000 0x10, check16 0x1000 0x20 0x2000 0x40 0x2028 0x10] =
    [.code .rangesOverlap, .code .rangesOverlap, .code .rangesOverlap, .code .success, .code .success, .code .rangesOverlap,
      .code .rangesOverlap, .code .rangesOverlap, .code .success, .code .rangesOverlap] := by decide

/-! ### Witnesses: for each statement with hypotheses, a state and operands that meet them -/

theorem answers_of_onNext {o : Host.Outcome State Fault Refusal} (h : (onNext (fun _ => ()) o).isSome = true) :
    ∃ t, o = .next t := by
  cases o with
  | next t => exact ⟨t, rfl⟩
  | fault r => cases h
  | refused r => cases h

theorem refused_of_refusalOf {o : Host.Outcome State Fault Refusal} {r : Refusal} (h : refusalOf o = some r) :
    o = .refused r := by
  cases o with
  | next t => cases h
  | fault r => cases h
  | refused q => cases h; rfl

/-- The input of program P2, at an odd address and of 37 bytes. -/
def split : State := ready 0x1003 (upTo 37)

/-- An empty input. -/
def empty : State := ready 0x1000 []

/-- Ranges at their edges: the output begins where the input ends, the key where the output ends, and each is as small as a
keyed 16-byte command admits. -/
def tight : State := { ready 0x1FF0 (upTo 1) with outAddr := 0x1FF1, outCap := 16, keyAddr := 0x2001 }

/-- An output range whose last byte is the last of the address space. -/
def topmost : State := { ready 0x1000 abc with outAddr := 0xFFFFFFFFFFFFFFEC }

/-- The same, one byte further. -/
def pastTheTop : State := { ready 0x1000 abc with outAddr := 0xFFFFFFFFFFFFFFED }

/-- M128.VA issued on the input of P2 and not yet run. -/
def issued : State := issueLegal .m128Va { split with cmd := 0x33 }

/-- The same in phase WRITE. -/
def writing : State := { issued with phase := .write, pos := 37 }

/-- An idle engine, the host about to write a command's word to CMD, and no pace. -/
def aboutToRun : State := { split with host := [commandOp .m128Va] }

/-- The command of P2 has completed in one step, and the host has not read STATUS since. -/
def finished : State := { split with status := 2, awaited := [⟨0x1003, 37, 0x2000, 16, 0x3000, 16⟩] }

/-- While a command runs, the host polls. -/
def hostTurn : State := { issued with pace := [.host], host := [.wait] }

theorem accepted_split (i : Instr) : Accepted i split := by
  rw [accepted_iff]; cases i <;> exact ⟨by decide, by decide +kernel⟩

theorem accepted_empty (i : Instr) : Accepted i empty := by
  rw [accepted_iff]; cases i <;> exact ⟨by decide, by decide +kernel⟩

theorem accepted_tight (i : Instr) : Accepted i tight := by
  rw [accepted_iff]; cases i <;> exact ⟨by decide, by decide +kernel⟩

theorem accepted_topmost (i : Instr) : Accepted i topmost := by
  rw [accepted_iff]; cases i <;> exact ⟨by decide, by decide +kernel⟩

theorem accepted_issued (i : Instr) : Accepted i issued := by
  rw [accepted_iff]; cases i <;> exact ⟨by decide, by decide +kernel⟩

theorem wf_split : Memory.wf split.mem := by decide +kernel
theorem wf_empty : Memory.wf empty.mem := by decide +kernel

theorem answers_split (i : Instr) : ∃ t, exec i split = .next t := by
  apply answers_of_onNext; cases i <;> decide +kernel

theorem inv_issued : issued.Inv where
  memWf := by decide +kernel
  memBound := by decide +kernel
  inAddr := by decide
  inLen := by decide
  keyAddr := by decide
  keyLen := by decide
  outAddr := by decide
  outCap := by decide
  status := by decide
  err := ⟨.success, by decide⟩
  idle := by decide
  running := fun _ => ⟨.m128Va, by rfl, by
    constructor <;> decide +kernel⟩

/-- Running, idle, and about to be issued: good states from which a step answers a next state. -/
theorem witness_StepKeepsGoodStates : issued.Inv ∧ ∃ t, step issued = .next t :=
  ⟨inv_issued, answers_of_onNext (by decide +kernel)⟩

theorem witness_ResetEventClearsRegistersAndKeepsMemory :
    (writing.busy = true ∧ writing.phase = .write ∧ decode writing.cmd = .ok .m128Va) ∧
      ¬ (issued.busy = true ∧ issued.phase = .write) := ⟨by decide, by decide⟩

theorem witness_FirstCommandAfterResetIsInvalidParameter :
    backendPresent State.reset.hw Instr.sipRef.backend = true ∧ State.reset.inAddr = 0 ∧ State.reset.inLen = 0 ∧
      State.reset.keyAddr = 0 ∧ State.reset.keyLen = 0 ∧ State.reset.outAddr = 0 ∧ State.reset.outCap = 0 := by decide

theorem witness_CapBitsTellPresentBackends :
    State.reset.hw = Params.default ∧ 5 ≤ 31 ∧ step State.reset = .next State.reset := ⟨rfl, by decide, rfl⟩

theorem test_read_only_write_ignored :
    [1, 2, 3].map (fun i => onNext (fun t => (t.status, t.err, readReg t 3))
      (hostOp (.wr i 5) { State.reset with status := 2, err := 0xFFFFFFFF })) =
      List.replicate 3 (some (2, 0xFFFFFFFF, 0x1F)) := by decide +kernel

theorem witness_WritesAreKeptModuloTheWidth : State.reset.busy = false ∧ 10 ≤ 10 ∧ ∃ t, hostOp (.wr 0 1) State.reset = .next t :=
  ⟨by decide, by decide, answers_of_onNext (by decide +kernel)⟩

theorem witness_WritesWhileBusyAreIgnored : issued.busy = true ∧ ∃ t, engineStep issued = .next t :=
  ⟨by decide, answers_of_onNext (by decide +kernel)⟩

theorem witness_IllegalWordSetsIllAndNothingElse :
    (State.reset.busy = false ∧
      ∀ i, decode (BitVec.ofNat 32 0x21) = .ok i → backendPresent State.reset.hw i.backend = false) ∧
    (∀ i, decode (BitVec.ofNat 32 0x23) = .ok i →
      backendPresent { Params.default with capVN := false } i.backend = false) :=
  ⟨⟨by decide, fun i h => by cases h⟩, fun i h => by cases h; rfl⟩

theorem witness_LegalIssueSetsBusyAndKeepsErr :
    let s := { split with pace := [Turn.engine] }
    s.busy = false ∧ s.pace ≠ [] ∧ decode (BitVec.ofNat 32 0x43) = .ok .m128Vb ∧
      backendPresent s.hw Instr.m128Vb.backend = true := ⟨by decide, by decide, by rfl, by decide⟩

theorem witness_WaitPollsStatusUntilIdle : issued.busy = true ∧ split.busy = false := by decide

/-- Each clause at an edge: OUT_CAP one short, KEY_LEN one short, a range one byte past 2^AW, one shared byte, ranges that
touch. -/
theorem witness_ValidatorReportsFirstFailingCheck :
    validate 64 16 true 0x1000 0x20 0 0x10 0x3000 0x10 = .code .invalidParameter ∧
    validate 64 16 true 0x1000 0x20 0x2000 0x10 0x3000 0xF = .code .outputTooSmall ∧
    validate 64 16 true 0x1000 0x20 0x2000 0xF 0x3000 0x10 = .code .keyTooSmall ∧
    validate 64 16 true 0xFFFFFFFFFFFFFFF0 0x11 0x2000 0x10 0x3000 0x10 = .pastTop ∧
    validate 64 16 true 0x1000 0x20 0x2000 0x10 0x101F 0x10 = .code .rangesOverlap ∧
    validate 64 16 true 0xFFFFFFFFFFFFFFF0 0x10 0x2000 0x10 0x2010 0x10 = .code .success := by decide

theorem witness_OverlapTestFindsSharedByte :
    (0 < 1 ∧ 0 < 16 ∧ overlap 0x1010 1 0x1001 16 = true) ∧ (0x1000 + 16 = 0x1010 ∧ overlap 0x1000 16 0x1010 1 = false) := by
  decide

theorem witness_UnkeyedCommandIgnoresKeyOperands :
    Instr.m32Ref.variant = .m32 ∧ (∃ t, exec .m32Ref split = .next t) ∧
      onNext (·.awaited) (exec .m32Ref { split with keyAddr := 7 }) = onNext (·.awaited) (exec .m32Ref split) ∧
      ∃ r, exec .m32Ref pastTheTop = .refused r :=
  ⟨rfl, answers_split _, by decide +kernel, .rangePastTop, refused_of_refusalOf (by decide +kernel)⟩

theorem witness_FailedCommandChangesStatusAndErrOnly :
    backendPresent State.reset.hw Instr.m128Va.backend = true ∧
      verdict .m128Va { split with outCap := 15 } = .code .outputTooSmall ∧ ErrorCode.outputTooSmall ≠ .success := by
  decide +kernel

/-- A range that ends with the last byte of the address space, and one a byte longer. -/
theorem witness_RangePastTheTopIsRefused :
    insideTop pastTheTop.hw.aw.bits topmost.outAddr.toNat topmost.outCap.toNat ∧
      ¬ insideTop pastTheTop.hw.aw.bits pastTheTop.outAddr.toNat pastTheTop.outCap.toNat ∧
      backendPresent pastTheTop.hw Instr.m128Va.backend = true ∧ pastTheTop.inAddr ≠ 0 ∧ pastTheTop.outAddr ≠ 0 ∧
      pastTheTop.keyAddr ≠ 0 ∧ digestSize Variant.m128 ≤ pastTheTop.outCap.toNat ∧ 16 ≤ pastTheTop.keyLen.toNat ∧
      ¬ (digestSize Variant.m128 ≤ State.reset.outCap.toNat) := by
  unfold insideTop; decide +kernel

theorem witness_AbsentBackendIsAnIllegalWord :
    backendPresent { Params.default with capVB := false } Instr.m128Vb.backend = false := by decide

/-- Each clause at an edge of its range. -/
theorem witness_IllegalWordsAreRejectedByName :
    [decode 0x80, decode 0x08, decode 0x78, decode 0x05, decode 0x70, decode 0x51, decode 0x74, decode 0x21, decode 0x42, decode 0x14,
      decode 0x44].map (fun r => match r with | .ok _ => none | .error e => some e) =
    [some .highBitsSet, some .bitThreeSet, some .bitThreeSet, some .reservedVariant, some .reservedVariant,
      some .reservedBackend, some .reservedBackend, some .illegalPair, some .illegalPair, some .illegalPair,
      some .illegalPair] := by decide

theorem witness_StepRunsTheDecodedCommand :
    aboutToRun.busy = false ∧ aboutToRun.pace = [] ∧ aboutToRun.host = .wr 0 0x33 :: [] ∧
      decode (BitVec.ofNat 32 0x33) = .ok .m128Va := ⟨by decide, rfl, rfl, by rfl⟩

theorem witness_StepMovesTheAgentWhoseTurnItIs :
    (split.busy = false ∧ split.host = []) ∧ (aboutToRun.busy = false ∧ aboutToRun.host = commandOp .m128Va :: []) ∧
      (issued.busy = true ∧ issued.pace = []) ∧
      ({ issued with pace := [.engine] }.busy = true ∧ { issued with pace := [.engine] }.pace = .engine :: []) ∧
      (hostTurn.busy = true ∧ hostTurn.pace = .host :: [] ∧ hostTurn.host = .wait :: []) ∧
      ({ issued with pace := [.host] }.busy = true ∧ { issued with pace := [.host] }.pace = .host :: [] ∧
        { issued with pace := [.host] }.host = []) := by decide

theorem witness_FinalAccumulatorHasClosedForm :
    (Instr.m32kOpt.variant = .m32k ∧ Accepted .m32kOpt split) ∧ (empty.inLen = 0 ∧ Accepted .m32Ref empty) :=
  ⟨⟨rfl, accepted_split _⟩, rfl, accepted_empty _⟩

theorem witness_FinalLanesHaveClosedForm :
    (Instr.m128Vn.variant = .m128 ∧ Accepted .m128Vn tight) ∧ (empty.inLen = 0 ∧ Accepted .m128Va empty) :=
  ⟨⟨rfl, accepted_tight _⟩, rfl, accepted_empty _⟩

theorem witness_UnkeyedCommandsWriteTheAccumulator :
    Memory.wf split.mem ∧ Accepted .m32Ref split ∧ Accepted .m32Opt split := ⟨wf_split, accepted_split _, accepted_split _⟩

theorem witness_KeyedCommandsMixKeyIntoDigest :
    Memory.wf split.mem ∧ Accepted .m32kRef split ∧ Accepted .m32kOpt split ∧ Accepted .m128Ref split ∧
      Accepted .m128Opt split ∧ Accepted .m128Vn split ∧ Accepted .m128Va split ∧ Accepted .m128Vb split :=
  ⟨wf_split, accepted_split _, accepted_split _, accepted_split _, accepted_split _, accepted_split _, accepted_split _,
    accepted_split _⟩

theorem witness_SipCommandWritesSipHash :
    (Memory.wf split.mem ∧ Accepted .sipRef split) ∧ (Memory.wf empty.mem ∧ Accepted .sipRef empty) :=
  ⟨⟨wf_split, accepted_split _⟩, wf_empty, accepted_empty _⟩

theorem witness_CommandChangesOnlyItsOutputBytes (i : Instr) : Accepted i tight := accepted_tight i

theorem witness_CommandMakesItsAccessesInOrder (i : Instr) : Accepted i empty ∧ Accepted i split :=
  ⟨accepted_empty i, accepted_split i⟩

theorem witness_CommandLeavesOtherVariantsRegisters (i : Instr) : Accepted i split ∧ ∃ t, exec i split = .next t :=
  ⟨accepted_split i, answers_split i⟩

theorem witness_BackendsOfAVariantAgree :
    (Instr.m128Ref.variant = Instr.m128Vb.variant ∧ backendPresent split.hw Instr.m128Ref.backend = true ∧
      backendPresent split.hw Instr.m128Vb.backend = true ∧ Memory.wf split.mem ∧ ∃ t, exec .m128Ref split = .next t) ∧
    (Memory.wf pastTheTop.mem ∧ ∃ r, exec .m128Ref pastTheTop = .refused r) :=
  ⟨⟨rfl, by decide, by decide, wf_split, answers_split _⟩, by decide +kernel, .rangePastTop,
    refused_of_refusalOf (by decide +kernel)⟩

/-- The second state differs in a working register, in the memory outside the ranges, and in an earlier command's STATUS. -/
theorem witness_ResultDependsOnOperandsAndFootprintOnly :
    let u := { split with lanes := ⟨1, 2, 3, 4⟩, status := 4, mem := Memory.write split.mem 0x5000 7 }
    KeepsOperands split u ∧ Memory.wf split.mem ∧ Memory.wf u.mem ∧ inputBytes u = inputBytes split ∧
      keyBytes u 16 = keyBytes split 16 ∧ ∃ t, exec .m128Vn split = .next t :=
  ⟨⟨rfl, rfl, rfl, rfl, rfl, rfl, rfl, rfl⟩, wf_split, by decide +kernel, by decide +kernel, by decide +kernel,
    answers_split _⟩

/-- The keys differ in their byte 3, the last that M32K uses. -/
theorem witness_DifferentKeysGiveDifferentDigests :
    let u := { split with mem := Memory.write split.mem 0x2003 0 }
    Memory.wf split.mem ∧ Memory.wf u.mem ∧ KeepsOperands split u ∧ Accepted .m32kRef split ∧
      inputBytes u = inputBytes split ∧ keyBytes u (digestSize .m32k) ≠ keyBytes split (digestSize .m32k) :=
  ⟨wf_split, by decide +kernel, ⟨rfl, rfl, rfl, rfl, rfl, rfl, rfl, rfl⟩, accepted_split _, by decide +kernel,
    by decide +kernel⟩

theorem witness_PrefixReachesTheNextAlignedAddress :
    ((loadK .va split).k.toNat = 13 ∧ 13 < split.inLen.toNat) ∧ (loadK .va tight).k.toNat = 0 ∧
      (loadK .vn { split with inLen := 2 }).k.toNat = 2 := by decide +kernel

theorem witness_SipFinalWordPacksLengthAndLeftover : (upTo 7).length = 255 % 8 ∧ ([] : List Byte).length = 256 % 8 := by
  decide

theorem witness_PermuteMakesLaneBytesContiguous :
    3 < 4 ∧ byteOf (permute 0x0F0E0D0C0B0A09080706050403020100) (4 * 1 + 3) = 0x0D := by decide +kernel

/-- The key bytes 00 01 02 03 into bytes 0 to 3, and none into byte 4. -/
theorem witness_MixerXorsDigestBytesWithKeyBytes :
    let s := { split with dg := 0xFF00000000 }
    3 < 4 ∧ 4 ≤ 4 ∧ (mix 4 s).dg = 0xFF03020100 := by decide +kernel

theorem witness_DigestWriteStoresExactlyDBytes : Memory.wf issued.mem ∧ 15 < 16 := ⟨by decide +kernel, by decide⟩

theorem witness_MemoryReadsBackLittleEndian :
    Memory.wf split.mem ∧ 3 < 4 ∧ (0x2FFF < 0x3000 ∨ 0x3000 + 4 ≤ 0x2FFF) ∧ (0x3004 < 0x3000 ∨ 0x3000 + 4 ≤ 0x3004) :=
  ⟨wf_split, by decide, by decide, by decide⟩

theorem witness_BlockReadsAreAligned :
    Accepted .m128Va split ∧ ∃ t, exec .m128Va split = .next t ∧ Access.read 0x1010 16 ∈ t.accesses := by
  refine ⟨accepted_split _, ?_⟩
  have h : onNext (fun t => decide (Access.read 0x1010 16 ∈ t.accesses)) (exec .m128Va split) = some true := by decide +kernel
  revert h
  cases exec .m128Va split with
  | next t => intro h; exact ⟨t, rfl, of_decide_eq_true (Option.some.inj h)⟩
  | fault r => intro h; cases h
  | refused r => intro h; cases h

theorem witness_CommandTouchesItsFootprintOnce :
    Accepted .m128Vn split ∧ verdict .m128Vn { split with keyLen := 15 } = .code .keyTooSmall ∧
      ∃ t, exec .m128Vn { split with keyLen := 15 } = .next t :=
  ⟨accepted_split _, by decide +kernel, answers_of_onNext (by decide +kernel)⟩

theorem witness_PhasedRunReachesTheBigStep :
    let s := { split with cmd := 0x33 }
    s.pace = [] ∧ decode s.cmd = .ok .m128Va ∧ backendPresent s.hw Instr.m128Va.backend = true ∧
      ∃ t, exec .m128Va s = .next t := ⟨rfl, by rfl, by decide, answers_of_onNext (by decide +kernel)⟩

theorem witness_RunningCommandCompletes : issued.Inv ∧ issued.busy = true ∧ issued.pace = [] :=
  ⟨inv_issued, by decide, rfl⟩

theorem witness_EngineStepsOnlyMoveForward :
    issued.Inv ∧ issued.busy = true ∧ decode issued.cmd = .ok .m128Va ∧ ∃ t, engineStep issued = .next t :=
  ⟨inv_issued, by decide, by rfl, answers_of_onNext (by decide +kernel)⟩

theorem witness_StepKeepsTheParameters : ∃ t, step issued = .next t := answers_of_onNext (by decide +kernel)

theorem witness_GoodStatesStopOnlyByTheNamedReasons :
    issued.Inv ∧ faultOf (hostOp (.load (2 ^ 64)) issued) = some (.outsideAddressSpace (2 ^ 64)) :=
  ⟨inv_issued, by decide +kernel⟩

/-- A step that changes ERR at a completion, and one that changes it by reset. -/
theorem witness_ErrChangesOnlyAtCompletionOrReset :
    onNext (·.err) (step (State.reset.withFetchWord 32 0x33)) = some 0xFFFFFFFF ∧
      onNext (·.err) (step { State.reset with err := 0xFFFFFFFF, host := [.reset] }) = some 0 := by decide +kernel

/-- A host store, and the last digest byte of a command. -/
theorem witness_MemoryChangesOnlyByDigestStoreOrReset :
    onNext (fun t => Memory.read t.mem 0x5000) (step { split with host := [.store 0x5000 9] }) = some 9 ∧
      onNext (fun t => Memory.read t.mem 0x300F) (step aboutToRun) = some 0x37 ∧ Memory.read aboutToRun.mem 0x300F = 0 := by
  decide +kernel

/-- The command of P2 in phase WRITE over a memory, and the reset event about to land. -/
def resetting (m : Memory) : State := { writing with mem := m, pace := [.host], host := [.reset] }

theorem decode_writing : decode writing.cmd = .ok .m128Va := by rfl
theorem wf_writing : Memory.wf writing.mem := by decide +kernel

theorem step_resetting (m : Memory) : ∃ t, step (resetting m) = .next t ∧ t.mem = Memory.scribble m 0x3000 16 0 := by
  have hb : (resetting m).busy = true := show writing.busy = true by decide
  have hw : writingDigest { resetting m with pace := [], host := [] } = true :=
    show (writing.busy && decide (writing.phase = .write)) = true by decide
  have hd : decode { resetting m with pace := [], host := [] }.cmd = .ok .m128Va := decode_writing
  refine ⟨resetEvent { resetting m with pace := [], host := [] }, ?_, ?_⟩
  · rw [step, if_pos hb]; rfl
  · rw [resetEvent_mem, bytesCutOff, if_pos hw, hd]; rfl

/-- A reset in phase WRITE that changes an output byte: whatever the first free byte is, 0 or 1 differs from it. -/
theorem witness_MemoryChangesOnlyByDigestStoreOrReset_reset :
    ∃ m t, step (resetting m) = .next t ∧ Memory.read t.mem 0x3000 ≠ Memory.read (resetting m).mem 0x3000 ∧
      (resetting m).host = .reset :: [] ∧ (resetting m).busy = true ∧ (resetting m).phase = .write ∧
      decode (resetting m).cmd = .ok .m128Va := by
  have changes (b : Byte) (hb : Config.freeByte 0 ≠ b) : ∃ m t, step (resetting m) = .next t ∧
      Memory.read t.mem 0x3000 ≠ Memory.read (resetting m).mem 0x3000 := by
    obtain ⟨t, ht, hm⟩ := step_resetting (Memory.write writing.mem 0x3000 b)
    refine ⟨_, t, ht, ?_⟩
    rw [hm, resetting, Memory.read_write_same wf_writing]
    have := Memory.read_scribble (Memory.write_wf wf_writing 0x3000 b) 0x3000 16 0 (j := 0) (by decide)
    rw [Nat.add_zero] at this
    rw [this]
    exact hb
  have rest (m : Memory) : (resetting m).host = .reset :: [] ∧ (resetting m).busy = true ∧ (resetting m).phase = .write ∧
      decode (resetting m).cmd = .ok .m128Va := ⟨rfl, show writing.busy = true by decide, rfl, decode_writing⟩
  by_cases h : Config.freeByte 0 = 0
  · obtain ⟨m, t, h1, h2⟩ := changes 1 (by rw [h]; decide)
    exact ⟨m, t, h1, h2, rest m⟩
  · obtain ⟨m, t, h1, h2⟩ := changes 0 h
    exact ⟨m, t, h1, h2, rest m⟩

theorem witness_OperandsChangeOnlyByIdleWriteOrReset :
    onNext (·.inLen) (step { split with host := [.wr 5 0] }) = some 0 ∧ split.inLen ≠ 0 := by decide +kernel

theorem witness_RunningFootprintIsGuarded :
    issued.Inv ∧ issued.busy = true ∧ decode issued.cmd = .ok .m128Va ∧ Accepted .m128Va issued ∧
      0x300F < 2 ^ issued.hw.aw.bits := ⟨inv_issued, by decide, by rfl, accepted_issued _, by decide⟩

/-- The command of P2 has completed, and no RD has returned DONE: the first and last bytes of the three ranges, and the bytes
next to them. -/
theorem witness_AwaitedFootprintIsGuarded :
    [0x1003, 0x1027, 0x2000, 0x200F, 0x3000, 0x300F].map (fun a => refusalOf (hostOp (.store a 1) finished)) =
        List.replicate 6 (some .bufferTouched) ∧
      [0x1002, 0x1028, 0x1FFF, 0x2010, 0x2FFF, 0x3010].map (fun a => refusalOf (hostOp (.store a 1) finished)) =
        List.replicate 6 none ∧
      [0x3000, 0x300F, 0x2FFF, 0x3010].map (fun a => refusalOf (hostOp (.load a) finished)) =
        [some .bufferTouched, some .bufferTouched, none, none] := by decide +kernel

/-- The WR that issues a command, a poll that does not return DONE, the RD that does, and a RD of another register. -/
theorem witness_AwaitedEndsAtTheReadOfDone :
    onNext (·.awaited) (step aboutToRun) = some finished.awaited ∧
      onNext (·.awaited) (step hostTurn) = some issued.awaited ∧
      onNext (·.awaited) (step { finished with host := [.rd 1] }) = some [] ∧
      onNext (·.awaited) (step { finished with host := [.rd 2] }) = some finished.awaited ∧
      onNext (·.awaited) (step { finished with host := [.reset] }) = some [] := by decide +kernel

/-- An accepted command at an idle engine, and one that is not accepted but answers. -/
theorem witness_AwaitedEndsAtTheReadOfDone_issue :
    (split.busy = false ∧ decode (BitVec.ofNat 32 0x33) = .ok .m128Va ∧ Accepted .m128Va split) ∧
      (State.reset.busy = false ∧ ¬ Accepted .m128Va State.reset ∧ ∃ t, hostOp (.wr 0 0x33) State.reset = .next t) :=
  ⟨⟨by decide, by rfl, accepted_split _⟩, by decide, fun h => h.inNonNull rfl, answers_of_onNext (by decide +kernel)⟩

end Sys2Proof.Tests
end

section
/-! SUPPORT. The statements of the scope (00_scope.md): where a register is on the bus, and that the backends of one variant
end alike. What a command leaves for the host to see is a function of its variant: the Validator's verdict, ERR, STATUS, and
the digest bytes in memory. -/

namespace Sys2Proof.Machine

/-! ### The bus -/

theorem indexAtBus_busAddress (i : Nat) : indexAtBus (busAddress i) = some i := by
  have hoff : busAddress i - Config.hx4Base = 8 * i := by rw [busAddress, Nat.add_sub_cancel_left]
  have hle : Config.hx4Base ≤ busAddress i := Nat.le_add_right _ _
  rw [indexAtBus, hoff, if_pos ⟨hle, Nat.mul_mod_right 8 i⟩, Nat.mul_div_cancel_left i (by decide)]

/-- Settles O11. -/
theorem busAddressSelectsItsRegister : Obligations.BusAddressSelectsItsRegister := by
  unfold Obligations.BusAddressSelectsItsRegister
  exact fun i => ⟨rfl, indexAtBus_busAddress i⟩

/-! ### What the variant decides -/

/-- A write of n bytes depends on the n low bytes of the value alone (R62). -/
theorem Memory.writeLE_eq_of_lowBytes {k l : Nat} (m : Memory) (a n : Nat) {v : BitVec k} {w : BitVec l}
    (h : lowBytes v n = lowBytes w n) (hm : Memory.wf m) :
    Memory.writeLE m a n v.toNat = Memory.writeLE m a n w.toNat := by
  refine Memory.ext_of_read (Memory.writeLE_wf hm ..) (Memory.writeLE_wf hm ..) fun x => ?_
  by_cases hx : x < a ∨ a + n ≤ x
  · rw [Memory.read_writeLE_of_outside _ _ hx, Memory.read_writeLE_of_outside _ _ hx]
  · obtain ⟨j, rfl⟩ : ∃ j, x = a + j := ⟨x - a, by omega⟩
    have hj : j < n := by omega
    have hb : byteOf v j = byteOf w j := by simpa [lowBytes, hj] using congrArg (·[j]?) h
    rw [Memory.read_writeLE hm _ hj, Memory.read_writeLE hm _ hj, ← byteOf_eq_ofNat, ← byteOf_eq_ofNat, hb]

theorem verdict_eq_of_variant {i j : Instr} (h : i.variant = j.variant) (s : State) : verdict i s = verdict j s := by
  rw [verdict, verdict, h]

theorem digestBytes_eq_of_variant {i j : Instr} (h : i.variant = j.variant) (s : State) :
    digestBytes i s = digestBytes j s := by
  rw [digestBytes, digestBytes, h]

theorem completed_status (i : Instr) (s : State) : (completed i s).status = statusDone (statusIssued s.status) :=
  congrArg statusDone (leavesDigest i (issueLegal i s)).outside.status

/-- Accepted commands of one variant leave the same memory: each body leaves the variant's digest in the bytes of DG that
the digest write stores (R216, R233). -/
theorem completed_mem_eq_of_variant {i j : Instr} (h : i.variant = j.variant) {s : State} (hm : Memory.wf s.mem) :
    (completed i s).mem = (completed j s).mem := by
  have hi := (leavesDigest i (issueLegal i s)).digest
  have hj := (leavesDigest j (issueLegal j s)).digest
  rw [completed_mem, completed_mem, ← h]
  refine Memory.writeLE_eq_of_lowBytes _ _ _ ?_ hm
  rw [hi, h, hj]
  exact digestBytes_eq_of_variant h s

/-! ### What a command with a present backend answers -/

/-- Such a command is refused exactly for the precondition of check 4 (R152). -/
theorem exec_eq_refused_iff {i : Instr} {s : State} (hp : backendPresent s.hw i.backend = true) (r : Refusal) :
    exec i s = .refused r ↔ verdict i s = .pastTop ∧ r = .rangePastTop := by
  rcases exec_cases i s with ⟨ha, -⟩ | ⟨-, hv, hx⟩ | ⟨e, -, -, hv, hx⟩ | ⟨-, hv, hx⟩
  · rw [hp] at ha; cases ha
  · simp [hv, hx, eq_comm]
  · simp [hv, hx]
  · simp [hv, hx]

/-- Such a command that answers has completed, with the Validator's code or with success (R125, R127). -/
theorem exec_eq_next_iff {i : Instr} {s : State} (hp : backendPresent s.hw i.backend = true) (t : State) :
    exec i s = .next t ↔
      (∃ e, e ≠ .success ∧ verdict i s = .code e ∧ t = complete e (issueLegal i s)) ∨
      (verdict i s = .code .success ∧ t = completed i s) := by
  constructor
  · intro ht
    rcases exec_cases i s with ⟨ha, -⟩ | ⟨-, -, hx⟩ | ⟨e, he, -, hv, hx⟩ | ⟨-, hv, hx⟩
    · rw [hp] at ha; cases ha
    · rw [hx] at ht; cases ht
    · rw [hx] at ht; cases ht; exact .inl ⟨e, he, hv, rfl⟩
    · rw [hx] at ht; cases ht; exact .inr ⟨hv, rfl⟩
  · rintro (⟨e, he, hv, rfl⟩ | ⟨hv, rfl⟩)
    · exact exec_of_error hp hv he
    · exact exec_of_success hp hv

/-- Settles O31: both commands get the same verdict, and an accepted one leaves the digest of the variant, whichever way its
backend folds the input. -/
theorem backendsOfAVariantAgree : Obligations.BackendsOfAVariantAgree := by
  unfold Obligations.BackendsOfAVariantAgree
  intro i j s hvar hi hj hm
  have hverdict := verdict_eq_of_variant hvar s
  constructor
  · intro r
    rw [exec_eq_refused_iff hi, exec_eq_refused_iff hj, hverdict]
  · intro t ht
    rcases (exec_eq_next_iff hi t).1 ht with ⟨e, he, hv, rfl⟩ | ⟨hv, rfl⟩
    · exact ⟨complete e (issueLegal j s), exec_of_error hj (hverdict ▸ hv) he, rfl, rfl, rfl⟩
    · refine ⟨completed j s, exec_of_success hj (hverdict ▸ hv), rfl, ?_, ?_⟩
      · rw [completed_status, completed_status]
      · exact (completed_mem_eq_of_variant hvar hm).symm

end Sys2Proof.Machine
end

section
/-! SUPPORT. The engine phase by phase (10_state.md R43, 40_command_lifecycle.md R126): which phase can come after which,
what holds in each while a command runs, and that every engine step moves forward and keeps what holds. -/

namespace Sys2Proof.Machine

/-! ### The order of the phases -/

/-- A phase and the one after it stand side by side in the order. -/
theorem consecutive_of_phaseAfter {p q : Phase} {l : List Phase} (h : phaseAfter p l = some q) :
    ∃ front back, l = front ++ p :: q :: back := by
  induction l with
  | nil => cases h
  | cons a l ih =>
    rw [phaseAfter] at h
    split at h
    · rename_i ha
      obtain ⟨back, rfl⟩ := List.head?_eq_some_iff.1 h
      exact ⟨[], back, by rw [ha]; rfl⟩
    · obtain ⟨front, back, rfl⟩ := ih h
      exact ⟨a :: front, back, rfl⟩

/-- The phases that can come after a phase, over all commands (R126). -/
def Phase.followers : Phase → List Phase
  | .idle => []
  | .validate => [.init, .sipInit]
  | .init => [.prefixFold, .tail]
  | .prefixFold => [.rotl, .main]
  | .rotl => [.main]
  | .main => [.rotr, .tail]
  | .rotr => [.tail]
  | .tail => [.mix, .write]
  | .mix => [.write]
  | .write => [.idle]
  | .sipInit => [.sipWords]
  | .sipWords => [.sipLast]
  | .sipLast => [.sipFin]
  | .sipFin => [.write]

theorem mem_followers_of_phaseAfter {p q : Phase} {i : Instr} (h : phaseAfter p (phaseOrder i) = some q) :
    q ∈ p.followers := by
  revert h; cases i <;> cases p <;> simp [phaseAfter, phaseOrder, Phase.followers] <;> rintro rfl <;> simp

theorem phaseAfter_write (i : Instr) : phaseAfter .write (phaseOrder i) = some .idle := by cases i <;> rfl

/-! ### A running command, phase by phase -/

/-- On the four lanes, LANE is POS modulo 4 (R36). -/
def LaneFollows (i : Instr) (s : State) : Prop := i.variant = .m128 → s.lane.val = s.pos.toNat % 4

/-- What `Running` says of the working registers, phase by phase; no command runs in IDLE. -/
def PhaseFacts (i : Instr) (s : State) : Phase → Prop
  | .validate | .init | .sipInit => True
  | .prefixFold => s.k.toNat = prefixLength (alignWidth i.backend) s.inAddr.toNat s.inLen.toNat ∧
      s.pos.toNat ≤ s.k.toNat ∧ LaneFollows i s
  | .rotl => s.pos.toNat = prefixLength (alignWidth i.backend) s.inAddr.toNat s.inLen.toNat ∧ LaneFollows i s
  | .main => s.pos.toNat ≤ s.inLen.toNat ∧
      ((s.inAddr.toNat + s.pos.toNat) % alignWidth i.backend = 0 ∨ s.inLen.toNat < s.pos.toNat + stride i.backend) ∧
      LaneFollows i s
  | .rotr | .tail => s.pos.toNat ≤ s.inLen.toNat ∧ LaneFollows i s
  | .mix | .write | .sipFin => s.pos.toNat ≤ s.inLen.toNat
  | .sipWords => s.pos.toNat ≤ s.inLen.toNat ∧ s.pos.toNat % 8 = 0
  | .sipLast => s.pos.toNat = 8 * (s.inLen.toNat / 8)
  | .idle => False

theorem PhaseFacts.ne_idle {i : Instr} {s : State} {p : Phase} (h : PhaseFacts i s p) : p ≠ .idle := by
  rintro rfl; exact h

theorem PhaseFacts.pos_le {i : Instr} {s : State} {p : Phase} (h : PhaseFacts i s p) (h1 : p ≠ .validate)
    (h2 : p ≠ .init) (h3 : p ≠ .sipInit) : s.pos.toNat ≤ s.inLen.toNat := by
  have hk := prefixLength_le (alignWidth i.backend) s.inAddr.toNat s.inLen.toNat
  cases p with
  | validate => exact absurd rfl h1
  | init => exact absurd rfl h2
  | sipInit => exact absurd rfl h3
  | prefixFold => obtain ⟨hkeq, hle, -⟩ := h; omega
  | rotl => obtain ⟨heq, -⟩ := h; omega
  | main | rotr | tail | sipWords => exact h.1
  | mix | write | sipFin => exact h
  | idle => exact h.elim
  | sipLast => exact Nat.le_trans (Nat.le_of_eq h) (Nat.mul_div_le _ _)

theorem PhaseFacts.laneFollows {i : Instr} {s : State} {p : Phase} (h : PhaseFacts i s p)
    (hp : p ∈ [Phase.prefixFold, .rotl, .main, .rotr, .tail]) : LaneFollows i s := by
  simp only [List.mem_cons, List.not_mem_nil, or_false] at hp
  obtain rfl | rfl | rfl | rfl | rfl := hp
  · exact h.2.2
  · exact h.2
  · exact h.2.2
  · exact h.2
  · exact h.2

theorem Running.facts {i : Instr} {s : State} (r : Running i s) {p : Phase} (hp : s.phase = p)
    (hne : p ≠ .idle := by decide) : PhaseFacts i s p := by
  have hpos := r.cursor
  have hlane : s.phase ∈ [Phase.prefixFold, .rotl, .main, .rotr, .tail] → LaneFollows i s := fun hm hv => r.lane hv hm
  rw [hp] at hpos hlane
  cases p with
  | validate | init | sipInit => trivial
  | prefixFold => exact ⟨(r.inPrefix hp).1, (r.inPrefix hp).2, hlane (by decide)⟩
  | rotl => exact ⟨r.atRotl hp, hlane (by decide)⟩
  | main => exact ⟨hpos (by decide) (by decide) (by decide), r.aligned hp, hlane (by decide)⟩
  | rotr | tail => exact ⟨hpos (by decide) (by decide) (by decide), hlane (by decide)⟩
  | mix | write | sipFin => exact hpos (by decide) (by decide) (by decide)
  | idle => exact absurd rfl hne
  | sipWords => exact ⟨hpos (by decide) (by decide) (by decide), r.atWords hp⟩
  | sipLast => exact r.atLast hp

theorem Running.of_facts {i : Instr} {s : State} (present : backendPresent s.hw i.backend = true)
    (phase : s.phase ∈ phaseOrder i) (validated : s.phase ≠ .validate → verdict i s = .code .success)
    (guarded : verdict i s = .code .success → footprint i s ∈ s.awaited) (facts : PhaseFacts i s s.phase) :
    Running i s where
  present := present
  phase := phase
  validated := validated
  cursor := facts.pos_le
  inPrefix hp := by rw [hp] at facts; exact ⟨facts.1, facts.2.1⟩
  atRotl hp := by rw [hp] at facts; exact facts.1
  aligned hp := by rw [hp] at facts; exact facts.2.1
  lane hv hp := facts.laneFollows hp hv
  atWords hp := by rw [hp] at facts; exact facts.2
  atLast hp := by rw [hp] at facts; exact facts
  guarded := guarded

theorem SameButPhase.footprint_eq {s t : State} (h : SameButPhase s t) (i : Instr) : footprint i t = footprint i s := by
  simp only [footprint, h.inAddr, h.inLen, h.keyAddr, h.outAddr]

/-- A command that passed the Validator runs on over a step that keeps all but the working registers and PHASE, as long as
the facts of its new phase hold. -/
theorem Running.of_sameButPhase {i : Instr} {s t : State} (r : Running i s) (hv : verdict i s = .code .success)
    (h : SameButPhase s t) (hp : t.phase ∈ phaseOrder i) (facts : PhaseFacts i t t.phase) : Running i t :=
  .of_facts (by rw [h.hw]; exact r.present) hp (fun _ => (h.verdict_eq i).trans hv)
    (fun _ => by rw [h.footprint_eq, h.awaited]; exact r.guarded hv) facts

/-! ### The working registers that the facts speak of, move by move -/

theorem initPhase_pos {i : Instr} (hi : i ≠ .sipRef) (s : State) : (initPhase i s).pos = 0 := by
  cases i <;> first | exact absurd rfl hi | rfl

theorem initPhase_laneFollows {i : Instr} (hi : i ≠ .sipRef) (s : State) : LaneFollows i (initPhase i s) := by
  intro hv
  rw [initPhase_pos hi]
  cases i <;> simp [Instr.variant] at hv <;> rfl

theorem initPhase_k {i : Instr} (hi : i.backend ≠ .ref) (s : State) : (initPhase i s).k.toNat =
    prefixLength (alignWidth i.backend) (initPhase i s).inAddr.toNat (initPhase i s).inLen.toNat := by
  cases i <;> first | exact absurd rfl hi | exact loadK_k_toNat _ _

theorem serializePhase_pos (i : Instr) (s : State) : (serializePhase i s).pos = s.pos := by cases i <;> rfl

theorem LaneFollows.byteStepPhase {i : Instr} {s : State} (h : LaneFollows i s) (hpos : s.pos.toNat < s.inLen.toNat) :
    LaneFollows i (byteStepPhase i s) := by
  intro hv
  have hi : i ≠ .sipRef := by rintro rfl; cases hv
  have hl := h hv
  rw [byteStepPhase_lane hv, byteStepPhase_pos hi hpos, Fin.val_add]
  show (s.lane.val + 1) % 4 = _
  omega

theorem LaneFollows.blockPhase {i : Instr} {s : State} (h : LaneFollows i s) (hb : i.backend ≠ .ref)
    (hpos : s.pos.toNat + stride i.backend ≤ s.inLen.toNat) : LaneFollows i (blockPhase i s) := by
  intro hv
  have hs := stride_mod_four hb
  rw [blockPhase_lane, blockPhase_pos hb hpos, h hv]
  omega

theorem alignWidth_eq_stride (b : Backend) : alignWidth b = stride b := by cases b <;> rfl

theorem PhaseFacts.pos_lt_of_prefixFold {i : Instr} {s : State} (h : PhaseFacts i s .prefixFold)
    (hl : s.pos.toNat < s.k.toNat) : s.pos.toNat < s.inLen.toNat := by
  have hk := prefixLength_le (alignWidth i.backend) s.inAddr.toNat s.inLen.toNat
  obtain ⟨hkeq, -, -⟩ := h
  omega

/-! ### The facts of a phase, established and kept -/

/-- INIT clears POS and LANE, and loads K for a spliced command (R160, R183, R201). -/
theorem phaseFacts_initPhase {i : Instr} {q : Phase} (hq : phaseAfter .init (phaseOrder i) = some q) (s : State) :
    PhaseFacts i (initPhase i s) q := by
  have hmem := phaseAfter_mem hq
  obtain rfl | rfl : q = .prefixFold ∨ q = .tail := List.mem_pair.1 (mem_followers_of_phaseAfter hq)
  · have hi := ne_sipRef_of_mem (.inl hmem)
    refine ⟨initPhase_k (backend_ne_ref_of_mem (.inr hmem)) s, ?_, initPhase_laneFollows hi s⟩
    rw [initPhase_pos hi]; exact Nat.zero_le _
  · have hi := ne_sipRef_of_mem (.inr (.inl hmem))
    refine ⟨?_, initPhase_laneFollows hi s⟩
    rw [initPhase_pos hi]; exact Nat.zero_le _

theorem PhaseFacts.prefixByte {i : Instr} {s : State} (h : PhaseFacts i s .prefixFold) (hi : i ≠ .sipRef)
    (hl : s.pos.toNat < s.k.toNat) : PhaseFacts i (byteStepPhase i s) .prefixFold := by
  have hlt := h.pos_lt_of_prefixFold hl
  have same := sameOutside_byteStepPhase i s
  obtain ⟨hk, -, hlane⟩ := h
  refine ⟨?_, ?_, hlane.byteStepPhase hlt⟩
  · rw [byteStepPhase_k, same.inAddr, same.inLen, hk]
  · rw [byteStepPhase_k, byteStepPhase_pos hi hlt]; exact hl

/-- Where the bytes before the aligned blocks end, the main loop can begin (R160, R163). -/
theorem phaseFacts_main_of_pos_eq {i : Instr} {s : State}
    (hpos : s.pos.toNat = prefixLength (alignWidth i.backend) s.inAddr.toNat s.inLen.toNat) (hl : LaneFollows i s) :
    PhaseFacts i s .main := by
  refine ⟨hpos ▸ prefixLength_le _ _ _, ?_, hl⟩
  rcases aligned_or_eq_length _ s.inAddr.toNat s.inLen.toNat (alignWidth_pos i.backend) with ha | he
  · exact .inl (hpos ▸ ha)
  · have hs := alignWidth_pos i.backend
    rw [alignWidth_eq_stride] at hs
    right; omega

/-- The block after an aligned one is aligned, since a block is as wide as the alignment (R94, R163). -/
theorem PhaseFacts.block {i : Instr} {s : State} (h : PhaseFacts i s .main) (hb : i.backend ≠ .ref)
    (hl : s.pos.toNat + stride i.backend ≤ s.inLen.toNat) : PhaseFacts i (blockPhase i s) .main := by
  obtain ⟨-, hal, hlane⟩ := h
  have hstart : (s.inAddr.toNat + s.pos.toNat) % alignWidth i.backend = 0 := hal.resolve_right (Nat.not_lt.2 hl)
  have same := sameOutside_blockPhase i s
  refine ⟨?_, .inl ?_, hlane.blockPhase hb hl⟩
  · rw [blockPhase_pos hb hl, same.inLen]; exact hl
  · rw [blockPhase_pos hb hl, same.inAddr, ← alignWidth_eq_stride, ← Nat.add_assoc, Nat.add_mod_right, hstart]

theorem PhaseFacts.tailByte {i : Instr} {s : State} (h : PhaseFacts i s .tail) (hi : i ≠ .sipRef)
    (hl : s.pos.toNat < s.inLen.toNat) : PhaseFacts i (byteStepPhase i s) .tail := by
  refine ⟨?_, h.2.byteStepPhase hl⟩
  rw [byteStepPhase_pos hi hl, (sameOutside_byteStepPhase i s).inLen]; exact hl

theorem PhaseFacts.sipWord {i : Instr} {s : State} (h : PhaseFacts i s .sipWords)
    (hl : s.pos.toNat + 8 ≤ s.inLen.toNat) : PhaseFacts i (sipWord s) .sipWords := by
  obtain ⟨-, hmod⟩ := h
  have hpos : (Machine.sipWord s).pos.toNat = s.pos.toNat + 8 := pos_add_toNat hl
  refine ⟨?_, ?_⟩
  · rw [hpos]; exact hl
  · rw [hpos, Nat.add_mod_right, hmod]

/-- The facts of the phase an engine step leads to, when the step does not end the command. -/
theorem EngineMove.facts {i : Instr} {s t : State} (h : EngineMove i s t) (r : Running i s) (hb : t.busy = true) :
    PhaseFacts i t t.phase := by
  cases h with
  | fail e => rw [complete_busy] at hb; cases hb
  | write => rw [complete_busy] at hb; cases hb
  | validated q hp hv hq =>
    obtain rfl | rfl : q = .init ∨ q = .sipInit := List.mem_pair.1 (mem_followers_of_phaseAfter hq)
    · trivial
    · trivial
  | init q hp hq => exact phaseFacts_initPhase hq s
  | prefixByte hp hl =>
    rw [(sameOutside_byteStepPhase i s).phase, hp]
    exact (r.facts hp).prefixByte (ne_sipRef_of_mem (.inl (hp ▸ r.phase))) hl
  | prefixDone q hp hl hq =>
    obtain ⟨hk, hle, hlane⟩ := r.facts hp
    have hpos := (Nat.le_antisymm hle hl).trans hk
    obtain rfl | rfl : q = .rotl ∨ q = .main := List.mem_pair.1 (mem_followers_of_phaseAfter hq)
    · exact ⟨hpos, hlane⟩
    · exact phaseFacts_main_of_pos_eq hpos hlane
  | rotl q hp hq =>
    obtain ⟨hpos, hlane⟩ := r.facts hp
    obtain rfl : q = .main := List.mem_singleton.1 (mem_followers_of_phaseAfter hq)
    exact phaseFacts_main_of_pos_eq (s := rotateLeft s) hpos hlane
  | block hp hl =>
    rw [(sameOutside_blockPhase i s).phase, hp]
    exact (r.facts hp).block (backend_ne_ref_of_mem (.inl (hp ▸ r.phase))) hl
  | mainDone q hp hl hq =>
    obtain ⟨hpos, -, hlane⟩ := r.facts hp
    obtain rfl | rfl : q = .rotr ∨ q = .tail := List.mem_pair.1 (mem_followers_of_phaseAfter hq)
    · exact ⟨hpos, hlane⟩
    · exact ⟨hpos, hlane⟩
  | rotr q hp hq =>
    obtain rfl : q = .tail := List.mem_singleton.1 (mem_followers_of_phaseAfter hq)
    exact r.facts hp
  | tailByte hp hl =>
    rw [(sameOutside_byteStepPhase i s).phase, hp]
    exact (r.facts hp).tailByte (ne_sipRef_of_mem (.inr (.inl (hp ▸ r.phase)))) hl
  | tailDone q hp hl hq =>
    have hpos : (serializePhase i s).pos.toNat ≤ (serializePhase i s).inLen.toNat := by
      rw [serializePhase_pos, (sameOutside_serializePhase i s).inLen]; exact (r.facts hp).1
    obtain rfl | rfl : q = .mix ∨ q = .write := List.mem_pair.1 (mem_followers_of_phaseAfter hq)
    · exact hpos
    · exact hpos
  | mix q hp hq =>
    obtain rfl : q = .write := List.mem_singleton.1 (mem_followers_of_phaseAfter hq)
    exact r.facts hp
  | sipInit q hp hq =>
    obtain rfl : q = .sipWords := List.mem_singleton.1 (mem_followers_of_phaseAfter hq)
    exact ⟨Nat.zero_le _, rfl⟩
  | sipWord hp hl =>
    rw [sipWord_phase, hp]
    exact (r.facts hp).sipWord hl
  | sipWordsDone q hp hl hq =>
    obtain ⟨hpos, hmod⟩ := r.facts hp
    obtain rfl : q = .sipLast := List.mem_singleton.1 (mem_followers_of_phaseAfter hq)
    show s.pos.toNat = 8 * (s.inLen.toNat / 8)
    omega
  | sipLast q hp hq =>
    obtain rfl : q = .sipFin := List.mem_singleton.1 (mem_followers_of_phaseAfter hq)
    exact Nat.le_refl _
  | sipFin q hp hq =>
    obtain rfl : q = .write := List.mem_singleton.1 (mem_followers_of_phaseAfter hq)
    exact r.facts hp

/-- An engine step that does not end the command makes it only on operands the Validator passed (R125, R128). -/
theorem EngineMove.verdict_success {i : Instr} {s t : State} (h : EngineMove i s t) (r : Running i s)
    (hb : t.busy = true) : verdict i s = .code .success := by
  cases h with
  | fail e => rw [complete_busy] at hb; cases hb
  | write => rw [complete_busy] at hb; cases hb
  | validated q hp hv => exact hv
  | init _ hp | prefixByte hp | prefixDone _ hp | rotl _ hp | block hp | mainDone _ hp | rotr _ hp | tailByte hp
  | tailDone _ hp | mix _ hp | sipInit _ hp | sipWord hp | sipWordsDone _ hp | sipLast _ hp | sipFin _ hp =>
    exact r.validated (by rw [hp]; decide)

/-! ### The engine only moves forward -/

theorem stride_cases (b : Backend) : stride b = 1 ∨ stride b = 8 ∨ stride b = 16 := by cases b <;> decide

/-- An engine step advances POS inside the input, or moves PHASE to the next one of the command, or takes an error in
VALIDATE (R43, R126). -/
theorem EngineMove.forward {i : Instr} {s t : State} (h : EngineMove i s t) (r : Running i s) :
    (t.phase = s.phase ∧ ∃ n, (n = 1 ∨ n = 8 ∨ n = 16) ∧ s.pos.toNat + n ≤ s.inLen.toNat ∧
      t.pos.toNat = s.pos.toNat + n) ∨
    phaseAfter s.phase (phaseOrder i) = some t.phase ∨
    (s.phase = .validate ∧ t.phase = .idle ∧ ∃ e : ErrorCode, e ≠ .success ∧ t.err = e.word) := by
  cases h with
  | fail e hp he => exact .inr (.inr ⟨hp, rfl, e, he, rfl⟩)
  | prefixByte hp hl =>
    have hlt := (r.facts hp).pos_lt_of_prefixFold hl
    exact .inl ⟨(sameOutside_byteStepPhase i s).phase, 1, .inl rfl, hlt,
      byteStepPhase_pos (ne_sipRef_of_mem (.inl (hp ▸ r.phase))) hlt⟩
  | tailByte hp hl =>
    exact .inl ⟨(sameOutside_byteStepPhase i s).phase, 1, .inl rfl, hl,
      byteStepPhase_pos (ne_sipRef_of_mem (.inr (.inl (hp ▸ r.phase)))) hl⟩
  | block hp hl =>
    exact .inl ⟨(sameOutside_blockPhase i s).phase, stride i.backend, stride_cases _, hl,
      blockPhase_pos (backend_ne_ref_of_mem (.inl (hp ▸ r.phase))) hl⟩
  | sipWord hp hl => exact .inl ⟨sipWord_phase s, 8, .inr (.inl rfl), hl, pos_add_toNat hl⟩
  | write hp => exact .inr (.inl (hp ▸ phaseAfter_write i))
  | validated q hp _ hq | prefixDone q hp _ hq | mainDone q hp _ hq | tailDone q hp _ hq | sipWordsDone q hp _ hq =>
    exact .inr (.inl (hp ▸ hq))
  | init q hp hq | rotl q hp hq | rotr q hp hq | mix q hp hq | sipInit q hp hq | sipLast q hp hq | sipFin q hp hq =>
    exact .inr (.inl (hp ▸ hq))

theorem EngineMove.phase_mem {i : Instr} {s t : State} (h : EngineMove i s t) (r : Running i s) :
    t.phase ∈ phaseOrder i := by
  rcases h.forward r with ⟨hp, -⟩ | hq | ⟨-, hp, -⟩
  · rw [hp]; exact r.phase
  · exact phaseAfter_mem hq
  · rw [hp]; exact phaseAfter_mem (phaseAfter_write i)

theorem EngineMove.inLen {i : Instr} {s t : State} (h : EngineMove i s t) : t.inLen = s.inLen := by
  rcases h.outside with ⟨e, -, -, -, rfl⟩ | ⟨-, rfl⟩ | same
  · rfl
  · rfl
  · exact same.inLen

/-- Settles O49: the moves of `EngineMove.forward`, the next phase read off the order as a list. -/
theorem engineStepsOnlyMoveForward : Obligations.EngineStepsOnlyMoveForward := by
  unfold Obligations.EngineStepsOnlyMoveForward
  intro s t i hs hb hd ht
  obtain ⟨j, hj, r⟩ := hs.running hb
  rw [hd] at hj; cases hj
  have h : EngineMove i s t := engineMove_of_phaseStep (by simpa only [engineStep, hd] using ht)
  rcases h.forward r with ⟨hp, n, hn, hle, hpos⟩ | hq | ⟨hp, hi, e, he, herr⟩
  · refine .inl ⟨hp, ?_, ?_⟩
    · rw [h.inLen, hpos]; exact hle
    · rcases hn with rfl | rfl | rfl
      · exact .inl hpos
      · exact .inr (.inl hpos)
      · exact .inr (.inr hpos)
  · exact .inr (.inl (consecutive_of_phaseAfter hq))
  · refine .inr (.inr ⟨hp, hi, ?_⟩)
    rw [herr]
    cases e <;> first | exact absurd rfl he | decide

end Sys2Proof.Machine
end

section
/-! SUPPORT. What one host operation and one step of the machine do, said once, and the register file under them: CAP and the
parameters, CMD and the operands, ERR (10_state.md section 2). -/

namespace Sys2Proof.Machine

/-! ### The host's operations -/

/-- What one host operation that answers a next state does (R120 to R124, R60, R76, R104, R300): a `WR` at a busy engine is
lost; at an idle one it writes an operand, or issues a command, which is illegal, only started, failed or completed. -/
inductive HostMove (s : State) : HostOp → State → Prop
  | writeIgnored (index v : Nat) : s.busy = true → HostMove s (.wr index v) s
  | operand (index v : Nat) : s.busy = false → index ≠ 0 → HostMove s (.wr index v) (writeOperand s index v)
  | illegal (v : Nat) : s.busy = false →
      (∀ i, decode (BitVec.ofNat 32 v) = .ok i → backendPresent s.hw i.backend = false) →
      HostMove s (.wr 0 v) (issueIllegal (writeCmd s v))
  | started (i : Instr) (v : Nat) : s.busy = false → decode (BitVec.ofNat 32 v) = .ok i →
      backendPresent s.hw i.backend = true → s.pace ≠ [] → HostMove s (.wr 0 v) (issueLegal i (writeCmd s v))
  | failed (i : Instr) (v : Nat) (e : ErrorCode) : s.busy = false → decode (BitVec.ofNat 32 v) = .ok i →
      backendPresent s.hw i.backend = true → s.pace = [] → e ≠ .success → verdict i s = .code e →
      HostMove s (.wr 0 v) (complete e (issueLegal i (writeCmd s v)))
  | completed (i : Instr) (v : Nat) : s.busy = false → decode (BitVec.ofNat 32 v) = .ok i →
      backendPresent s.hw i.backend = true → s.pace = [] → verdict i s = .code .success →
      HostMove s (.wr 0 v) (completed i (writeCmd s v))
  | read (index : Nat) : HostMove s (.rd index) (hostRead index s)
  | wait : HostMove s .wait (hostWait s)
  | store (a : Nat) (b : Byte) : a < 2 ^ s.hw.aw.bits → inAwaited s a = false →
      HostMove s (.store a b) { s with mem := Memory.write s.mem a b }
  | load (a : Nat) : a < 2 ^ s.hw.aw.bits → inAwaitedOutput s a = false →
      HostMove s (.load a) { s with hostData := (Memory.read s.mem a).setWidth 64 }
  | reset : HostMove s .reset (resetEvent s)

theorem hostWrite_of_busy {s : State} (hb : s.busy = true) (index v : Nat) : hostWrite index v s = .next s := by
  rw [hostWrite, if_pos hb]

theorem hostWrite_cmd {s : State} (hb : s.busy = false) (v : Nat) : hostWrite 0 v s = issueCmd (writeCmd s v) := by
  rw [hostWrite, if_neg (by simp [hb])]; exact if_pos rfl

theorem hostWrite_of_ne {s : State} (hb : s.busy = false) {index : Nat} (h : index ≠ 0) (v : Nat) :
    hostWrite index v s = .next (writeOperand s index v) := by
  rw [hostWrite, if_neg (by simp [hb])]; exact if_neg h

/-- The `WR` of CMD at an idle engine. -/
theorem hostMove_of_issueCmd {s t : State} {v : Nat} (hb : s.busy = false) (h : issueCmd (writeCmd s v) = .next t) :
    HostMove s (.wr 0 v) t := by
  rcases issueCmd_cases (writeCmd s v) with ⟨e, hd, hx⟩ | ⟨i, hd, hp, hx⟩ | ⟨i, hd, hp, hx⟩
  · rw [hx] at h; cases h
    exact .illegal v hb fun i hi => by rw [← writeCmd_cmd s, hd] at hi; cases hi
  · rw [hx] at h
    rcases exec_cases i (writeCmd s v) with ⟨ha, hx⟩ | ⟨-, -, hx⟩ | ⟨e, he, ha, hv, hx⟩ | ⟨ha, hv, hx⟩ <;>
      rw [hx] at h <;> cases h
    · exact .illegal v hb fun j hj => by rw [← writeCmd_cmd s, hd] at hj; cases hj; exact ha
    · exact .failed i v e hb hd ha hp he hv
    · exact .completed i v hb hd ha hp hv
  · rw [hx] at h; cases h
    unfold issueOnly
    split
    · exact .started i v hb hd (by assumption) hp
    · rename_i ha
      exact .illegal v hb fun j hj => by
        rw [← writeCmd_cmd s, hd] at hj; cases hj; exact Bool.eq_false_iff.2 ha

/-- Every host operation that answers a next state is one of those moves. -/
theorem hostMove_of_hostOp {op : HostOp} {s t : State} (h : hostOp op s = .next t) : HostMove s op t := by
  cases op with
  | wr index v =>
    replace h : hostWrite index v s = .next t := h
    cases hb : s.busy
    · by_cases hi : index = 0
      · subst hi
        rw [hostWrite_cmd hb] at h
        exact hostMove_of_issueCmd hb h
      · rw [hostWrite_of_ne hb hi] at h; cases h
        exact .operand index v hb hi
    · rw [hostWrite_of_busy hb] at h; cases h
      exact .writeIgnored index v hb
  | rd index => cases h; exact .read index
  | wait => cases h; exact .wait
  | store a b =>
    replace h : hostStore a b s = .next t := h
    unfold hostStore at h
    split at h
    · cases h
    · split at h
      · cases h
      · cases h; exact .store a b (by omega) (Bool.eq_false_iff.2 (by assumption))
  | load a =>
    replace h : hostLoad a s = .next t := h
    unfold hostLoad at h
    split at h
    · cases h
    · split at h
      · cases h
      · cases h; exact .load a (by omega) (Bool.eq_false_iff.2 (by assumption))
  | reset => cases h; exact .reset

/-- Every step of the machine is a move of the engine, a host's turn with nothing to do, or a move of the host. -/
theorem step_moves {s t : State} (h : step s = .next t) :
    (∃ p i, s.busy = true ∧ decode s.cmd = .ok i ∧ EngineMove i { s with pace := p } t) ∨
      (s.host = [] ∧ ∃ p, t = { s with pace := p }) ∨
      (∃ p op ops, s.host = op :: ops ∧ HostMove { s with host := ops, pace := p } op t) := by
  rcases step_cases h with ⟨p, hb, he⟩ | hidle | ⟨p, op, ops, hh, ho⟩
  · unfold engineStep at he
    split at he
    · cases he
    · rename_i i hd
      exact .inl ⟨p, i, hb, hd, engineMove_of_phaseStep he⟩
  · exact .inr (.inl hidle)
  · exact .inr (.inr ⟨p, op, ops, hh, hostMove_of_hostOp ho⟩)

/-! ### What an operand write and a poll leave alone -/

section
variable (s : State) (index v : Nat)

@[simp] theorem writeOperand_hw : (writeOperand s index v).hw = s.hw := by unfold writeOperand; split <;> rfl
@[simp] theorem writeOperand_cmd : (writeOperand s index v).cmd = s.cmd := by unfold writeOperand; split <;> rfl
@[simp] theorem writeOperand_status : (writeOperand s index v).status = s.status := by unfold writeOperand; split <;> rfl
@[simp] theorem writeOperand_err : (writeOperand s index v).err = s.err := by unfold writeOperand; split <;> rfl
@[simp] theorem writeOperand_phase : (writeOperand s index v).phase = s.phase := by unfold writeOperand; split <;> rfl
@[simp] theorem writeOperand_mem : (writeOperand s index v).mem = s.mem := by unfold writeOperand; split <;> rfl

end

/-- A poll is a read of STATUS that may be posted again (R104). -/
theorem hostWait_eq (s : State) :
    hostWait s = { hostRead 1 s with host := if s.busy = true then .wait :: s.host else s.host } := by
  unfold hostWait; split <;> rfl

/-! ### Parameters, ERR, CMD and the operands -/

theorem SameButPhase.keepsOperands {s t : State} (h : SameButPhase s t) : KeepsOperands s t :=
  ⟨h.hw, h.cmd, h.inAddr, h.inLen, h.keyAddr, h.keyLen, h.outAddr, h.outCap⟩

theorem completed_keepsOperands (i : Instr) (s : State) : KeepsOperands s (completed i s) :=
  have ho := (leavesDigest i (issueLegal i s)).outside
  ⟨ho.hw, ho.cmd, ho.inAddr, ho.inLen, ho.keyAddr, ho.keyLen, ho.outAddr, ho.outCap⟩

theorem EngineMove.keepsOperands {i : Instr} {s t : State} (h : EngineMove i s t) : KeepsOperands s t := by
  rcases h.outside with ⟨e, -, -, -, rfl⟩ | ⟨-, rfl⟩ | same
  · constructor <;> rfl
  · constructor <;> rfl
  · exact same.keepsOperands

theorem HostMove.operands_cases {op : HostOp} {s t : State} (h : HostMove s op t) :
    KeepsOperands s t ∨ (s.busy = false ∧ ∃ index v, op = .wr index v) ∨ op = .reset := by
  cases h with
  | writeIgnored index v => left; constructor <;> rfl
  | operand index v hb => exact .inr (.inl ⟨hb, index, v, rfl⟩)
  | illegal v hb => exact .inr (.inl ⟨hb, 0, v, rfl⟩)
  | started i v hb => exact .inr (.inl ⟨hb, 0, v, rfl⟩)
  | failed i v e hb => exact .inr (.inl ⟨hb, 0, v, rfl⟩)
  | completed i v hb => exact .inr (.inl ⟨hb, 0, v, rfl⟩)
  | read => left; constructor <;> rfl
  | wait => left; rw [hostWait_eq]; constructor <;> rfl
  | store => left; constructor <;> rfl
  | load => left; constructor <;> rfl
  | reset => exact .inr (.inr rfl)

/-- Whose turn it is and what the host has posted do not count among the operands. -/
theorem KeepsOperands.of_turn {s t : State} {ops : List HostOp} {p : List Turn}
    (h : KeepsOperands { s with host := ops, pace := p } t) : KeepsOperands s t :=
  ⟨h.hw, h.cmd, h.inAddr, h.inLen, h.keyAddr, h.keyLen, h.outAddr, h.outCap⟩

/-- Settles O56: no engine move, and of the host's moves only these two, touches CMD or an operand. -/
theorem operandsChangeOnlyByIdleWriteOrReset : Obligations.OperandsChangeOnlyByIdleWriteOrReset := by
  unfold Obligations.OperandsChangeOnlyByIdleWriteOrReset
  intro s t h
  rcases step_moves h with ⟨p, i, -, -, he⟩ | ⟨-, p, rfl⟩ | ⟨p, op, ops, hh, ho⟩
  · exact .inl (he.keepsOperands.of_turn (ops := s.host))
  · left; constructor <;> rfl
  · rcases ho.operands_cases with hk | ⟨hb, index, v, rfl⟩ | rfl
    · exact .inl hk.of_turn
    · exact .inr (.inl ⟨hb, index, v, ops, hh⟩)
    · exact .inr (.inr ⟨ops, hh⟩)

theorem HostMove.hw {op : HostOp} {s t : State} (h : HostMove s op t) : t.hw = s.hw := by
  cases h with
  | operand index v => exact writeOperand_hw s index v
  | completed i v => exact (completed_keepsOperands i (writeCmd s v)).hw
  | wait => rw [hostWait_eq]; rfl
  | writeIgnored | illegal | started | failed | read | store | load | reset => rfl

theorem step_hw {s t : State} (h : step s = .next t) : t.hw = s.hw := by
  rcases step_moves h with ⟨p, i, -, -, he⟩ | ⟨-, p, rfl⟩ | ⟨p, op, ops, -, ho⟩
  · exact he.keepsOperands.hw
  · rfl
  · exact ho.hw

/-- CAP is computed from the parameters alone (R25). -/
theorem readReg_cap (s : State) : readReg s 3 = (capWord s.hw).setWidth 64 := rfl

/-- Settles O53: no move changes the parameters, and CAP is a function of them. -/
theorem stepKeepsTheParameters : Obligations.StepKeepsTheParameters := by
  unfold Obligations.StepKeepsTheParameters
  intro s t h
  have hw := step_hw h
  exact ⟨hw, by rw [readReg_cap, readReg_cap, hw]⟩

/-- What the completion of a command leaves in ERR, STATUS and PHASE (R127). -/
theorem complete_completes (e : ErrorCode) (s : State) : (complete e s).done = true ∧ (complete e s).busy = false ∧
    (complete e s).phase = .idle ∧ ∃ c : ErrorCode, (complete e s).err = c.word :=
  ⟨complete_done e s, complete_busy e s, rfl, e, rfl⟩

theorem EngineMove.err_cases {i : Instr} {s t : State} (h : EngineMove i s t) :
    t.err = s.err ∨ (t.done = true ∧ t.busy = false ∧ t.phase = .idle ∧ ∃ e : ErrorCode, t.err = e.word) := by
  rcases h.outside with ⟨e, -, -, -, rfl⟩ | ⟨-, rfl⟩ | same
  · exact .inr (complete_completes _ _)
  · exact .inr (complete_completes _ _)
  · exact .inl same.err

theorem HostMove.err_cases {op : HostOp} {s t : State} (h : HostMove s op t) :
    t.err = s.err ∨ (t.done = true ∧ t.busy = false ∧ t.phase = .idle ∧ ∃ e : ErrorCode, t.err = e.word) ∨
      (op = .reset ∧ t.err = 0) := by
  cases h with
  | failed | completed => exact .inr (.inl (complete_completes _ _))
  | reset => exact .inr (.inr ⟨rfl, rfl⟩)
  | operand index v => exact .inl (writeOperand_err s index v)
  | wait => rw [hostWait_eq]; exact .inl rfl
  | writeIgnored | illegal | started | read | store | load => exact .inl rfl

/-- Settles O54: ERR is written by `complete` and by reset, in no other move. -/
theorem errChangesOnlyAtCompletionOrReset : Obligations.ErrChangesOnlyAtCompletionOrReset := by
  unfold Obligations.ErrChangesOnlyAtCompletionOrReset
  intro s t h hne
  rcases step_moves h with ⟨p, i, -, -, he⟩ | ⟨-, p, rfl⟩ | ⟨p, op, ops, hh, ho⟩
  · exact .inl (he.err_cases.resolve_left hne)
  · exact absurd rfl hne
  · rcases ho.err_cases.resolve_left hne with hc | ⟨rfl, he⟩
    · exact .inl hc
    · exact .inr ⟨ops, hh, he⟩

/-! ### CAP -/

theorem getLsbD_one_shiftLeft {b : Nat} (hb : b < 32) (c : Nat) : (1#32 <<< b).getLsbD c = decide (c = b) := by
  rw [← BitVec.twoPow_eq, BitVec.getLsbD_twoPow, decide_eq_true hb, Bool.true_and]
  exact decide_eq_decide.2 eq_comm

theorem getLsbD_withBit (w : Word32) {b : Nat} (hb : b < 32) (on : Bool) (c : Nat) :
    (withBit w b on).getLsbD c = if c = b then on else w.getLsbD c := by
  by_cases hc : c = b
  · subst hc
    cases on <;> simp [withBit, getLsbD_one_shiftLeft hb]
  · rw [if_neg hc]
    cases on
    · simp [withBit, getLsbD_one_shiftLeft hb, hc]
      exact BitVec.lt_of_getLsbD
    · simp [withBit, getLsbD_one_shiftLeft hb, hc]

theorem getLsbD_capWord (hw : Params) (b : Nat) : (capWord hw).getLsbD b =
    if b = 4 then hw.capVB else if b = 3 then hw.capVA else if b = 2 then hw.capVN else (3#32).getLsbD b := by
  rw [capWord, getLsbD_withBit _ (by decide), getLsbD_withBit _ (by decide), getLsbD_withBit _ (by decide)]

theorem capWord_default : capWord Params.default = 0x1F := by decide

/-- A `WR` that changes no operand changes nothing, busy or idle (R120, R128). -/
theorem hostOp_wr_of_ignored {s : State} {index v : Nat} (h0 : index ≠ 0) (h : writeOperand s index v = s) :
    hostOp (.wr index v) s = .next s := by
  cases hb : s.busy
  · exact (hostWrite_of_ne hb h0 v).trans (by rw [h])
  · exact hostWrite_of_busy hb index v

/-- Settles O4, from the bits of `capWord` and O53. -/
theorem capBitsTellPresentBackends : Obligations.CapBitsTellPresentBackends := by
  unfold Obligations.CapBitsTellPresentBackends
  intro s
  refine ⟨readReg_cap s, ?_, ?_, ?_, ?_, ?_, fun b hb => ?_, fun h => h ▸ capWord_default,
    fun v => hostOp_wr_of_ignored (by decide) rfl, fun t ht => (stepKeepsTheParameters s t ht).2⟩
  · rw [getLsbD_capWord]; rfl
  · rw [getLsbD_capWord]; rfl
  · rw [getLsbD_capWord]; rfl
  · rw [getLsbD_capWord]; rfl
  · rw [getLsbD_capWord]; rfl
  · have h3 : 3 < 2 ^ b := Nat.lt_of_lt_of_le (by decide : 3 < 2 ^ 5) (Nat.pow_le_pow_right (by decide) hb)
    rw [getLsbD_capWord, if_neg (by omega), if_neg (by omega), if_neg (by omega), BitVec.getLsbD_ofNat,
      Nat.testBit_eq_false_of_lt h3, Bool.and_false]

/-! ### Writes of the register file -/

theorem Reg.ofIndex_of_ge {index : Nat} (h : 10 ≤ index) : Reg.ofIndex index = none := by
  obtain ⟨n, rfl⟩ := Nat.exists_eq_add_of_le' h
  rfl

/-- CMD after a `WR` of it at an idle engine, whatever the word does (R22). -/
theorem HostMove.cmd_of_wr {s t : State} {v : Nat} (h : HostMove s (.wr 0 v) t) (hb : s.busy = false) :
    t.cmd = BitVec.ofNat 32 v := by
  cases h with
  | writeIgnored _ _ hbusy => rw [hb] at hbusy; cases hbusy
  | operand _ _ _ h0 => exact absurd rfl h0
  | completed i => exact (completed_keepsOperands i (writeCmd s v)).cmd
  | illegal | started | failed => rfl

/-- Settles O6: a `WR` at an idle engine is `writeOperand` for every index but that of CMD. -/
theorem writesAreKeptModuloTheWidth : Obligations.WritesAreKeptModuloTheWidth := by
  unfold Obligations.WritesAreKeptModuloTheWidth
  intro s v
  refine ⟨fun index h => ?_, fun index h => ?_, fun hb => ?_⟩
  · have hnone := Reg.ofIndex_of_ge h
    exact ⟨hostOp_wr_of_ignored (by omega) (by rw [writeOperand, hnone]), by rw [readReg, hnone]⟩
  · obtain rfl | rfl | rfl := h
    · exact hostOp_wr_of_ignored (by decide) rfl
    · exact hostOp_wr_of_ignored (by decide) rfl
    · exact hostOp_wr_of_ignored (by decide) rfl
  · have operand (index : Nat) (h0 : index ≠ 0) : hostOp (.wr index v) s = .next (writeOperand s index v) :=
      hostWrite_of_ne hb h0 v
    refine ⟨operand 4 (by decide), operand 5 (by decide), operand 6 (by decide), operand 7 (by decide),
      operand 8 (by decide), operand 9 (by decide), fun t ht => ?_⟩
    rw [(hostMove_of_hostOp ht).cmd_of_wr hb, BitVec.toNat_ofNat]

/-! ### The tables of the spec -/

/-- Settles O1: CAP is the word of the default parameters, and the other values are those of `State.reset`. -/
theorem resetStateHoldsTabledValues : Obligations.ResetStateHoldsTabledValues := by
  unfold Obligations.ResetStateHoldsTabledValues
  have hcap : readReg State.reset 3 = 0x1F := congrArg (BitVec.setWidth 64) capWord_default
  exact ⟨rfl, rfl, rfl, hcap, rfl, rfl, rfl, rfl, rfl, rfl, rfl⟩

/-- Settles O10: five closed words. -/
theorem errorCodesAreTwosComplement : Obligations.ErrorCodesAreTwosComplement := by
  unfold Obligations.ErrorCodesAreTwosComplement
  decide

end Sys2Proof.Machine
end

section
/-! SUPPORT. The good states (Safety.lean): reset is one, and every move of the engine and of the host keeps them. -/

namespace Sys2Proof.Machine

/-! ### Good states -/

/-- The part of `State.Inv` about memory and the operand registers: memory is canonical and, like the operands, fits the
address width (R6, R60). -/
structure FitsWidth (s : State) : Prop where
  memWf : Memory.wf s.mem
  memBound : ∀ c ∈ s.mem, c.1 < 2 ^ s.hw.aw.bits
  inAddr : s.inAddr.toNat < 2 ^ s.hw.aw.bits
  inLen : s.inLen.toNat < 2 ^ s.hw.aw.bits
  keyAddr : s.keyAddr.toNat < 2 ^ s.hw.aw.bits
  keyLen : s.keyLen.toNat < 2 ^ s.hw.aw.bits
  outAddr : s.outAddr.toNat < 2 ^ s.hw.aw.bits
  outCap : s.outCap.toNat < 2 ^ s.hw.aw.bits

theorem State.Inv.fitsWidth {s : State} (h : s.Inv) : FitsWidth s :=
  ⟨h.memWf, h.memBound, h.inAddr, h.inLen, h.keyAddr, h.keyLen, h.outAddr, h.outCap⟩

theorem FitsWidth.of_keepsOperands {s t : State} (h : FitsWidth s) (k : KeepsOperands s t) (hm : Memory.wf t.mem)
    (hb : ∀ c ∈ t.mem, c.1 < 2 ^ s.hw.aw.bits) : FitsWidth t where
  memWf := hm
  memBound := by rw [k.hw]; exact hb
  inAddr := by rw [k.inAddr, k.hw]; exact h.inAddr
  inLen := by rw [k.inLen, k.hw]; exact h.inLen
  keyAddr := by rw [k.keyAddr, k.hw]; exact h.keyAddr
  keyLen := by rw [k.keyLen, k.hw]; exact h.keyLen
  outAddr := by rw [k.outAddr, k.hw]; exact h.outAddr
  outCap := by rw [k.outCap, k.hw]; exact h.outCap

theorem FitsWidth.of_same_mem {s t : State} (h : FitsWidth s) (k : KeepsOperands s t) (hm : t.mem = s.mem) :
    FitsWidth t :=
  h.of_keepsOperands k (hm ▸ h.memWf) (hm ▸ h.memBound)

/-- The D bytes of an accepted command's digest lie in the address space (R152). -/
theorem FitsWidth.of_digest {i : Instr} {s t : State} {v : Nat} (h : FitsWidth s) (k : KeepsOperands s t)
    (hv : verdict i s = .code .success)
    (hm : t.mem = Memory.writeLE s.mem s.outAddr.toNat (digestSize i.variant) v) : FitsWidth t := by
  refine h.of_keepsOperands k (hm ▸ Memory.writeLE_wf h.memWf ..) fun c hc => ?_
  rw [hm] at hc
  rcases Memory.mem_writeLE hc with ⟨-, hlt⟩ | hc
  · exact Nat.lt_of_lt_of_le hlt (outAddr_add_le_of_success hv)
  · exact h.memBound c hc

theorem FitsWidth.writeCmd {s : State} (h : FitsWidth s) (v : Nat) : FitsWidth (writeCmd s v) :=
  ⟨h.memWf, h.memBound, h.inAddr, h.inLen, h.keyAddr, h.keyLen, h.outAddr, h.outCap⟩

theorem operandWord_toNat_lt (hw : Params) (v : Nat) : (operandWord hw v).toNat < 2 ^ hw.aw.bits := by
  rw [operandWord, BitVec.toNat_ofNat]
  exact Nat.lt_of_le_of_lt (Nat.mod_le _ _) (Nat.mod_lt _ (Nat.two_pow_pos _))

theorem FitsWidth.writeOperand {s : State} (h : FitsWidth s) (index v : Nat) : FitsWidth (writeOperand s index v) := by
  have hlt := operandWord_toNat_lt s.hw v
  unfold Machine.writeOperand
  split
  · exact { h with inAddr := hlt }
  · exact { h with inLen := hlt }
  · exact { h with keyAddr := hlt }
  · exact { h with keyLen := hlt }
  · exact { h with outAddr := hlt }
  · exact { h with outCap := hlt }
  all_goals exact h

theorem State.Inv.status_of_idle {s : State} (h : s.Inv) (hb : s.busy = false) :
    s.status = 0 ∨ s.status = 2 ∨ s.status = 4 := by
  rcases h.status with e | e | e | e
  · exact .inl e
  · rw [State.busy, e] at hb; cases hb
  · exact .inr (.inl e)
  · exact .inr (.inr e)

theorem State.Inv.status_of_busy {s : State} (h : s.Inv) (hb : s.busy = true) : s.status = 1 := by
  rcases h.status with e | e | e | e
  · rw [State.busy, e] at hb; cases hb
  · exact e
  · rw [State.busy, e] at hb; cases hb
  · rw [State.busy, e] at hb; cases hb

/-- An idle engine in a good state. -/
theorem State.Inv.of_idle {s : State} (h : FitsWidth s) (status : s.status = 0 ∨ s.status = 2 ∨ s.status = 4)
    (err : ∃ e : ErrorCode, s.err = e.word) (phase : s.phase = .idle) : s.Inv := by
  have hb : s.busy = false := by rcases status with e | e | e <;> rw [State.busy, e] <;> rfl
  obtain ⟨h1, h2, h3, h4, h5, h6, h7, h8⟩ := h
  refine ⟨h1, h2, h3, h4, h5, h6, h7, h8, ?_, err, ⟨fun _ => hb, fun _ => phase⟩, fun h => by rw [hb] at h; cases h⟩
  rcases status with e | e | e
  · exact .inl e
  · exact .inr (.inr (.inl e))
  · exact .inr (.inr (.inr e))

/-- A busy engine in a good state. -/
theorem State.Inv.of_running {i : Instr} {s : State} (h : FitsWidth s) (status : s.status = 1)
    (err : ∃ e : ErrorCode, s.err = e.word) (phase : s.phase ≠ .idle) (cmd : decode s.cmd = .ok i)
    (running : Running i s) : s.Inv := by
  have hb : s.busy = true := by rw [State.busy, status]; rfl
  obtain ⟨h1, h2, h3, h4, h5, h6, h7, h8⟩ := h
  exact ⟨h1, h2, h3, h4, h5, h6, h7, h8, .inr (.inl status), err,
    ⟨fun hp => absurd hp phase, fun h => by rw [hb] at h; cases h⟩, fun _ => ⟨i, cmd, running⟩⟩

/-- Good states do not depend on the host's side, nor on what memory holds as long as it fits. -/
theorem State.Inv.withHostSide {s : State} (h : s.Inv) (ops : List HostOp) (p : List Turn) (data : Word64) {m : Memory}
    (hm : Memory.wf m) (hb : ∀ c ∈ m, c.1 < 2 ^ s.hw.aw.bits) :
    State.Inv { s with host := ops, pace := p, hostData := data, mem := m } :=
  { h with
    memWf := hm
    memBound := hb
    running := fun hbusy => let ⟨i, hd, r⟩ := h.running hbusy; ⟨i, hd, { r with }⟩ }

/-! ### What keeps a state good -/

/-- A command that ends, from an issued one (R127). -/
theorem State.Inv.of_complete {e : ErrorCode} {s : State} (h : FitsWidth s) (hs : s.status = 1) :
    (complete e s).Inv :=
  .of_idle (h.of_same_mem (by constructor <;> rfl) rfl) (by rw [complete_status, hs]; decide) ⟨e, rfl⟩ rfl

/-- Every move of the engine keeps good states. -/
theorem EngineMove.inv {i : Instr} {s t : State} (h : EngineMove i s t) (hs : s.Inv) (hb : s.busy = true)
    (hd : decode s.cmd = .ok i) : t.Inv := by
  obtain ⟨j, hj, r⟩ := hs.running hb
  rw [hd] at hj; cases hj
  have hstatus := hs.status_of_busy hb
  rcases h.outside with ⟨e, -, -, -, rfl⟩ | ⟨hp, rfl⟩ | same
  · exact .of_complete hs.fitsWidth hstatus
  · have hv := r.validated (by rw [hp]; decide)
    exact .of_complete (hs.fitsWidth.of_digest (by constructor <;> rfl) hv (digestWrite_mem s _)) hstatus
  · have hbt : t.busy = true := by rw [State.busy, same.status]; exact hb
    have facts := h.facts r hbt
    have hv := h.verdict_success r hbt
    refine .of_running (hs.fitsWidth.of_same_mem same.keepsOperands same.mem) (same.status.trans hstatus) ?_
      facts.ne_idle (by rw [same.cmd, hd]) (r.of_sameButPhase hv same (h.phase_mem r) facts)
    rw [same.err]; exact hs.err

/-- The status word of an engine that issues a legal command. -/
theorem statusIssued_of_idle {w : Word32} (h : w = 0 ∨ w = 2 ∨ w = 4) : statusIssued w = 1 := by
  rcases h with rfl | rfl | rfl <;> decide

theorem statusIllegal_of_idle {w : Word32} (h : w = 0 ∨ w = 2 ∨ w = 4) : statusIllegal w = 4 := by
  rcases h with rfl | rfl | rfl <;> decide

theorem validate_mem_phaseOrder (i : Instr) : .validate ∈ phaseOrder i := by cases i <;> decide

/-- A command that has just been issued runs, in VALIDATE (R124). -/
theorem running_issueLegal {i : Instr} {s : State} (hp : backendPresent s.hw i.backend = true) :
    Running i (issueLegal i s) :=
  .of_facts hp (validate_mem_phaseOrder i) (fun hne => absurd rfl hne)
    (fun hv => by
      have hv : verdict i s = .code .success := hv
      rw [issueLegal_awaited, if_pos hv]; exact List.mem_cons_self)
    trivial

theorem hostRead_eq_of_not_done {s : State} (h : s.done = false) (index : Nat) :
    hostRead index s = { s with hostData := readReg s index } := by
  rw [hostRead, if_neg (by simp [h])]

/-- A read keeps good states: it ends the duty of R76 only when no command runs. -/
theorem State.Inv.hostRead {s : State} (h : s.Inv) (index : Nat) : (hostRead index s).Inv := by
  cases hb : s.busy
  · exact .of_idle (h.fitsWidth.of_same_mem (by constructor <;> rfl) rfl) (h.status_of_idle hb) h.err (h.idle.2 hb)
  · rw [hostRead_eq_of_not_done (h.not_done_of_busy hb)]
    exact h.withHostSide s.host s.pace _ h.memWf h.memBound

/-- The bytes a reset leaves with free values lie in the address space (R302). -/
theorem State.Inv.outAddr_add_bytesCutOff_le {s : State} (h : s.Inv) :
    s.outAddr.toNat + bytesCutOff s ≤ 2 ^ s.hw.aw.bits := by
  unfold bytesCutOff
  split
  · rename_i hw
    simp only [writingDigest, Bool.and_eq_true, decide_eq_true_eq] at hw
    obtain ⟨i, hd, r⟩ := h.running hw.1
    rw [hd]
    exact outAddr_add_le_of_success (r.validated (by rw [hw.2]; decide))
  · exact Nat.le_of_lt h.outAddr

theorem State.Inv.resetEvent {s : State} (h : s.Inv) : (resetEvent s).Inv := by
  have hzero : (0 : Word64).toNat < 2 ^ s.hw.aw.bits := Nat.two_pow_pos _
  refine .of_idle ⟨Memory.scribble_wf h.memWf .., fun c hc => ?_, hzero, hzero, hzero, hzero, hzero, hzero⟩ (.inl rfl)
    ⟨.success, rfl⟩ rfl
  rcases Memory.mem_scribble hc with ⟨-, hlt⟩ | hc
  · exact Nat.lt_of_lt_of_le hlt h.outAddr_add_bytesCutOff_le
  · exact h.memBound c hc

/-- Every move of the host keeps good states. -/
theorem HostMove.inv {op : HostOp} {s t : State} (h : HostMove s op t) (hs : s.Inv) : t.Inv := by
  have hfit := hs.fitsWidth
  cases h with
  | writeIgnored => exact hs
  | operand index v hb =>
    refine .of_idle (hfit.writeOperand index v) ?_ ?_ ?_
    · rw [writeOperand_status]; exact hs.status_of_idle hb
    · rw [writeOperand_err]; exact hs.err
    · rw [writeOperand_phase]; exact hs.idle.2 hb
  | illegal v hb =>
    exact .of_idle ((hfit.writeCmd v).of_same_mem (by constructor <;> rfl) rfl)
      (.inr (.inr (statusIllegal_of_idle (hs.status_of_idle hb)))) hs.err (hs.idle.2 hb)
  | started i v hb hd hp =>
    exact .of_running ((hfit.writeCmd v).of_same_mem (by constructor <;> rfl) rfl)
      (statusIssued_of_idle (hs.status_of_idle hb)) hs.err (by rw [issueLegal_phase]; decide) hd (running_issueLegal hp)
  | failed i v e hb =>
    exact .of_complete ((hfit.writeCmd v).of_same_mem (by constructor <;> rfl) rfl)
      (statusIssued_of_idle (hs.status_of_idle hb))
  | completed i v hb hd hp hpace hv =>
    refine .of_idle ((hfit.writeCmd v).of_digest (completed_keepsOperands i _) hv (completed_mem i _)) (.inr (.inl ?_))
      ⟨.success, rfl⟩ rfl
    rw [completed_status]
    exact statusDone_statusIssued hs.status
  | read index => exact hs.hostRead index
  | wait =>
    rw [hostWait_eq]
    exact (hs.hostRead 1).withHostSide _ s.pace _ hs.memWf hs.memBound
  | store a b ha =>
    refine hs.withHostSide s.host s.pace s.hostData (Memory.write_wf hs.memWf a b) fun c hc => ?_
    rcases Memory.mem_write hc with ⟨rfl, -, -⟩ | hc
    · exact ha
    · exact hs.memBound c hc
  | load => exact hs.withHostSide s.host s.pace _ hs.memWf hs.memBound
  | reset => exact hs.resetEvent

/-- Settles O51: the step is a move of the engine or of the host, from a state that differs in the host's side only. -/
theorem stepKeepsGoodStates : Obligations.StepKeepsGoodStates := by
  unfold Obligations.StepKeepsGoodStates
  intro s t hs h
  rcases step_moves h with ⟨p, i, hb, hd, he⟩ | ⟨-, p, rfl⟩ | ⟨p, op, ops, -, ho⟩
  · exact he.inv (hs.withHostSide s.host p s.hostData hs.memWf hs.memBound) hb hd
  · exact hs.withHostSide s.host p s.hostData hs.memWf hs.memBound
  · exact ho.inv (hs.withHostSide ops p s.hostData hs.memWf hs.memBound)

/-- Settles O50: reset leaves an idle engine, empty memory and zero operands. -/
theorem resetStateIsGood : Obligations.ResetStateIsGood := by
  unfold Obligations.ResetStateIsGood
  have hmem : Memory.wf State.reset.mem := ⟨List.Pairwise.nil, fun c hc => by cases hc⟩
  have hzero : (0 : Word64).toNat < 2 ^ State.reset.hw.aw.bits := Nat.two_pow_pos _
  exact .of_idle ⟨hmem, (fun c hc => by cases hc), hzero, hzero, hzero, hzero, hzero, hzero⟩ (.inl rfl)
    ⟨.success, rfl⟩ rfl

end Sys2Proof.Machine
end

section
/-! SUPPORT. The working registers a command leaves alone (10_state.md section 3; log 15). -/

namespace Sys2Proof.Machine

/-! ### The working registers of the other variants -/

/-- A function of the state that an iteration keeps is kept by the loop. -/
theorem loop_keeps {α : Type} {f : State → State} (g : State → α) (hf : ∀ s, g (f s) = g s) (n : Nat) (s : State) :
    g (loop f n s) = g s := by
  induction n generalizing s with
  | zero => rfl
  | succ n ih => rw [loop, ih, hf]

/-- A function of the state that no part of a 128-bit command but its main loop changes. -/
structure KeptAroundMain {α : Type} (g : State → α) : Prop where
  init : ∀ s, g (initLanes s) = g s := by intro; rfl
  loadK : ∀ b s, g (loadK b s) = g s := by intro _ _; rfl
  byte : ∀ s, g (laneStep s) = g s := by intro; rfl
  left : ∀ s, g (rotateLeft s) = g s := by intro; rfl
  right : ∀ s, g (rotateRight s) = g s := by intro; rfl
  serialize : ∀ s, g (ser128 s) = g s := by intro; rfl
  mix : ∀ s, g (mix 16 s) = g s := by intro; rfl

theorem KeptAroundMain.commandBody {α : Type} {g : State → α} (h : KeptAroundMain g) {i : Instr} (hi : i.variant = .m128)
    (hblock : ∀ s, g (blockPhase i s) = g s) (s : State) : g (commandBody i s) = g s := by
  have spliced (b : Backend) {block : State → State} (hb : ∀ s, g (block s) = g s) :
      g (Machine.mix 16 (ser128 (mult128Spliced b block s))) = g s := by
    rw [h.mix, h.serialize, mult128Spliced_keeps g h.init (h.loadK b) h.byte h.left h.right hb]
  cases i <;> cases hi
  case m128Ref =>
    show g (Machine.mix 16 (ser128 (loop laneStep _ (initLanes s)))) = g s
    rw [h.mix, h.serialize, loop_keeps g h.byte, h.init]
  case m128Opt => exact spliced .opt hblock
  case m128Vn => exact spliced .vn hblock
  case m128Va => exact spliced .va hblock
  case m128Vb => exact spliced .vb hblock

/-- What a 32-bit command leaves alone. -/
theorem commandBody_keeps_of_m32 {i : Instr} (hi : i.variant = .m32 ∨ i.variant = .m32k) (s : State) :
    let t := commandBody i s
    t.lanes.e1 = s.lanes.e1 ∧ t.lanes.e2 = s.lanes.e2 ∧ t.lanes.e3 = s.lanes.e3 ∧ t.lane = s.lane ∧ t.rot = s.rot ∧
      t.x = s.x ∧ t.p = s.p ∧ t.g = s.g ∧ t.v = s.v ∧ t.k0 = s.k0 ∧ t.k1 = s.k1 ∧ t.mw = s.mw ∧
      (i.backend = .ref → t.k = s.k) := by
  cases i <;> simp [Instr.variant] at hi <;> simp [commandBody, mult32Ref_eq, mult32Opt_eq, Instr.backend]

/-- What SIP.REF leaves alone (R240). -/
theorem sipHash24_keeps (s : State) :
    let t := sipHash24 s
    t.lanes = s.lanes ∧ t.lane = s.lane ∧ t.k = s.k ∧ t.rot = s.rot ∧ t.x = s.x ∧ t.p = s.p ∧ t.g = s.g := by
  have h := loop_keeps (f := sipWord) (fun t => (t.lanes, t.lane, t.k, t.rot, t.x, t.p, t.g)) (fun _ => rfl)
    (s.inLen.toNat / 8) (sipInit s)
  simp only [Prod.mk.injEq] at h
  exact h

/-- M128.REF neither aligns nor rotates (R203). -/
theorem commandBody_m128Ref_keeps (s : State) :
    (commandBody .m128Ref s).k = s.k ∧ (commandBody .m128Ref s).rot = s.rot := by
  simp [commandBody, mult128Ref_eq]

theorem blockVn_x_high (s : State) : (blockVn s).x.extractLsb' 64 64 = s.x.extractLsb' 64 64 := by
  exact BitVec.extractLsb'_append_eq_left

/-- Settles O30: an accepted command ends as its body leaves the working registers, so each clause is what the body keeps. -/
theorem commandLeavesOtherVariantsRegisters : Obligations.CommandLeavesOtherVariantsRegisters := by
  unfold Obligations.CommandLeavesOtherVariantsRegisters
  intro i s t ha ht
  rw [exec_of_accepted ha] at ht; cases ht
  let u := issueLegal i s
  refine ⟨fun hi => ?_, fun hi => ?_, fun hi => ?_⟩
  · exact commandBody_keeps_of_m32 hi u
  · have hsip := KeptAroundMain.commandBody (g := fun t => (t.v, t.k0, t.k1, t.mw)) {} hi
      (fun t => by cases i <;> rfl) u
    simp only [Prod.mk.injEq] at hsip
    obtain ⟨hv, hk0, hk1, hmw⟩ := hsip
    refine ⟨hv, hk0, hk1, hmw, fun hb => ?_, fun hb => ?_, fun hb => ?_, fun hb => ?_⟩
    · obtain rfl : i = .m128Ref := by cases i <;> cases hi <;> cases hb; rfl
      exact commandBody_m128Ref_keeps u
    · have hbuf := KeptAroundMain.commandBody (g := fun t => (t.x, t.p, t.g)) {} hi
        (fun t => by cases i <;> simp [Instr.backend] at hb <;> rfl) u
      simp only [Prod.mk.injEq] at hbuf
      exact hbuf
    · exact KeptAroundMain.commandBody (g := State.p) {} hi (fun t => by cases i <;> cases hb; rfl) u
    · have hbuf := KeptAroundMain.commandBody (g := fun t => (t.p, t.x.extractLsb' 64 64)) {} hi
        (fun t => by cases i <;> cases hb; exact Prod.ext rfl (blockVn_x_high t)) u
      simp only [Prod.mk.injEq] at hbuf
      exact hbuf
  · obtain rfl : i = .sipRef := by cases i <;> cases hi; rfl
    exact sipHash24_keeps u

end Sys2Proof.Machine
end

section
/-! SUPPORT. Memory and the commands (20_memory.md): multi-byte reads and writes byte by byte, what an accepted command
leaves alone, and which moves can change a byte. -/

namespace Sys2Proof.Machine

/-! ### Little-endian reads and writes -/

/-- `MemRead` as the sum of its bytes, each at its weight (R61, R62). -/
theorem Memory.readLE_eq_sum (m : Memory) (a n : Nat) :
    Memory.readLE m a n = ∑ j ∈ Finset.range n, (Memory.read m (a + j)).toNat * 2 ^ (8 * j) := by
  induction n generalizing a with
  | zero => rfl
  | succ n ih =>
    rw [Memory.readLE, ih, Finset.sum_range_succ', Finset.mul_sum, Nat.add_comm]
    congr 1
    · refine Finset.sum_congr rfl fun j _ => ?_
      rw [show a + 1 + j = a + (j + 1) by omega, Nat.mul_succ, Nat.pow_add]
      ring
    · simp

/-- Byte j of a value that was written, as a number (R62). -/
theorem Memory.toNat_read_writeLE {m : Memory} (hm : Memory.wf m) (a : Nat) {n j : Nat} (v : Nat) (h : j < n) :
    (Memory.read (Memory.writeLE m a n v) (a + j)).toNat = v / 256 ^ j % 256 := by
  rw [Memory.read_writeLE hm v h, BitVec.toNat_ofNat]

/-- Where n bytes hold the n low digits of a value to the base 256, they read as the value modulo 256^n. -/
theorem Memory.readLE_of_digits {m : Memory} {a n v : Nat}
    (h : ∀ j, j < n → (Memory.read m (a + j)).toNat = v / 256 ^ j % 256) : Memory.readLE m a n = v % 256 ^ n := by
  induction n generalizing a v with
  | zero => rw [Nat.pow_zero, Nat.mod_one]; rfl
  | succ n ih =>
    have low : (Memory.read m a).toNat = v % 256 := by simpa using h 0 (Nat.succ_pos n)
    have high : Memory.readLE m (a + 1) n = v / 256 % 256 ^ n := ih fun j hj => by
      rw [show a + 1 + j = a + (j + 1) by omega, h (j + 1) (by omega), Nat.pow_succ', Nat.div_div_eq_div_mul]
    rw [Memory.readLE, low, high, Nat.pow_succ', Nat.mod_mul]

/-- Settles O43, from the recursions of the read and of the write on the width. -/
theorem memoryReadsBackLittleEndian : Obligations.MemoryReadsBackLittleEndian := by
  unfold Obligations.MemoryReadsBackLittleEndian
  intro m a n v hm
  refine ⟨Memory.readLE_eq_sum m a n, fun j hj => ?_, fun x hx => Memory.read_writeLE_of_outside m v hx, ?_,
    Memory.writeLE_wf hm a n v⟩
  · rw [Memory.toNat_read_writeLE hm a v hj, Nat.pow_mul]
  · exact Memory.readLE_of_digits fun j hj => Memory.toNat_read_writeLE hm a v hj

/-! ### What an accepted command leaves -/

theorem completed_keepsHostSide (i : Instr) (s : State) : KeepsHostSide s (completed i s) :=
  have ho := (leavesDigest i (issueLegal i s)).outside
  ⟨ho.host, ho.pace, ho.hostData, ho.free⟩

/-- Issue and completion touch the bits BUSY, DONE and ILL only (R23). -/
theorem getLsbD_statusDone_statusIssued (w : Word32) {b : Nat} (hb : 3 ≤ b) :
    (statusDone (statusIssued w)).getLsbD b = w.getLsbD b := by
  have h0 : b ≠ 0 := by omega
  have h1 : b ≠ 1 := by omega
  have h2 : b ≠ 2 := by omega
  simp [statusDone, statusIssued, getLsbD_withBit, h0, h1, h2]

/-- An accepted command is awaited from its issue on, ahead of the ones before (R76, log 24). -/
theorem completed_awaited {i : Instr} {s : State} (h : Accepted i s) :
    (completed i s).awaited = footprint i s :: s.awaited :=
  (leavesDigest i (issueLegal i s)).outside.awaited.trans (issueLegal_awaited_of_accepted h)

/-- Settles O29: between issue and completion the body changes the working registers only, then come the D bytes. -/
theorem commandChangesOnlyItsOutputBytes : Obligations.CommandChangesOnlyItsOutputBytes := by
  unfold Obligations.CommandChangesOnlyItsOutputBytes
  intro i s h
  refine ⟨completed i s, exec_of_accepted h, completed_keepsOperands i s, completed_keepsHostSide i s, fun b hb => ?_,
    completed_awaited h, fun x hx => ?_⟩
  · rw [completed_status, getLsbD_statusDone_statusIssued _ hb]
  · rw [completed_mem, Memory.read_writeLE_of_outside _ _ hx]

/-! ### Which moves change a byte of memory -/

/-- An address is one of the D output bytes of a command, by the operands of a state (R65). -/
def InOutput (i : Instr) (s : State) (x : Nat) : Prop :=
  s.outAddr.toNat ≤ x ∧ x < s.outAddr.toNat + digestSize i.variant

theorem Memory.inRange_of_read_writeLE_ne {m : Memory} {a n v x : Nat}
    (h : Memory.read (Memory.writeLE m a n v) x ≠ Memory.read m x) : a ≤ x ∧ x < a + n := by
  by_contra hx
  exact h (Memory.read_writeLE_of_outside m v (by omega))

theorem Memory.inRange_of_read_scribble_ne {m : Memory} {a n f x : Nat}
    (h : Memory.read (Memory.scribble m a n f) x ≠ Memory.read m x) : a ≤ x ∧ x < a + n := by
  by_contra hx
  exact h (Memory.read_scribble_of_outside m f (by omega))

/-- A completion with ERR 0 has changed the byte at an address, one of the output bytes of the command in CMD (R233). -/
def WroteDigestAt (s t : State) (x : Nat) : Prop :=
  ∃ i, decode t.cmd = .ok i ∧ t.done = true ∧ t.err = 0 ∧ t.outAddr = s.outAddr ∧ InOutput i s x

/-- Of the moves of the engine only the digest write changes memory (R67). -/
theorem EngineMove.wroteDigestAt {i : Instr} {s t : State} (h : EngineMove i s t) (hd : decode s.cmd = .ok i) {x : Nat}
    (hx : Memory.read t.mem x ≠ Memory.read s.mem x) : WroteDigestAt s t x := by
  rcases h.outside with ⟨e, -, -, -, rfl⟩ | ⟨-, rfl⟩ | same
  · exact absurd rfl hx
  · exact ⟨i, hd, complete_done _ _, rfl, rfl, Memory.inRange_of_read_writeLE_ne hx⟩
  · exact absurd (by rw [same.mem]) hx

/-- A reset changes the output bytes of a command it cuts off in phase WRITE, and no other byte (R302, log 6). -/
theorem cutOff_of_read_resetEvent_ne {s : State} {x : Nat}
    (hx : Memory.read (resetEvent s).mem x ≠ Memory.read s.mem x) :
    ∃ i, s.busy = true ∧ s.phase = .write ∧ decode s.cmd = .ok i ∧ InOutput i s x := by
  have hr := Memory.inRange_of_read_scribble_ne hx
  unfold bytesCutOff at hr
  split at hr
  · rename_i hw
    simp only [writingDigest, Bool.and_eq_true, decide_eq_true_eq] at hw
    split at hr
    · exact ⟨_, hw.1, hw.2, by assumption, hr⟩
    · omega
  · omega

/-- Of the host's moves a store, a command that completes in its `WR` and a reset change memory. -/
theorem HostMove.changedByte_cases {op : HostOp} {s t : State} (h : HostMove s op t) {x : Nat}
    (hx : Memory.read t.mem x ≠ Memory.read s.mem x) :
    (∃ b, op = .store x b) ∨ WroteDigestAt s t x ∨
      (op = .reset ∧ ∃ i, s.busy = true ∧ s.phase = .write ∧ decode s.cmd = .ok i ∧ InOutput i s x) := by
  cases h with
  | store a b =>
    obtain rfl : x = a := by
      by_contra hne
      exact hx (Memory.read_write_of_ne s.mem b hne)
    exact .inl ⟨b, rfl⟩
  | completed i v hb hd =>
    have keeps := completed_keepsOperands i (writeCmd s v)
    rw [completed_mem] at hx
    exact .inr (.inl ⟨i, by rw [keeps.cmd]; exact hd, complete_done _ _, rfl, keeps.outAddr,
      Memory.inRange_of_read_writeLE_ne hx⟩)
  | reset => exact .inr (.inr ⟨rfl, cutOff_of_read_resetEvent_ne hx⟩)
  | operand index v => exact absurd (by rw [writeOperand_mem]) hx
  | wait => rw [hostWait_eq] at hx; exact absurd rfl hx
  | writeIgnored | illegal | started | failed | read | load => exact absurd rfl hx

/-- Settles O55, from what each move of the engine and of the host can change. -/
theorem memoryChangesOnlyByDigestStoreOrReset : Obligations.MemoryChangesOnlyByDigestStoreOrReset := by
  unfold Obligations.MemoryChangesOnlyByDigestStoreOrReset
  intro s t x h hx
  rcases step_moves h with ⟨p, i, -, hd, he⟩ | ⟨-, p, rfl⟩ | ⟨p, op, ops, hh, ho⟩
  · exact .inr (.inl (he.wroteDigestAt hd hx))
  · exact absurd rfl hx
  · rcases ho.changedByte_cases hx with ⟨b, rfl⟩ | hw | ⟨rfl, i, hb, hp, hd, hr⟩
    · exact .inl ⟨b, ops, hh⟩
    · exact .inr (.inl hw)
    · exact .inr (.inr ⟨i, ops, hh, hb, hp, hd, hr⟩)

end Sys2Proof.Machine
end

section
/-! SUPPORT. The access log of a command (20_memory.md R63 to R65, R73): its reads and its one write, each read aligned to
its width, and each byte of the footprint touched once. -/

namespace Sys2Proof.Machine

/-- Settles O44: the log of a completed command is its `accessOrder`, newest first. -/
theorem commandMakesItsAccessesInOrder : Obligations.CommandMakesItsAccessesInOrder := by
  unfold Obligations.CommandMakesItsAccessesInOrder
  exact fun i s h => ⟨completed i s, exec_of_accepted h, by rw [completed_accesses, List.reverse_reverse]⟩

/-- The accesses of a command, whatever their order: the input, by single bytes or as the Splicer cuts it, the key bytes, and
one write (R63, R65). -/
theorem accessOrder_perm (i : Instr) (s : State) :
    ∃ input, (input = readsFrom s.inAddr.toNat s.inLen.toNat ∨ ∃ b, input = splicedReads b s) ∧
      (accessOrder i s).Perm (input ++ readsFrom s.keyAddr.toNat (keyBytesUsed i.variant) ++
        [.write s.outAddr.toNat (digestSize i.variant)]) := by
  cases i with
  | m128Vn | m128Va | m128Vb => exact ⟨_, .inr ⟨_, rfl⟩, .refl _⟩
  | m32Ref | m32Opt | m32kRef | m32kOpt | m128Ref | m128Opt => exact ⟨_, .inl rfl, .refl _⟩
  | sipRef => exact ⟨_, .inl rfl, List.perm_append_comm.append_right _⟩

/-! ### Alignment -/

/-- A read is of 1, 8 or 16 bytes at a multiple of its width (R64). -/
def AlignedRead (a w : Nat) : Prop := (w = 1 ∨ w = 8 ∨ w = 16) ∧ a % w = 0

theorem alignedRead_of_mem_readsFrom {a n x w : Nat} (h : .read x w ∈ readsFrom a n) : AlignedRead x w := by
  simp only [readsFrom, List.mem_map, Access.read.injEq] at h
  obtain ⟨j, -, -, rfl⟩ := h
  exact ⟨.inl rfl, Nat.mod_one x⟩

/-- Blocks as wide as the alignment stay aligned if the first one is (R163). -/
theorem alignedRead_of_mem_blocksFrom {a m x w : Nat} {b : Backend} (ha : 0 < m → a % stride b = 0)
    (h : .read x w ∈ blocksFrom a (stride b) m) : AlignedRead x w := by
  simp only [blocksFrom, List.mem_map, List.mem_range, Access.read.injEq] at h
  obtain ⟨j, hj, rfl, rfl⟩ := h
  refine ⟨stride_cases b, ?_⟩
  rw [Nat.add_mul_mod_self_left]
  exact ha (by omega)

/-- The first block starts aligned, if there is one (R160, R163). -/
theorem firstBlock_aligned (b : Backend) (a n : Nat)
    (h : 0 < blockCount (stride b) n (prefixLength (alignWidth b) a n)) :
    (a + prefixLength (alignWidth b) a n) % stride b = 0 := by
  rw [← alignWidth_eq_stride]
  refine (aligned_or_eq_length _ a n (alignWidth_pos b)).resolve_right fun he => ?_
  rw [he, blockCount, Nat.sub_self, Nat.zero_div] at h
  exact absurd h (Nat.lt_irrefl 0)

theorem alignedRead_of_mem_splicedReads {b : Backend} {s : State} {x w : Nat} (h : .read x w ∈ splicedReads b s) :
    AlignedRead x w := by
  simp only [splicedReads, List.mem_append] at h
  obtain (h | h) | h := h
  · exact alignedRead_of_mem_readsFrom h
  · exact alignedRead_of_mem_blocksFrom (firstBlock_aligned b _ _) h
  · exact alignedRead_of_mem_readsFrom h

theorem alignedRead_of_mem_accessOrder {i : Instr} {s : State} {x w : Nat} (h : .read x w ∈ accessOrder i s) :
    AlignedRead x w := by
  obtain ⟨input, hinput, hperm⟩ := accessOrder_perm i s
  simp only [hperm.mem_iff, List.mem_append, List.mem_singleton, reduceCtorEq, or_false] at h
  rcases h with h | h
  · obtain rfl | ⟨b, rfl⟩ := hinput
    · exact alignedRead_of_mem_readsFrom h
    · exact alignedRead_of_mem_splicedReads h
  · exact alignedRead_of_mem_readsFrom h

/-- Settles O45, part by part of the access order. -/
theorem blockReadsAreAligned : Obligations.BlockReadsAreAligned := by
  unfold Obligations.BlockReadsAreAligned
  intro i s t h ht a w hr
  rw [exec_of_accepted h] at ht; cases ht
  rw [completed_accesses, List.mem_reverse] at hr
  exact alignedRead_of_mem_accessOrder hr

/-! ### Each byte once -/

theorem readsOf_perm {l m : List Access} (h : l.Perm m) (x : Nat) : readsOf l x = readsOf m x := (h.filter _).length_eq

theorem writesOf_perm {l m : List Access} (h : l.Perm m) (x : Nat) : writesOf l x = writesOf m x := (h.filter _).length_eq

theorem readsOf_write (a w x : Nat) : readsOf [.write a w] x = 0 := rfl

theorem writesOf_write (a w x : Nat) : writesOf [.write a w] x = if a ≤ x ∧ x < a + w then 1 else 0 := by
  simp only [writesOf, List.filter_cons, List.filter_nil, Access.isRead, Access.covers, Bool.not_false, Bool.true_and,
    Bool.and_eq_true, decide_eq_true_eq]
  split <;> rfl

/-- The reads of a command at an address (R65). -/
theorem readsOf_accessOrder (i : Instr) (s : State) (x : Nat) : readsOf (accessOrder i s) x =
    (if s.inAddr.toNat ≤ x ∧ x < s.inAddr.toNat + s.inLen.toNat then 1 else 0) +
      (if s.keyAddr.toNat ≤ x ∧ x < s.keyAddr.toNat + keyBytesUsed i.variant then 1 else 0) := by
  obtain ⟨input, hinput, hperm⟩ := accessOrder_perm i s
  rw [readsOf_perm hperm, readsOf_append, readsOf_append, readsOf_write, readsOf_readsFrom, Nat.add_zero]
  obtain rfl | ⟨b, rfl⟩ := hinput
  · rw [readsOf_readsFrom]
  · rw [readsOf_splicedReads]

/-- The writes of a command at an address (R65). -/
theorem writesOf_accessOrder (i : Instr) (s : State) (x : Nat) : writesOf (accessOrder i s) x =
    if s.outAddr.toNat ≤ x ∧ x < s.outAddr.toNat + digestSize i.variant then 1 else 0 := by
  obtain ⟨input, hinput, hperm⟩ := accessOrder_perm i s
  rw [writesOf_perm hperm, writesOf_append, writesOf_append, writesOf_write, writesOf_readsFrom]
  obtain rfl | ⟨b, rfl⟩ := hinput
  · rw [writesOf_readsFrom, Nat.zero_add]
  · rw [writesOf_splicedReads, Nat.zero_add]

/-- A command that fails validation makes no access, its backend present or not (R65, R123). -/
theorem exec_accesses_of_error {i : Instr} {s t : State} {e : ErrorCode} (hv : verdict i s = .code e) (he : e ≠ .success)
    (ht : exec i s = .next t) : t.accesses = [] := by
  cases hp : backendPresent s.hw i.backend
  · rw [exec_of_absent hp] at ht; cases ht; rfl
  · rw [exec_of_error hp hv he] at ht; cases ht; rfl

/-- Settles O46, counting part by part of the access order. -/
theorem commandTouchesItsFootprintOnce : Obligations.CommandTouchesItsFootprintOnce := by
  unfold Obligations.CommandTouchesItsFootprintOnce
  refine fun i s => ⟨fun h => ⟨completed i s, exec_of_accepted h, fun x => ?_⟩, fun e t => exec_accesses_of_error⟩
  rw [completed_accesses, readsOf_reverse, writesOf_reverse]
  exact ⟨readsOf_accessOrder i s x, writesOf_accessOrder i s x⟩

end Sys2Proof.Machine
end

section
/-! SUPPORT. The host's duty of R76: what it refuses, and when it begins and ends (20_memory.md; log 24). -/

namespace Sys2Proof.Machine

/-! ### Loads and stores -/

/-- The bytes a store may not touch, range by range. -/
theorem inAwaited_iff_ranges (s : State) (a : Nat) : inAwaited s a = true ↔
    (∃ f ∈ s.awaited, f.inAddr ≤ a ∧ a < f.inAddr + f.inLen) ∨
      (∃ f ∈ s.awaited, f.keyAddr ≤ a ∧ a < f.keyAddr + f.keyLen) ∨
      ∃ f ∈ s.awaited, f.outAddr ≤ a ∧ a < f.outAddr + f.outLen := by
  simp only [inAwaited_eq_true_iff, Footprint.reads_eq_true_iff, Footprint.writes_eq_true_iff, or_assoc, and_or_left,
    exists_or]

theorem inAwaitedOutput_iff_range (s : State) (a : Nat) :
    inAwaitedOutput s a = true ↔ ∃ f ∈ s.awaited, f.outAddr ≤ a ∧ a < f.outAddr + f.outLen := by
  simp only [inAwaitedOutput_eq_true_iff, Footprint.writes_eq_true_iff]

/-- Settles O58: the two guards of the host's accesses, each way. -/
theorem awaitedFootprintIsGuarded : Obligations.AwaitedFootprintIsGuarded := by
  unfold Obligations.AwaitedFootprintIsGuarded
  intro s a b ha inOutput inInput inKey
  have touched : inAwaited s a = true ↔ inInput ∨ inKey ∨ inOutput := inAwaited_iff_ranges s a
  have output : inAwaitedOutput s a = true ↔ inOutput := inAwaitedOutput_iff_range s a
  refine ⟨fun h => ?_, fun h => ?_, fun h => ?_, fun h => ?_⟩
  · exact (hostStore_eq ha b).trans (if_pos (touched.2 h))
  · exact (hostStore_eq ha b).trans (if_neg (mt touched.1 h))
  · exact (hostLoad_eq ha).trans (if_pos (output.2 h))
  · exact (hostLoad_eq ha).trans (if_neg (mt output.1 h))

/-- The key part of a footprint covers the key bytes a command uses, which an unkeyed one has none of (R65). -/
theorem footprint_key {i : Instr} {s : State} {a : Nat}
    (h : s.keyAddr.toNat ≤ a ∧ a < s.keyAddr.toNat + keyBytesUsed i.variant) :
    (footprint i s).keyAddr ≤ a ∧ a < (footprint i s).keyAddr + (footprint i s).keyLen := by
  have unkeyed : keyed i.variant = false → keyBytesUsed i.variant = 0 := by cases i.variant <;> decide
  cases hk : keyed i.variant
  · rw [unkeyed hk] at h; omega
  · simpa only [footprint, hk, if_true] using h

/-- Settles O57: the footprint of the running command is awaited in a good state, so O58 applies to it. -/
theorem runningFootprintIsGuarded : Obligations.RunningFootprintIsGuarded := by
  unfold Obligations.RunningFootprintIsGuarded
  intro i s a b hs hb hd hacc ha inInput inKey inOutput
  have awaited := hs.footprint_mem_awaited hb hd hacc
  obtain ⟨store, -, load, -⟩ := awaitedFootprintIsGuarded s a b ha
  refine ⟨fun h => store ?_, fun h => load ⟨_, awaited, h⟩⟩
  rcases h with h | h | h
  · exact .inl ⟨_, awaited, h⟩
  · exact .inr (.inl ⟨_, awaited, footprint_key h⟩)
  · exact .inr (.inr ⟨_, awaited, h⟩)

/-! ### When the duty begins and ends -/

/-- Acceptance is asked of the operand registers, not of CMD (R99). -/
theorem accepted_writeCmd (i : Instr) (s : State) (v : Nat) : Accepted i (writeCmd s v) ↔ Accepted i s := by
  rw [accepted_iff, accepted_iff]; rfl

/-- Acceptance does not depend on what the host has posted, nor on whose turn it is. -/
theorem accepted_turn (i : Instr) (s : State) (ops : List HostOp) (p : List Turn) :
    Accepted i { s with host := ops, pace := p } ↔ Accepted i s := by
  rw [accepted_iff, accepted_iff]; rfl

/-- The `WR` of an accepted command's word, run at once or only started, puts its footprint in front. -/
theorem hostOp_wr_of_accepted {i : Instr} {s : State} {v : Nat} (hb : s.busy = false)
    (hd : decode (BitVec.ofNat 32 v) = .ok i) (h : Accepted i s) :
    ∃ t, hostOp (.wr 0 v) s = .next t ∧ t.awaited = footprint i s :: s.awaited := by
  have hw : Accepted i (writeCmd s v) := (accepted_writeCmd i s v).2 h
  have hop : hostOp (.wr 0 v) s = issueCmd (writeCmd s v) := hostWrite_cmd hb v
  rcases issueCmd_cases (writeCmd s v) with ⟨e, hj, hx⟩ | ⟨j, hj, -, hx⟩ | ⟨j, hj, -, hx⟩ <;>
    rw [writeCmd_cmd, hd] at hj <;> cases hj
  · exact ⟨_, hop.trans (hx.trans (exec_of_accepted hw)), completed_awaited hw⟩
  · have started : issueOnly i (writeCmd s v) = issueLegal i (writeCmd s v) := if_pos hw.present
    exact ⟨_, hop.trans (hx.trans (congrArg _ started)), issueLegal_awaited_of_accepted hw⟩

/-- A `WR` of CMD puts the footprint of an accepted command in front, a read of STATUS with DONE = 1 and reset take all
footprints away, and no other move of the host changes them. -/
theorem HostMove.awaited_cases {op : HostOp} {s t : State} (h : HostMove s op t) :
    t.awaited = s.awaited ∨
      (∃ i v, s.busy = false ∧ op = .wr 0 v ∧ decode (BitVec.ofNat 32 v) = .ok i ∧ Accepted i s ∧
        t.awaited = footprint i s :: s.awaited) ∨
      (t.awaited = [] ∧ ((op = .rd 1 ∨ op = .wait) ∧ s.done = true ∨ op = .reset)) := by
  cases h with
  | started i v hb hd hp =>
    by_cases hv : verdict i s = .code .success
    · exact .inr (.inl ⟨i, v, hb, rfl, hd, (accepted_iff i s).2 ⟨hp, hv⟩, if_pos hv⟩)
    · exact .inl (if_neg hv)
  | failed i v e hb hd hp _ he hv =>
    have hne : verdict i s ≠ .code .success := by rw [hv]; exact fun hc => he (Verdict.code.inj hc)
    exact .inl (if_neg hne)
  | completed i v hb hd hp _ hv =>
    have ha : Accepted i s := (accepted_iff i s).2 ⟨hp, hv⟩
    exact .inr (.inl ⟨i, v, hb, rfl, hd, ha, completed_awaited ((accepted_writeCmd i s v).2 ha)⟩)
  | read index =>
    rw [hostRead_awaited]
    split
    · rename_i hr
      obtain ⟨rfl, hdone⟩ := hr
      exact .inr (.inr ⟨rfl, .inl ⟨.inl rfl, hdone⟩⟩)
    · exact .inl rfl
  | wait =>
    rw [hostWait_eq]
    show (hostRead 1 s).awaited = _ ∨ _ ∨ (hostRead 1 s).awaited = [] ∧ _
    cases hdone : s.done
    · exact .inl (hostRead_awaited_of_not_done hdone 1)
    · exact .inr (.inr ⟨if_pos ⟨rfl, hdone⟩, .inl ⟨.inr rfl, rfl⟩⟩)
  | reset => exact .inr (.inr ⟨rfl, .inr rfl⟩)
  | operand index v => exact .inl (writeOperand_awaited s index v)
  | writeIgnored | illegal | store | load => exact .inl rfl

/-- No move of the engine changes what is awaited. -/
theorem EngineMove.awaited {i : Instr} {s t : State} (h : EngineMove i s t) : t.awaited = s.awaited := by
  rcases h.outside with ⟨e, -, -, -, rfl⟩ | ⟨-, rfl⟩ | same
  · rfl
  · rfl
  · exact same.awaited

/-- A read of STATUS, by RD or by a poll, takes all footprints away exactly when DONE is 1. -/
theorem statusRead_awaited {op : HostOp} (hop : op = .rd 1 ∨ op = .wait) (s : State) :
    ∃ t, hostOp op s = .next t ∧ t.awaited = if s.done = true then [] else s.awaited := by
  have hread : (hostRead 1 s).awaited = if s.done = true then [] else s.awaited := by
    rw [hostRead_awaited]; exact if_congr (and_iff_right rfl) rfl rfl
  obtain rfl | rfl := hop
  · exact ⟨_, rfl, hread⟩
  · exact ⟨_, rfl, by rw [hostWait_eq]; exact hread⟩

/-- Settles O59: a step is a move of the engine, which leaves the duty as it is, or one of the host's. -/
theorem awaitedEndsAtTheReadOfDone : Obligations.AwaitedEndsAtTheReadOfDone := by
  unfold Obligations.AwaitedEndsAtTheReadOfDone
  intro s
  refine ⟨fun i v hb hd => ⟨hostOp_wr_of_accepted hb hd, fun hn t ht => ?_⟩, fun op hop => statusRead_awaited hop s,
    ⟨_, rfl, resetEvent_awaited s⟩, fun t ht => ?_⟩
  · rcases (hostMove_of_hostOp ht).awaited_cases with h | ⟨j, w, -, hw, hj, ha, -⟩ | ⟨-, (⟨h | h, -⟩ | h)⟩
    · exact h
    · cases hw
      rw [hd] at hj; cases hj
      exact absurd ha hn
    all_goals cases h
  · rcases step_moves ht with ⟨p, i, -, -, he⟩ | ⟨-, p, rfl⟩ | ⟨p, op, ops, hh, ho⟩
    · exact .inl he.awaited
    · exact .inl rfl
    · rcases ho.awaited_cases with h | ⟨i, v, hb, rfl, hd, ha, h⟩ | ⟨h, hop⟩
      · exact .inl h
      · exact .inr (.inl ⟨i, v, ops, hb, hh, hd, (accepted_turn i s ops p).1 ha, h⟩)
      · exact .inr (.inr ⟨h, op, ops, hh, hop⟩)

end Sys2Proof.Machine
end

section
/-! SUPPORT. The command words (30_encoding.md): the fields of a word as numbers, what the decoder answers on each kind of word,
and that it accepts exactly the words the encoder makes. -/

namespace Sys2Proof

/-! ### The codes and the opcode map -/

theorem commandWord (i : Instr) : Laws.CommandWord.Statement i := by
  cases i with
  | m32Ref => exact Laws.CommandWord.m32Ref
  | m32Opt => exact Laws.CommandWord.m32Opt
  | m32kRef => exact Laws.CommandWord.m32kRef
  | m32kOpt => exact Laws.CommandWord.m32kOpt
  | m128Ref => exact Laws.CommandWord.m128Ref
  | m128Opt => exact Laws.CommandWord.m128Opt
  | m128Vn => exact Laws.CommandWord.m128Vn
  | m128Va => exact Laws.CommandWord.m128Va
  | m128Vb => exact Laws.CommandWord.m128Vb
  | sipRef => exact Laws.CommandWord.sipRef

theorem toNat_encode (i : Instr) : (encode i).toNat = 16 * i.backend.code.toNat + i.variant.code.toNat :=
  (commandWord i).1

theorem Instr.ofPair_fields (i : Instr) : Instr.ofPair i.variant i.backend = some i := by
  obtain ⟨-, -, -, hpair, -⟩ := commandWord i
  exact hpair

theorem Instr.wellFormed_eq (i : Instr) (hw : Params) : i.wellFormed hw = Machine.backendPresent hw i.backend := by
  obtain ⟨-, -, -, -, hpresent⟩ := commandWord i
  exact hpresent hw

/-- No two fields name a command but its own (R95). -/
theorem Instr.fields_of_ofPair {v : Variant} {b : Backend} {i : Instr} (h : Instr.ofPair v b = some i) :
    v = i.variant ∧ b = i.backend := by
  cases v <;> cases b <;> cases h <;> exact ⟨rfl, rfl⟩

/-- The empty cells of the opcode map, by their codes (R95): a vector backend of a 32-bit variant, any backend of SIP but REF. -/
theorem Instr.ofPair_eq_none_iff (v : Variant) (b : Backend) : Instr.ofPair v b = none ↔
    ((v.code.toNat = 1 ∨ v.code.toNat = 2) ∧ 2 ≤ b.code.toNat) ∨ (v.code.toNat = 4 ∧ 1 ≤ b.code.toNat) := by
  cases v <;> cases b <;> decide

theorem Variant.ofCode_code (v : Variant) : Variant.ofCode v.code = some v := by cases v <;> decide

theorem Backend.ofCode_code (b : Backend) : Backend.ofCode b.code = some b := by cases b <;> decide

theorem Variant.ofCode_eq_none_iff : ∀ c : BitVec 3, Variant.ofCode c = none ↔ c.toNat = 0 ∨ 5 ≤ c.toNat := by decide

theorem Backend.ofCode_eq_none_iff : ∀ c : BitVec 3, Backend.ofCode c = none ↔ 5 ≤ c.toNat := by decide

theorem Variant.code_mem (v : Variant) : 1 ≤ v.code.toNat ∧ v.code.toNat ≤ 4 := by cases v <;> decide

theorem Backend.code_le (b : Backend) : b.code.toNat ≤ 4 := by cases b <;> decide

/-- The codes 1 to 4 are those of the variants (R91). -/
theorem Variant.exists_code {n : Nat} (h1 : 1 ≤ n) (h4 : n ≤ 4) : ∃ v : Variant, n = v.code.toNat := by
  interval_cases n
  · exact ⟨.m32, rfl⟩
  · exact ⟨.m32k, rfl⟩
  · exact ⟨.m128, rfl⟩
  · exact ⟨.sip, rfl⟩

/-- The codes 0 to 4 are those of the backends (R92). -/
theorem Backend.exists_code {n : Nat} (h : n ≤ 4) : ∃ b : Backend, n = b.code.toNat := by
  interval_cases n
  · exact ⟨.ref, rfl⟩
  · exact ⟨.opt, rfl⟩
  · exact ⟨.vn, rfl⟩
  · exact ⟨.va, rfl⟩
  · exact ⟨.vb, rfl⟩

/-! ### The fields of a word, as numbers (R90) -/

theorem toNat_highField (w : Word32) : (w.extractLsb' 7 25).toNat = w.toNat / 2 ^ 7 := by
  rw [BitVec.extractLsb'_toNat, Nat.shiftRight_eq_div_pow]
  omega

theorem getLsbD_three (w : Word32) : w.getLsbD 3 = decide (w.toNat / 8 % 2 = 1) :=
  Nat.testBit_eq_decide_div_mod_eq

theorem toNat_variantField (w : Word32) : (w.extractLsb' 0 3).toNat = w.toNat % 8 := by
  rw [BitVec.extractLsb'_toNat, Nat.shiftRight_zero]

theorem toNat_backendField {w : Word32} (h : w.toNat / 2 ^ 7 = 0) : (w.extractLsb' 4 3).toNat = w.toNat / 16 := by
  rw [BitVec.extractLsb'_toNat, Nat.shiftRight_eq_div_pow]
  omega

/-! ### What the decoder answers (R96) -/

theorem decode_of_highBits {w : Word32} (h : w.toNat / 2 ^ 7 ≠ 0) : decode w = .error .highBitsSet := by
  have hhigh : w.extractLsb' 7 25 ≠ 0 := fun h0 => h (by rw [← toNat_highField, h0]; rfl)
  rw [decode, if_pos hhigh]

section
variable {w : Word32} (h7 : w.toNat / 2 ^ 7 = 0)
include h7

theorem highField_eq_zero : ¬ w.extractLsb' 7 25 ≠ 0 :=
  not_not.2 (BitVec.eq_of_toNat_eq ((toNat_highField w).trans h7))

theorem decode_of_bitThree (h : w.toNat / 8 % 2 = 1) : decode w = .error .bitThreeSet := by
  rw [decode, if_neg (highField_eq_zero h7), if_pos (by rw [getLsbD_three, decide_eq_true h])]

variable (h3 : w.toNat / 8 % 2 = 0)
include h3

theorem decode_of_reservedVariant (h : w.toNat % 8 = 0 ∨ 5 ≤ w.toNat % 8) : decode w = .error .reservedVariant := by
  have hv : Variant.ofCode (w.extractLsb' 0 3) = none := by
    rwa [Variant.ofCode_eq_none_iff, toNat_variantField]
  rw [decode, if_neg (highField_eq_zero h7), if_neg (by rw [getLsbD_three, h3]; decide), hv]

theorem decode_of_reservedBackend {v : Variant} (hv : w.toNat % 8 = v.code.toNat) (h : 5 ≤ w.toNat / 16) :
    decode w = .error .reservedBackend := by
  have hvariant : w.extractLsb' 0 3 = v.code := BitVec.eq_of_toNat_eq ((toNat_variantField w).trans hv)
  have hb : Backend.ofCode (w.extractLsb' 4 3) = none := by
    rwa [Backend.ofCode_eq_none_iff, toNat_backendField h7]
  rw [decode, if_neg (highField_eq_zero h7), if_neg (by rw [getLsbD_three, h3]; decide), hvariant, v.ofCode_code, hb]

/-- On a word whose two fields hold legal codes the decoder looks in the opcode map. -/
theorem decode_of_codes {v : Variant} {b : Backend} (hv : w.toNat % 8 = v.code.toNat)
    (hb : w.toNat / 16 = b.code.toNat) : decode w = (Instr.ofPair v b).elim (.error .illegalPair) .ok := by
  have hvariant : w.extractLsb' 0 3 = v.code := BitVec.eq_of_toNat_eq ((toNat_variantField w).trans hv)
  have hbackend : w.extractLsb' 4 3 = b.code := BitVec.eq_of_toNat_eq ((toNat_backendField h7).trans hb)
  rw [decode, if_neg (highField_eq_zero h7), if_neg (by rw [getLsbD_three, h3]; decide), hvariant, hbackend,
    v.ofCode_code, b.ofCode_code]
  dsimp only
  cases Instr.ofPair v b <;> rfl

theorem decode_of_emptyCell {v : Variant} {b : Backend} (hv : w.toNat % 8 = v.code.toNat)
    (hb : w.toNat / 16 = b.code.toNat) (h : Instr.ofPair v b = none) : decode w = .error .illegalPair := by
  rw [decode_of_codes h7 h3 hv hb, h, Option.elim_none]

end

/-! ### Decoder and encoder -/

theorem decode_encode (i : Instr) : decode (encode i) = .ok i := by
  have hword := toNat_encode i
  have hv := i.variant.code_mem
  have hb := i.backend.code_le
  rw [decode_of_codes (v := i.variant) (b := i.backend) (by omega) (by omega) (by omega) (by omega), i.ofPair_fields,
    Option.elim_some]

/-- The decoder accepts only the word the encoder makes: a word it accepts has no bit set outside its two fields, and the
fields hold the command's codes. -/
theorem eq_encode_of_decode_eq_ok {w : Word32} {i : Instr} (h : decode w = .ok i) : w = encode i := by
  by_cases h7 : w.toNat / 2 ^ 7 = 0
  case neg => rw [decode_of_highBits h7] at h; cases h
  by_cases h3 : w.toNat / 8 % 2 = 1
  case pos => rw [decode_of_bitThree h7 h3] at h; cases h
  replace h3 : w.toNat / 8 % 2 = 0 := by omega
  by_cases hr : w.toNat % 8 = 0 ∨ 5 ≤ w.toNat % 8
  case pos => rw [decode_of_reservedVariant h7 h3 hr] at h; cases h
  obtain ⟨v, hv⟩ := Variant.exists_code (n := w.toNat % 8) (by omega) (by omega)
  by_cases hs : 5 ≤ w.toNat / 16
  case pos => rw [decode_of_reservedBackend h7 h3 hv hs] at h; cases h
  obtain ⟨b, hb⟩ := Backend.exists_code (n := w.toNat / 16) (by omega)
  rw [decode_of_codes h7 h3 hv hb] at h
  cases hp : Instr.ofPair v b with
  | none => rw [hp] at h; cases h
  | some j =>
    rw [hp] at h; cases h
    obtain ⟨rfl, rfl⟩ := Instr.fields_of_ofPair hp
    have hword := toNat_encode i
    exact BitVec.eq_of_toNat_eq (by omega)

/-- Settles O19: each direction is a lemma above. -/
theorem decodeAcceptsExactlyEncodedWords : Obligations.DecodeAcceptsExactlyEncodedWords := by
  unfold Obligations.DecodeAcceptsExactlyEncodedWords
  exact fun w i => ⟨eq_encode_of_decode_eq_ok, fun h => h ▸ decode_encode i⟩

/-- Settles O21: the first two faults are read off the number of the word, the others off the codes of its two fields. -/
theorem illegalWordsAreRejectedByName : Obligations.IllegalWordsAreRejectedByName := by
  unfold Obligations.IllegalWordsAreRejectedByName
  intro w
  refine ⟨decode_of_highBits, decode_of_bitThree, decode_of_reservedVariant, fun h7 h3 hv1 hv4 hb => ?_,
    fun h7 h3 hv hb2 hb4 => ?_, fun h7 h3 hv hb1 hb4 => ?_⟩
  · obtain ⟨v, hv⟩ := Variant.exists_code hv1 hv4
    exact decode_of_reservedBackend h7 h3 hv hb
  · obtain ⟨v, hc⟩ := Variant.exists_code (n := w.toNat % 8) (by omega) (by omega)
    obtain ⟨b, hb⟩ := Backend.exists_code hb4
    exact decode_of_emptyCell h7 h3 hc hb ((Instr.ofPair_eq_none_iff v b).2 (.inl ⟨hc ▸ hv, hb ▸ hb2⟩))
  · obtain ⟨b, hb⟩ := Backend.exists_code hb4
    exact decode_of_emptyCell (v := .sip) h7 h3 hv hb ((Instr.ofPair_eq_none_iff .sip b).2 (.inr ⟨rfl, hb ▸ hb1⟩))

/-- Settles O20: each of the ten is the word the encoder makes. -/
theorem commandWordsAreThoseOfTheMap : Obligations.CommandWordsAreThoseOfTheMap := by
  unfold Obligations.CommandWordsAreThoseOfTheMap
  exact ⟨decode_encode .m32Ref, decode_encode .m32Opt, decode_encode .m32kRef, decode_encode .m32kOpt,
    decode_encode .m128Ref, decode_encode .m128Opt, decode_encode .m128Vn, decode_encode .m128Va,
    decode_encode .m128Vb, decode_encode .sipRef⟩

end Sys2Proof
end

section
/-! SUPPORT. Presence of a backend (30_encoding.md R97) and the poll of WAIT (R104). -/

namespace Sys2Proof.Machine

/-! ### Presence of a backend -/

/-- Only the three vector backends can be absent, each by its own parameter (R9, R97). -/
theorem backendPresent_eq_false_iff (hw : Params) (i : Instr) : backendPresent hw i.backend = false ↔
    (i = .m128Vn ∧ hw.capVN = false) ∨ (i = .m128Va ∧ hw.capVA = false) ∨ (i = .m128Vb ∧ hw.capVB = false) := by
  cases i <;> simp [Instr.backend, backendPresent]

/-- The bit of CAP at a backend's code (R25). -/
theorem getLsbD_capWord_code (hw : Params) (b : Backend) :
    (capWord hw).getLsbD b.code.toNat = backendPresent hw b := by
  rw [getLsbD_capWord]
  cases b <;> rfl

/-- Settles O18. -/
theorem absentBackendIsAnIllegalWord : Obligations.AbsentBackendIsAnIllegalWord := by
  unfold Obligations.AbsentBackendIsAnIllegalWord
  exact fun i s => ⟨backendPresent_eq_false_iff s.hw i, exec_of_absent, i.wellFormed_eq s.hw,
    getLsbD_capWord_code s.hw i.backend⟩

/-! ### The poll of WAIT -/

/-- Settles O12: a poll is a read of STATUS that changes only what the host holds, and is posted again while BUSY. -/
theorem waitPollsStatusUntilIdle : Obligations.WaitPollsStatusUntilIdle := by
  unfold Obligations.WaitPollsStatusUntilIdle
  intro s
  have hpoll : hostOp .wait s = .next { hostRead 1 s with host := if s.busy = true then .wait :: s.host else s.host } :=
    congrArg Host.Outcome.next (hostWait_eq s)
  obtain ⟨t, ht, hawaited⟩ := statusRead_awaited (.inr rfl) s
  rw [hpoll] at ht
  cases ht
  exact ⟨_, hpoll, rfl, rfl, ⟨rfl, rfl, rfl, rfl, rfl, rfl, rfl, rfl⟩,
    ⟨rfl, rfl, rfl, rfl, rfl, rfl, rfl, rfl, rfl, rfl, rfl, rfl, rfl⟩, rfl, rfl, rfl, fun hb => if_pos hb,
    fun hb => if_neg (by simp [hb]), hawaited⟩

end Sys2Proof.Machine
end

section
/-! SUPPORT. The host's register accesses (40_command_lifecycle.md R120 to R124): an RD, and the WR of CMD by what its word
decodes to. -/

namespace Sys2Proof.Machine

/-! ### RD -/

/-- The register at each index, in the order of R21; the reserved indices read 0 (R32). -/
theorem readReg_eq (s : State) (index : Nat) : readReg s index =
    if index = 0 then s.cmd.setWidth 64 else if index = 1 then s.status.setWidth 64
    else if index = 2 then s.err.setWidth 64 else if index = 3 then (capWord s.hw).setWidth 64
    else if index = 4 then s.inAddr else if index = 5 then s.inLen else if index = 6 then s.keyAddr
    else if index = 7 then s.keyLen else if index = 8 then s.outAddr else if index = 9 then s.outCap else 0 := by
  match index with
  | 0 | 1 | 2 | 3 | 4 | 5 | 6 | 7 | 8 | 9 => rfl
  | n + 10 => simp [readReg, Reg.ofIndex]

/-- Settles O5: an RD is `hostRead`, which returns the register of the index. -/
theorem readReturnsRegisterAndChangesNothing : Obligations.ReadReturnsRegisterAndChangesNothing := by
  unfold Obligations.ReadReturnsRegisterAndChangesNothing
  intro s index
  rw [← readReg_eq]
  rfl

/-! ### A busy engine -/

theorem engineMove_of_engineStep {s t : State} (h : engineStep s = .next t) : ∃ i, decode s.cmd = .ok i ∧ EngineMove i s t := by
  unfold engineStep at h
  split at h
  · cases h
  · exact ⟨_, by assumption, engineMove_of_phaseStep h⟩

/-- Settles O7: a WR at a busy engine is lost, and no move of the engine touches CMD or an operand. -/
theorem writesWhileBusyAreIgnored : Obligations.WritesWhileBusyAreIgnored := by
  unfold Obligations.WritesWhileBusyAreIgnored
  intro s index v hb
  refine ⟨hostWrite_of_busy hb index v, rfl, fun t ht => ?_⟩
  obtain ⟨i, -, hmove⟩ := engineMove_of_engineStep ht
  exact hmove.keepsOperands

/-! ### The WR of CMD at an idle engine -/

/-- A word that is no command, or a command whose backend is absent, is issued as illegal on either schedule (R97, R123). -/
theorem issueCmd_of_illegal {s : State} (h : ∀ i, decode s.cmd = .ok i → backendPresent s.hw i.backend = false) :
    issueCmd s = .next (issueIllegal s) := by
  rcases issueCmd_cases s with ⟨e, -, hx⟩ | ⟨i, hd, -, hx⟩ | ⟨i, hd, -, hx⟩
  · exact hx
  · rw [hx, exec_of_absent (h i hd)]
  · rw [hx, issueOnly, if_neg (by simp [h i hd])]

/-- With no pace given a command runs in the step that issues it (R129, log 4). -/
theorem issueCmd_of_unpaced {s : State} {i : Instr} (hd : decode s.cmd = .ok i) (hp : s.pace = []) :
    issueCmd s = exec i s := by
  simp only [issueCmd, hd, hp]

/-- With a pace given a legal command is only started (R124, log 4). -/
theorem issueCmd_of_paced {s : State} {i : Instr} (hd : decode s.cmd = .ok i) (hp : s.pace ≠ [])
    (ha : backendPresent s.hw i.backend = true) : issueCmd s = .next (issueLegal i s) := by
  rcases issueCmd_cases s with ⟨e, he, -⟩ | ⟨j, -, hnil, -⟩ | ⟨j, hj, -, hx⟩
  · rw [hd] at he; cases he
  · exact absurd hnil hp
  · rw [hd] at hj; cases hj
    rw [hx, issueOnly, if_pos ha]

/-- Settles O8: the word is stored in CMD and issued as illegal. -/
theorem illegalWordSetsIllAndNothingElse : Obligations.IllegalWordSetsIllAndNothingElse := by
  unfold Obligations.IllegalWordSetsIllAndNothingElse
  intro s v hb hill
  have hissue : hostOp (.wr 0 v) s = .next (issueIllegal (writeCmd s v)) :=
    (hostWrite_cmd hb v).trans (issueCmd_of_illegal (s := writeCmd s v) hill)
  exact ⟨_, hissue, issueIllegal_ill _, issueIllegal_done _, (issueIllegal_busy _).trans hb, statusIllegal_of_idle, rfl, rfl,
    rfl, rfl, rfl, ⟨rfl, rfl, rfl, rfl, rfl, rfl, rfl, rfl⟩,
    ⟨rfl, rfl, rfl, rfl, rfl, rfl, rfl, rfl, rfl, rfl, rfl, rfl, rfl⟩, ⟨rfl, rfl, rfl, rfl⟩, rfl⟩

/-- Settles O9: the word is stored in CMD and the command issued, and its footprint is awaited when it is accepted. -/
theorem legalIssueSetsBusyAndKeepsErr : Obligations.LegalIssueSetsBusyAndKeepsErr := by
  unfold Obligations.LegalIssueSetsBusyAndKeepsErr
  intro s v i hb hpace hd hp
  have hissue : hostOp (.wr 0 v) s = .next (issueLegal i (writeCmd s v)) :=
    (hostWrite_cmd hb v).trans (issueCmd_of_paced (s := writeCmd s v) hd hpace hp)
  refine ⟨_, hissue, issueLegal_busy _ _, issueLegal_done _ _, issueLegal_ill _ _, rfl, rfl, rfl, rfl,
    ⟨rfl, rfl, rfl, rfl, rfl, rfl, rfl, rfl⟩, ⟨rfl, rfl, rfl, rfl, rfl, rfl, rfl, rfl, rfl, rfl, rfl, rfl, rfl⟩,
    ⟨rfl, rfl, rfl, rfl⟩, fun ha => ?_, fun hn => if_neg fun hv => hn ((accepted_iff i s).2 ⟨hp, hv⟩)⟩
  exact issueLegal_awaited_of_accepted ((accepted_writeCmd i s v).2 ha)

/-- Settles O22: at an idle engine the host moves, and its WR of CMD is the issue of the word. -/
theorem stepRunsTheDecodedCommand : Obligations.StepRunsTheDecodedCommand := by
  unfold Obligations.StepRunsTheDecodedCommand
  intro s v rest i hb hpace hhost hd
  calc step s
      = hostStep s := if_neg (by simp [hb])
    _ = hostOp (.wr 0 v) { s with host := rest } := by rw [hostStep, hhost]
    _ = issueCmd (writeCmd { s with host := rest } v) := hostWrite_cmd (s := { s with host := rest }) hb v
    _ = exec i (writeCmd { s with host := rest } v) :=
      issueCmd_of_unpaced (s := writeCmd { s with host := rest } v) hd hpace

/-! ### Two states with one footprint -/

theorem KeepsOperands.verdict_eq {s u : State} (h : KeepsOperands s u) (i : Instr) : verdict i u = verdict i s := by
  simp only [verdict, h.hw, h.inAddr, h.inLen, h.keyAddr, h.keyLen, h.outAddr, h.outCap]

/-- The digest is a function of the input and the key bytes the command uses (R4, R132). -/
theorem digestBytes_congr {i : Instr} {s u : State} (hin : inputBytes u = inputBytes s)
    (hkey : keyBytes u (keyBytesUsed i.variant) = keyBytes s (keyBytesUsed i.variant)) :
    digestBytes i u = digestBytes i s := by
  unfold digestBytes
  cases hv : i.variant with
  | m32 => simp only [hin]
  | m32k | m128 | sip =>
    simp only [hv, keyBytesUsed] at hkey
    simp only [hin, hkey]

theorem ErrorCode.word_ne_zero {e : ErrorCode} (he : e ≠ .success) : e.word ≠ 0 := by
  cases e with
  | success => exact absurd rfl he
  | invalidParameter | outputTooSmall | rangesOverlap | keyTooSmall => decide

/-- Where n bytes from an address on are the same, each of them is. -/
theorem Memory.read_eq_of_bytes_eq {m m' : Memory} {a n j : Nat} (h : Memory.bytes m a n = Memory.bytes m' a n)
    (hj : j < n) : Memory.read m (a + j) = Memory.read m' (a + j) := by
  rw [← Memory.getElem_bytes m a n j (by simpa using hj), ← Memory.getElem_bytes m' a n j (by simpa using hj)]
  simp only [h]

/-- Settles O32: the Validator sees the operands only, and the digest is that of the input and key bytes. -/
theorem resultDependsOnOperandsAndFootprintOnly : Obligations.ResultDependsOnOperandsAndFootprintOnly := by
  unfold Obligations.ResultDependsOnOperandsAndFootprintOnly
  intro i s u hp hops hms hmu hin hkey
  have hpu : backendPresent u.hw i.backend = true := by rw [hops.hw]; exact hp
  have hverdict := hops.verdict_eq i
  constructor
  · intro r
    rw [exec_eq_refused_iff hp, exec_eq_refused_iff hpu, hverdict]
  · intro t ht
    rcases (exec_eq_next_iff hp t).1 ht with ⟨e, he, hv, rfl⟩ | ⟨hv, rfl⟩
    · exact ⟨complete e (issueLegal i u), exec_of_error hpu (hverdict.trans hv) he, rfl,
        fun h0 => absurd h0 (ErrorCode.word_ne_zero he)⟩
    · refine ⟨completed i u, exec_of_success hpu (hverdict.trans hv), rfl, fun _ j hj => ?_⟩
      refine Memory.read_eq_of_bytes_eq ?_ hj
      rw [completed_bytes i s hms, ← hops.outAddr, completed_bytes i u hmu]
      exact digestBytes_congr hin hkey

end Sys2Proof.Machine
end

section
/-! SUPPORT. A running command, phase by phase, against the big step (40_command_lifecycle.md R126, R129, R130): the state in
which the command ends is a function of the present one that every engine step keeps, while a budget of steps falls. -/

namespace Sys2Proof.Machine

/-! ### The state a running command ends in -/

/-- All the work of a phase that is left in a state (R126): its loop to the end, or its one action. -/
def phaseWork (i : Instr) (s : State) : Phase → State
  | .idle | .validate => s
  | .init => initPhase i s
  | .prefixFold => loop (byteStepPhase i) (s.k.toNat - s.pos.toNat) s
  | .rotl => rotateLeft s
  | .main => loop (blockPhase i) (blockCount (stride i.backend) s.inLen.toNat s.pos.toNat) s
  | .rotr => rotateRight s
  | .tail => serializePhase i (loop (byteStepPhase i) (s.inLen.toNat - s.pos.toNat) s)
  | .mix => mix (digestSize i.variant) s
  | .write => digestWrite (digestSize i.variant) s
  | .sipInit => sipInit s
  | .sipWords => loop sipWord (blockCount 8 s.inLen.toNat s.pos.toNat) s
  | .sipLast => sipLast s
  | .sipFin => sipFin s

/-- The phases of a command from one of them on. -/
def phasesFrom (i : Instr) (p : Phase) : List Phase := (phaseOrder i).dropWhile (· ≠ p)

/-- The state in which a command that passed the Validator ends, from any of its phases on. -/
def finish (i : Instr) (s : State) : State := complete .success ((phasesFrom i s.phase).foldl (phaseWork i) s)

theorem phasesFrom_of_phaseAfter {i : Instr} {p q : Phase} (h : phaseAfter p (phaseOrder i) = some q) :
    phasesFrom i p = p :: phasesFrom i q := by
  revert h
  cases i <;> cases p <;> simp [phaseAfter, phaseOrder, phasesFrom] <;> rintro rfl <;> simp

theorem loop_at {f : State → State} (hf : ∀ s p, f (s.at p) = (f s).at p) (n : Nat) (s : State) (p : Phase) :
    loop f n (s.at p) = (loop f n s).at p := by
  induction n generalizing s with
  | zero => rfl
  | succ n ih => rw [loop, hf, ih, loop]

/-- No phase's work looks at PHASE. -/
theorem phaseWork_at (i : Instr) (s : State) (p q : Phase) : phaseWork i (s.at q) p = (phaseWork i s p).at q := by
  cases p with
  | init => exact initPhase_at i s q
  | prefixFold => exact loop_at (byteStepPhase_at i) _ s q
  | main => exact loop_at (blockPhase_at i) _ s q
  | tail => exact (congrArg (serializePhase i) (loop_at (byteStepPhase_at i) _ s q)).trans (serializePhase_at i _ q)
  | sipWords => exact loop_at (f := sipWord) (fun _ _ => rfl) _ s q
  | idle | validate | rotl | rotr | mix | write | sipInit | sipLast | sipFin => rfl

theorem foldl_phaseWork_at (i : Instr) (l : List Phase) (s : State) (q : Phase) :
    l.foldl (phaseWork i) (s.at q) = (l.foldl (phaseWork i) s).at q := by
  induction l generalizing s with
  | nil => rfl
  | cons p l ih => rw [List.foldl_cons, phaseWork_at, ih, List.foldl_cons]

/-- A phase that does all its work and moves on leads to the same end. -/
theorem finish_of_phaseAfter {i : Instr} {s : State} {q : Phase} (h : phaseAfter s.phase (phaseOrder i) = some q) :
    finish i ((phaseWork i s s.phase).at q) = finish i s := by
  rw [finish, finish, phasesFrom_of_phaseAfter h, foldl_phaseWork_at, List.foldl_cons]
  rfl

/-- So does a step inside a phase, when it leaves the phase to end in the same state. -/
theorem finish_of_phaseWork_eq {i : Instr} {s t : State} {p q : Phase} (hs : s.phase = p) (ht : t.phase = p)
    (hq : phaseAfter p (phaseOrder i) = some q) (h : phaseWork i t p = phaseWork i s p) : finish i t = finish i s := by
  rw [finish, finish, hs, ht, phasesFrom_of_phaseAfter hq, List.foldl_cons, List.foldl_cons, h]

/-! ### The loops of a phase -/

theorem loop_of_eq_succ {f : State → State} {m n : Nat} (h : n = m + 1) (s : State) : loop f m (f s) = loop f n s := by
  rw [h]; rfl

theorem loop_of_eq_zero {f : State → State} {n : Nat} (h : n = 0) (s : State) : loop f n s = s := by
  rw [h]; rfl

theorem stride_pos (b : Backend) : 0 < stride b := alignWidth_eq_stride b ▸ alignWidth_pos b

/-- A block less is left after each block (R163, R247). -/
theorem blockCount_of_le {st len k : Nat} (hst : 0 < st) (h : k + st ≤ len) :
    blockCount st len k = blockCount st len (k + st) + 1 := by
  rw [blockCount, blockCount, Nat.div_eq_sub_div hst (by omega), Nat.sub_sub]

theorem blockCount_of_lt {st len k : Nat} (hst : 0 < st) (h : len < k + st) : blockCount st len k = 0 :=
  Nat.div_eq_of_lt (by omega)

/-! ### A bound on the steps to the end -/

/-- The phases before POS is cleared (R183, R201, R244). -/
def Phase.beforeFold : Phase → Bool
  | .validate | .init | .sipInit => true
  | .idle | .prefixFold | .rotl | .main | .rotr | .tail | .mix | .write | .sipWords | .sipLast | .sipFin => false

/-- At most how many phases a command is in from this one on. -/
def Phase.rank : Phase → Nat
  | .idle => 0
  | .write => 1
  | .mix | .sipFin => 2
  | .tail | .sipLast => 3
  | .rotr | .sipWords => 4
  | .main => 5
  | .rotl => 6
  | .prefixFold => 7
  | .init | .sipInit => 8
  | .validate => 9

/-- At most how many steps a running command takes to its end: one for each phase, and one for each input byte POS has not
passed (R130). -/
def budget (s : State) : Nat := s.phase.rank + (s.inLen.toNat - if s.phase.beforeFold then 0 else s.pos.toNat)

theorem budget_le (s : State) : budget s ≤ s.inLen.toNat + 9 := by
  have hrank : s.phase.rank ≤ 9 := by cases s.phase <;> decide
  unfold budget; omega

/-- PHASE falls in rank, and never goes back before the fold. -/
theorem rank_lt_of_phaseAfter {i : Instr} {p q : Phase} (h : phaseAfter p (phaseOrder i) = some q) :
    q.rank < p.rank ∧ (q.beforeFold = true → p.beforeFold = true) := by
  have hfollowers : ∀ q ∈ p.followers, q.rank < p.rank ∧ (q.beforeFold = true → p.beforeFold = true) := by
    cases p <;> decide
  exact hfollowers q (mem_followers_of_phaseAfter h)

/-! ### One step of a running command -/

theorem exists_phaseAfter {i : Instr} {p : Phase} (hm : p ∈ phaseOrder i) (hne : p ≠ .idle) :
    ∃ q, phaseAfter p (phaseOrder i) = some q := by
  revert hm hne
  cases i <;> cases p <;> simp [phaseAfter, phaseOrder]

/-- A step of a running command that does not end it: it leads to the same end, and takes away from the budget. -/
structure Nearer (i : Instr) (s t : State) : Prop where
  finish : finish i t = finish i s
  budget : budget t < budget s

/-- A step to the next phase, after all the work of the present one. -/
theorem nearer_of_phaseAfter {i : Instr} {s u : State} {p q : Phase} (hp : s.phase = p)
    (hq : phaseAfter p (phaseOrder i) = some q) (hw : phaseWork i s p = u) (hl : u.inLen = s.inLen)
    (hpos : p.beforeFold = true ∨ s.pos.toNat ≤ u.pos.toNat) : Nearer i s (u.at q) := by
  subst hp hw
  refine ⟨finish_of_phaseAfter hq, ?_⟩
  obtain ⟨hrank, hback⟩ := rank_lt_of_phaseAfter hq
  have hpassed : (if s.phase.beforeFold then 0 else s.pos.toNat) ≤
      if q.beforeFold then 0 else (phaseWork i s s.phase).pos.toNat := by
    split
    · exact Nat.zero_le _
    · rename_i hs
      rw [if_neg fun hqb => hs (hback hqb)]
      exact hpos.resolve_left hs
  show q.rank + ((phaseWork i s s.phase).inLen.toNat - if q.beforeFold then 0 else (phaseWork i s s.phase).pos.toNat) < _
  rw [hl, budget]
  omega

/-- An iteration of the loop of a phase, after which the phase has the same work left as before it. -/
theorem nearer_of_iteration {i : Instr} {s t : State} {p : Phase} (hp : s.phase = p) (hm : p ∈ phaseOrder i)
    (hfold : p ≠ .idle ∧ p.beforeFold = false) (same : SameOutside s t) (hlt : s.pos.toNat < t.pos.toNat)
    (hle : t.pos.toNat ≤ s.inLen.toNat) (hw : phaseWork i t p = phaseWork i s p) : Nearer i s t := by
  obtain ⟨hne, hafter⟩ := hfold
  obtain ⟨q, hq⟩ := exists_phaseAfter hm hne
  have ht : t.phase = p := same.phase.trans hp
  refine ⟨finish_of_phaseWork_eq hp ht hq hw, ?_⟩
  rw [budget, budget, hp, ht, hafter, same.inLen]
  simp only [Bool.false_eq_true, if_false]
  omega

/-- Every step of a running command that does not end it leads to the same end, and takes away from the budget. -/
theorem EngineMove.nearer {i : Instr} {s t : State} (h : EngineMove i s t) (r : Running i s) (hb : t.busy = true) :
    Nearer i s t := by
  cases h with
  | fail e => rw [complete_busy] at hb; cases hb
  | write => rw [complete_busy] at hb; cases hb
  | validated q hp _ hq => exact nearer_of_phaseAfter hp hq rfl rfl (.inl rfl)
  | init q hp hq => exact nearer_of_phaseAfter hp hq rfl (sameOutside_initPhase i s).inLen (.inl rfl)
  | prefixByte hp hl =>
    have hm := hp ▸ r.phase
    have hlt := (r.facts hp).pos_lt_of_prefixFold hl
    have hpos := byteStepPhase_pos (ne_sipRef_of_mem (.inl hm)) hlt
    refine nearer_of_iteration hp hm (by decide) (sameOutside_byteStepPhase i s) (by omega) (by omega) ?_
    refine loop_of_eq_succ ?_ s
    rw [byteStepPhase_k]; omega
  | prefixDone q hp hl hq =>
    exact nearer_of_phaseAfter hp hq (loop_of_eq_zero (by omega) s) rfl (.inr (Nat.le_refl _))
  | rotl q hp hq => exact nearer_of_phaseAfter hp hq rfl rfl (.inr (Nat.le_refl _))
  | block hp hl =>
    have hm := hp ▸ r.phase
    have hst := stride_pos i.backend
    have hpos := blockPhase_pos (backend_ne_ref_of_mem (.inl hm)) hl
    have same := sameOutside_blockPhase i s
    refine nearer_of_iteration hp hm (by decide) same (by omega) (by omega) ?_
    refine loop_of_eq_succ ?_ s
    rw [same.inLen, hpos]
    exact blockCount_of_le hst hl
  | mainDone q hp hl hq =>
    exact nearer_of_phaseAfter hp hq (loop_of_eq_zero (blockCount_of_lt (stride_pos _) hl) s) rfl (.inr (Nat.le_refl _))
  | rotr q hp hq => exact nearer_of_phaseAfter hp hq rfl rfl (.inr (Nat.le_refl _))
  | tailByte hp hl =>
    have hm := hp ▸ r.phase
    have hpos := byteStepPhase_pos (ne_sipRef_of_mem (.inr (.inl hm))) hl
    have same := sameOutside_byteStepPhase i s
    refine nearer_of_iteration hp hm (by decide) same (by omega) (by omega) ?_
    refine congrArg (serializePhase i) (loop_of_eq_succ ?_ s)
    rw [same.inLen]; omega
  | tailDone q hp hl hq =>
    exact nearer_of_phaseAfter hp hq (congrArg (serializePhase i) (loop_of_eq_zero (by omega) s))
      (sameOutside_serializePhase i s).inLen (.inr (by rw [serializePhase_pos]))
  | mix q hp hq => exact nearer_of_phaseAfter hp hq rfl rfl (.inr (Nat.le_refl _))
  | sipInit q hp hq => exact nearer_of_phaseAfter hp hq rfl rfl (.inl rfl)
  | sipWord hp hl =>
    have hpos : (Machine.sipWord s).pos.toNat = s.pos.toNat + 8 := pos_add_toNat hl
    refine nearer_of_iteration hp (hp ▸ r.phase) (by decide) (sameOutside_sipWord s) (by omega) (by omega) ?_
    refine loop_of_eq_succ ?_ s
    rw [sipWord_inLen, hpos]
    exact blockCount_of_le (by decide) hl
  | sipWordsDone q hp hl hq =>
    exact nearer_of_phaseAfter hp hq (loop_of_eq_zero (blockCount_of_lt (by decide) hl) s) rfl (.inr (Nat.le_refl _))
  | sipLast q hp hq =>
    have hle := (r.facts hp).pos_le (by decide) (by decide) (by decide)
    exact nearer_of_phaseAfter hp hq rfl rfl (.inr hle)
  | sipFin q hp hq => exact nearer_of_phaseAfter hp hq rfl rfl (.inr (Nat.le_refl _))

/-! ### The run to the end -/

theorem exists_advance {i : Instr} {s u : State} (hm : s.phase ∈ phaseOrder i) (hne : s.phase ≠ .idle)
    (hu : u.phase = s.phase) : ∃ t, advance i u = .next t := by
  obtain ⟨q, hq⟩ := exists_phaseAfter hm hne
  exact ⟨_, by rw [advance, hu, hq]⟩

/-- A running command whose operands the Validator passes is never stuck (R130). -/
theorem exists_phaseStep {i : Instr} {s : State} (r : Running i s) (hne : s.phase ≠ .idle)
    (hv : verdict i s = .code .success) : ∃ t, phaseStep i s = .next t := by
  have moves {u : State} (hu : u.phase = s.phase) : ∃ t, advance i u = .next t := exists_advance r.phase hne hu
  unfold phaseStep
  split
  · exact absurd (by assumption) hne
  · simp only [hv]; exact moves rfl
  · exact moves (sameOutside_initPhase i s).phase
  · split
    · exact ⟨_, rfl⟩
    · exact moves rfl
  · exact moves rfl
  · split
    · exact ⟨_, rfl⟩
    · exact moves rfl
  · exact moves rfl
  · split
    · exact ⟨_, rfl⟩
    · exact moves (sameOutside_serializePhase i s).phase
  · exact moves rfl
  · exact ⟨_, rfl⟩
  · exact moves rfl
  · split
    · exact ⟨_, rfl⟩
    · exact moves rfl
  · exact moves rfl
  · exact moves rfl

theorem Undisturbed.of_sameButPhase {i : Instr} {s t : State} (g : Undisturbed i s) (h : SameButPhase s t) :
    Undisturbed i t where
  busy := by rw [State.busy, h.status]; exact g.busy
  pace := h.pace.trans g.pace
  cmd := by rw [h.cmd, g.cmd]

/-- The digest write is the last step. -/
theorem finish_of_write {i : Instr} {s : State} (hp : s.phase = .write) :
    finish i s = complete .success (digestWrite (digestSize i.variant) s) := by
  rw [finish, hp, phasesFrom_of_phaseAfter (phaseAfter_write i)]
  cases i <;> rfl

/-- A running command that the Validator passes, and that the host leaves alone, comes to its end within the budget: by
induction on the budget, which every step before the last takes away from. -/
theorem Running.reaches_finish {i : Instr} {b : Nat} {s : State} (r : Running i s) (g : Undisturbed i s)
    (hne : s.phase ≠ .idle) (hv : verdict i s = .code .success) (hb : budget s ≤ b) :
    ∃ n, n ≤ b ∧ Reaches n s (finish i s) := by
  induction b generalizing s with
  | zero =>
    have hrank : s.phase.rank ≠ 0 := by revert hne; cases s.phase <;> simp [Phase.rank]
    unfold budget at hb
    omega
  | succ b ih =>
    obtain ⟨t, ht⟩ := exists_phaseStep r hne hv
    have hmove := engineMove_of_phaseStep ht
    have hstep : step s = .next t := (g.step_eq s.phase).trans ht
    rcases hmove.outside with ⟨e, he, hverdict, -⟩ | ⟨hp, rfl⟩ | same
    · rw [hv] at hverdict; cases hverdict; exact absurd rfl he
    · refine ⟨1, by omega, ?_⟩
      rw [finish_of_write hp]
      exact .cons hstep (.zero _)
    · have gt := g.of_sameButPhase same
      have facts := hmove.facts r gt.busy
      obtain ⟨hfinish, hbudget⟩ := hmove.nearer r gt.busy
      obtain ⟨n, hn, hrun⟩ := ih (r.of_sameButPhase hv same (hmove.phase_mem r) facts) gt facts.ne_idle
        ((same.verdict_eq i).trans hv) (by omega)
      exact ⟨n + 1, by omega, .cons hstep (hfinish ▸ hrun)⟩

/-- A command that fails validation ends in one step (R127). -/
theorem Undisturbed.reaches_complete {i : Instr} {s : State} {e : ErrorCode} (g : Undisturbed i s)
    (hp : s.phase = .validate) (hv : verdict i s = .code e) (he : e ≠ .success) : Reaches 1 s (complete e s) := by
  refine .cons ((g.step_eq s.phase).trans ?_) (.zero _)
  show phaseStep i s = _
  cases e with
  | success => exact absurd rfl he
  | invalidParameter | outputTooSmall | rangesOverlap | keyTooSmall => simp only [phaseStep, hp, hv]

/-! ### The end is that of the big step -/

/-- A spliced command comes out of PREFIX with POS at K (R161). -/
theorem pos_eq_k_after_prefix {i : Instr} (hi : i.backend ≠ .ref) {s : State} (g : Undisturbed i s) :
    (phaseWork i (initPhase i s) .prefixFold).pos.toNat = (phaseWork i (initPhase i s) .prefixFold).k.toNat := by
  have hs : i ≠ .sipRef := by rintro rfl; exact hi rfl
  have hzero : (initPhase i s).pos.toNat = 0 := by rw [initPhase_pos hs]; rfl
  have hk : (initPhase i s).k.toNat ≤ (initPhase i s).inLen.toNat := by
    rw [initPhase_k hi]; exact prefixLength_le _ _ _
  obtain ⟨-, hpos, hkept⟩ := reaches_prefix hs ((initPhase i s).k.toNat - (initPhase i s).pos.toNat) (initPhase i s)
    (g.of_same (sameOutside_initPhase i s)) (by omega) hk
  rw [phaseWork, hpos, hkept]

/-- With POS at K, all the blocks of the main loop are left (R163). -/
theorem phaseWork_main_eq {i : Instr} {s : State} (h : s.pos.toNat = s.k.toNat) :
    phaseWork i s .main = mainLoop i.backend (blockPhase i) s := by
  rw [phaseWork, mainLoop, h]

/-- A spliced command whose phases before MAIN leave POS at K runs the main loop of the big step (R163). -/
theorem finish_through_main {i : Instr} {s : State} {front back : List Phase}
    (hs : phasesFrom i s.phase = front ++ .main :: back)
    (hpos : (front.foldl (phaseWork i) s).pos.toNat = (front.foldl (phaseWork i) s).k.toNat) : finish i s =
      complete .success (back.foldl (phaseWork i) (mainLoop i.backend (blockPhase i) (front.foldl (phaseWork i) s))) := by
  rw [finish, hs, List.foldl_append, List.foldl_cons, phaseWork_main_eq hpos]

/-- The phases of a command, one after the other, make up its body and the digest write (R125, R126). -/
theorem finish_issueLegal {i : Instr} {s : State} (g : Undisturbed i (issueLegal i s)) :
    finish i (issueLegal i s) = completed i s := by
  have hpos (hi : i.backend ≠ .ref) := pos_eq_k_after_prefix hi g
  have through := @finish_through_main i (issueLegal i s)
  cases i with
  | m32Ref | m32kRef | m128Ref | sipRef => rfl
  | m32Opt | m32kOpt => exact (through (front := [.validate, .init, .prefixFold]) rfl (hpos (by decide))).trans rfl
  | m128Opt | m128Vn | m128Va | m128Vb =>
    exact (through (front := [.validate, .init, .prefixFold, .rotl]) rfl (hpos (by decide))).trans rfl

/-- Settles O47: a failed validation is one step, and from an accepted issue the phases come to the end of the big step. -/
theorem phasedRunReachesTheBigStep : Obligations.PhasedRunReachesTheBigStep := by
  unfold Obligations.PhasedRunReachesTheBigStep
  intro i s t hpace hd hp ht
  have g : Undisturbed i (issueLegal i s) := ⟨issueLegal_busy i s, hpace, hd⟩
  rcases (exec_eq_next_iff hp t).1 ht with ⟨e, he, hv, rfl⟩ | ⟨hv, rfl⟩
  · exact ⟨1, by omega, g.reaches_complete rfl hv he⟩
  · obtain ⟨n, hn, hrun⟩ := (running_issueLegal hp).reaches_finish g (by rw [issueLegal_phase]; decide) hv
      (budget_le (issueLegal i s))
    rw [issueLegal_inLen] at hn
    exact ⟨n, by omega, finish_issueLegal g ▸ hrun⟩

/-- A range past the top is refused in VALIDATE (R152). -/
theorem Undisturbed.run_refused {i : Instr} {s : State} (g : Undisturbed i s) (hp : s.phase = .validate)
    (hv : verdict i s = .pastTop) : Sys2Proof.core.run 1 s = .refused .rangePastTop := by
  have hstep : step s = .refused .rangePastTop := (g.step_eq s.phase).trans (by
    show phaseStep i s = _
    simp only [phaseStep, hp, hv])
  have run_one (M : Host.Core) (s : M.State) (r : M.Refusal) (h : M.step s = .refused r) : M.run 1 s = .refused r := by
    rw [Host.Core.run, h]
  exact run_one core s _ hstep

/-- Settles O48: in VALIDATE the verdict decides; a command that it passes, there or earlier, comes to its end. -/
theorem runningCommandCompletes : Obligations.RunningCommandCompletes := by
  unfold Obligations.RunningCommandCompletes
  intro s hs hb hpace
  obtain ⟨i, hd, r⟩ := hs.running hb
  have g : Undisturbed i s := ⟨hb, hpace, hd⟩
  have hne : s.phase ≠ .idle := fun hp => by rw [hs.idle.1 hp] at hb; cases hb
  by_cases hv : verdict i s = .code .success
  · obtain ⟨n, hn, hrun⟩ := r.reaches_finish g hne hv (budget_le s)
    exact ⟨n, by omega, .inl ⟨_, hrun, complete_busy _ _, complete_done _ _⟩⟩
  · have hp : s.phase = .validate := by_contra fun hp => hv (r.validated hp)
    refine ⟨1, by omega, ?_⟩
    cases hverdict : verdict i s with
    | pastTop => exact .inr (g.run_refused hp hverdict)
    | code e =>
      have he : e ≠ .success := fun he => hv (he ▸ hverdict)
      exact .inl ⟨_, g.reaches_complete hp hverdict he, complete_busy _ _, complete_done _ _⟩

end Sys2Proof.Machine
end

section
/-! SUPPORT. The Validator (41_validator.md): its checks as one chain of conditions, what a command that fails one leaves, and
what an unkeyed command does not look at. -/

namespace Sys2Proof.Machine

/-! ### Overlap -/

theorem overlap_eq_true_iff_shareByte (a la b lb : Nat) : overlap a la b lb = true ↔ shareByte a la b lb := by
  rw [overlap_eq_true_iff, shareByte_iff_lt]

/-- Settles O14: on non-empty ranges both tests say that each range starts at or before the other's last byte. -/
theorem overlapTestFindsSharedByte : Obligations.OverlapTestFindsSharedByte := by
  unfold Obligations.OverlapTestFindsSharedByte
  intro a la b lb
  refine ⟨overlap_eq_true_iff_shareByte a la b lb, fun ha hb => ?_, fun htouch => ?_⟩
  · rw [overlap_eq_true_iff]
    omega
  · rw [Bool.eq_false_iff, ne_eq, overlap_eq_true_iff]
    omega

/-! ### The order of the checks -/

/-- The Validator with one condition for each check (R150, R152): those of one code taken together. -/
theorem validate_eq_checks (aw d : Nat) (key : Bool) (ia il ka kl oa oc : Nat) :
    validate aw d key ia il ka kl oa oc =
      if ia = 0 ∨ oa = 0 ∨ key = true ∧ ka = 0 then .code .invalidParameter
      else if oc < d then .code .outputTooSmall
      else if key = true ∧ kl < 16 then .code .keyTooSmall
      else if passesTop aw ia il = true ∨ passesTop aw oa oc = true ∨ key = true ∧ passesTop aw ka kl = true then .pastTop
      else if overlap ia il oa oc = true ∨ key = true ∧ overlap ia il ka kl = true ∨ key = true ∧ overlap oa oc ka kl = true
        then .code .rangesOverlap
      else .code .success := by
  simp only [validate, ite_or, Bool.or_eq_true, Bool.and_eq_true, decide_eq_true_eq]
  rfl

/-- No range that is used passes the top (R152). -/
theorem not_passesTop_iff (aw ia il oa oc ka kl : Nat) (key : Bool) :
    ¬ (passesTop aw ia il = true ∨ passesTop aw oa oc = true ∨ key = true ∧ passesTop aw ka kl = true) ↔
      insideTop aw ia il ∧ insideTop aw oa oc ∧ (key = true → insideTop aw ka kl) := by
  simp only [not_or, not_and, Bool.not_eq_true, passesTop_eq_false_iff]

/-- Settles O13, down the chain of conditions. -/
theorem validatorReportsFirstFailingCheck : Obligations.ValidatorReportsFirstFailingCheck := by
  unfold Obligations.ValidatorReportsFirstFailingCheck
  intro aw d key ia il ka kl oa oc
  simp only [validate_eq_checks, ← overlap_eq_true_iff_shareByte, ← not_passesTop_iff]
  refine ⟨fun hnull => if_pos hnull, fun hnull hsmall => ?_, fun hnull hsmall hshort => ?_,
    fun hnull hsmall hshort hpast => ?_, fun hnull hsmall hshort hin hshared => ?_, fun hnull hsmall hshort hin hshared => ?_⟩
  · rw [if_neg hnull, if_pos hsmall]
  · rw [if_neg hnull, if_neg hsmall, if_pos hshort]
  · rw [if_neg hnull, if_neg hsmall, if_neg hshort, if_pos (not_not.1 hpast)]
  · rw [if_neg hnull, if_neg hsmall, if_neg hshort, if_neg hin, if_pos hshared]
  · rw [if_neg hnull, if_neg hsmall, if_neg hshort, if_neg hin, if_neg hshared]

/-! ### A command that fails validation -/

/-- How a command that fails validation ends (R127, R274). -/
theorem complete_issueLegal_ended (e : ErrorCode) (i : Instr) (s : State) : Ended e (complete e (issueLegal i s)) where
  err := rfl
  busy := complete_busy _ _
  done := complete_done _ _
  ill := (complete_ill _ _).trans (issueLegal_ill i s)
  phase := rfl

/-- Settles O16: such a command is issued and completed, with nothing between. -/
theorem failedCommandChangesStatusAndErrOnly : Obligations.FailedCommandChangesStatusAndErrOnly := by
  unfold Obligations.FailedCommandChangesStatusAndErrOnly
  intro i s e hp hv he
  have hawaited : (complete e (issueLegal i s)).awaited = s.awaited := if_neg (by simp [hv, he])
  refine ⟨complete e (issueLegal i s), exec_of_error hp hv he, complete_issueLegal_ended e i s, rfl, rfl, ?_, ?_, ?_, hawaited⟩ <;>
    constructor <;> rfl

/-! ### A range past the top -/

/-- Checks 1 to 3 of the Validator on a command's operands (R141 to R143). -/
def PassesFirstChecks (i : Instr) (s : State) : Prop :=
  s.inAddr ≠ 0 ∧ s.outAddr ≠ 0 ∧ (keyed i.variant = true → s.keyAddr ≠ 0) ∧
    digestSize i.variant ≤ s.outCap.toNat ∧ (keyed i.variant = true → 16 ≤ s.keyLen.toNat)

/-- The Validator reaches the precondition of check 4 exactly when checks 1 to 3 pass (R152, R154). -/
theorem passesFirstChecks_iff (i : Instr) (s : State) : PassesFirstChecks i s ↔
    ¬ (s.inAddr.toNat = 0 ∨ s.outAddr.toNat = 0 ∨ keyed i.variant = true ∧ s.keyAddr.toNat = 0) ∧
      ¬ s.outCap.toNat < digestSize i.variant ∧ ¬ (keyed i.variant = true ∧ s.keyLen.toNat < 16) := by
  simp only [PassesFirstChecks, toNat_eq_zero_iff, not_or, not_and, not_lt, ne_eq, and_assoc]

theorem verdict_of_rangePastTop {i : Instr} {s : State} (h : PassesFirstChecks i s)
    (htop : ¬ (insideTop s.hw.aw.bits s.inAddr.toNat s.inLen.toNat ∧
      insideTop s.hw.aw.bits s.outAddr.toNat s.outCap.toNat ∧
      (keyed i.variant = true → insideTop s.hw.aw.bits s.keyAddr.toNat s.keyLen.toNat))) :
    verdict i s = .pastTop := by
  obtain ⟨hnull, hsmall, hshort⟩ := (passesFirstChecks_iff i s).1 h
  obtain ⟨-, -, -, hpast, -⟩ := validatorReportsFirstFailingCheck s.hw.aw.bits (digestSize i.variant) (keyed i.variant)
    s.inAddr.toNat s.inLen.toNat s.keyAddr.toNat s.keyLen.toNat s.outAddr.toNat s.outCap.toNat
  exact hpast hnull hsmall hshort htop

theorem verdict_of_not_passesFirstChecks {i : Instr} {s : State} (h : ¬ PassesFirstChecks i s) :
    ∃ e, e ≠ .success ∧ verdict i s = .code e := by
  obtain ⟨hone, htwo, hthree, -⟩ := validatorReportsFirstFailingCheck s.hw.aw.bits (digestSize i.variant)
    (keyed i.variant) s.inAddr.toNat s.inLen.toNat s.keyAddr.toNat s.keyLen.toNat s.outAddr.toNat s.outCap.toNat
  by_contra hcode
  have hnull := fun c => hcode ⟨.invalidParameter, by decide, hone c⟩
  have hsmall := fun c => hcode ⟨.outputTooSmall, by decide, htwo hnull c⟩
  have hshort := fun c => hcode ⟨.keyTooSmall, by decide, hthree hnull hsmall c⟩
  exact h ((passesFirstChecks_iff i s).2 ⟨hnull, hsmall, hshort⟩)

/-- Settles O17: checks 1 to 3 decide whether the ranges are asked about at all. -/
theorem rangePastTheTopIsRefused : Obligations.RangePastTheTopIsRefused := by
  unfold Obligations.RangePastTheTopIsRefused
  intro i s hp passes123 pastTop
  constructor
  · intro hpass hpast
    refine exec_of_pastTop hp (verdict_of_rangePastTop hpass ?_)
    rintro ⟨hin, hout, hkey⟩
    rcases hpast with h | h | ⟨hk, h⟩
    · exact h hin
    · exact h hout
    · exact h (hkey hk)
  · intro hfail
    obtain ⟨e, he, hv⟩ := verdict_of_not_passesFirstChecks hfail
    exact ⟨complete e (issueLegal i s), exec_of_error hp hv he, complete_done _ _, ErrorCode.word_ne_zero he⟩

/-! ### An unkeyed command and the key operands -/

/-- A state with other values in KEY_ADDR and KEY_LEN (R28, R29). -/
def State.withKey (s : State) (ka kl : Word64) : State := { s with keyAddr := ka, keyLen := kl }

section
variable {i : Instr} (h : i.variant = .m32) (s : State) (ka kl : Word64)
include h

theorem backendPresent_of_m32 (hw : Params) : backendPresent hw i.backend = true := by
  cases i with
  | m32Ref | m32Opt => rfl
  | m32kRef | m32kOpt | m128Ref | m128Opt | m128Vn | m128Va | m128Vb | sipRef => cases h

theorem verdict_withKey_of_m32 : verdict i (s.withKey ka kl) = verdict i s := by
  simp [verdict, validate_eq_checks, h, keyed, State.withKey]

theorem issueLegal_withKey_of_m32 : issueLegal i (s.withKey ka kl) = (issueLegal i s).withKey ka kl := by
  have hf : footprint i (s.withKey ka kl) = footprint i s := by
    simp [footprint, h, keyed, State.withKey]
  rw [issueLegal, verdict_withKey_of_m32 h, hf]
  rfl

theorem commandBody_withKey_of_m32 : commandBody i (s.withKey ka kl) = (commandBody i s).withKey ka kl := by
  cases i with
  | m32Ref => simp only [commandBody, mult32Ref_eq]; rfl
  | m32Opt => simp only [commandBody, mult32Opt_eq]; rfl
  | m32kRef | m32kOpt | m128Ref | m128Opt | m128Vn | m128Va | m128Vb | sipRef => cases h

theorem completed_withKey_of_m32 : completed i (s.withKey ka kl) = (completed i s).withKey ka kl := by
  rw [completed, issueLegal_withKey_of_m32 h, commandBody_withKey_of_m32 h]
  rfl

end

/-- Settles O15: the Validator, the body and the footprint of an unkeyed command do not look at the key operands. -/
theorem unkeyedCommandIgnoresKeyOperands : Obligations.UnkeyedCommandIgnoresKeyOperands := by
  unfold Obligations.UnkeyedCommandIgnoresKeyOperands
  intro i s ka kl h
  show (∀ t, exec i s = .next t → exec i (s.withKey ka kl) = .next (t.withKey ka kl)) ∧
    ∀ r, exec i s = .refused r → exec i (s.withKey ka kl) = .refused r
  have hp := backendPresent_of_m32 h
  have hverdict := verdict_withKey_of_m32 h s ka kl
  constructor
  · intro t ht
    rcases (exec_eq_next_iff (hp _) t).1 ht with ⟨e, he, hv, rfl⟩ | ⟨hv, rfl⟩
    · rw [exec_of_error (hp _) (hverdict.trans hv) he, issueLegal_withKey_of_m32 h]
      rfl
    · rw [← completed_withKey_of_m32 h]
      exact exec_of_success (hp _) (hverdict.trans hv)
  · intro r
    rw [exec_eq_refused_iff (hp _), exec_eq_refused_iff (hp _), hverdict]
    exact id

end Sys2Proof.Machine
end

section
/-! SUPPORT. The Alignment Splicer (42_splicer.md): which addresses the prefix passes and where it ends, and the two lane
rotations. -/

namespace Sys2Proof.Machine

/-! ### The prefix -/

theorem gap_eq_zero {w a : Nat} (h : a % w = 0) : gap w a = 0 := by
  rw [gap, h, Nat.sub_zero, Nat.mod_self]

theorem gap_le (w a : Nat) : gap w a ≤ w - a % w := Nat.mod_le _ _

/-- No address before the end of the gap is a multiple of W (R160). -/
theorem mod_ne_zero_of_lt_gap {w a j : Nat} (h : j < gap w a) : (a + j) % w ≠ 0 := by
  have hle := gap_le w a
  have hunaligned : a % w ≠ 0 := fun ha => by
    rw [gap_eq_zero ha] at h
    exact Nat.not_lt_zero j h
  rw [← Nat.mod_add_mod, Nat.mod_eq_of_lt (by omega)]
  omega

/-- Settles O38: the prefix ends at the aligned address or with the input, and it is no longer than the gap. -/
theorem prefixReachesTheNextAlignedAddress : Obligations.PrefixReachesTheNextAlignedAddress := by
  unfold Obligations.PrefixReachesTheNextAlignedAddress
  intro b s w a n k
  have hk : k = prefixLength w a n := loadK_k_toNat b s
  have hlt : k < w := hk ▸ prefixLength_lt w a n (alignWidth_pos b)
  have hw : w ≤ 16 := alignWidth_le b
  refine ⟨hk, by omega, by omega, fun hkn => ?_, fun j hj => ?_, rfl⟩
  · rw [hk] at hkn ⊢
    exact (aligned_or_eq_length w a n (alignWidth_pos b)).resolve_right hkn.ne
  · have hgap : k ≤ gap w a := hk ▸ Nat.min_le_left _ _
    exact mod_ne_zero_of_lt_gap (hj.trans_le hgap)

/-! ### The rotations -/

theorem get_rotateLeft (s : State) (i : Fin 4) :
    (rotateLeft s).lanes.get i = s.lanes.get (i + (rotateLeft s).rot) :=
  Quad.get_rotl s.lanes _ i

theorem get_rotateRight (s : State) (i : Fin 4) : (rotateRight s).lanes.get i = s.lanes.get (i - s.rot) :=
  Quad.get_rotr s.lanes _ i

/-- The right rotation undoes the left one; ROT stays as the left one wrote it (R162, R164). -/
theorem rotateRight_rotateLeft (s : State) : rotateRight (rotateLeft s) = { s with rot := (rotateLeft s).rot } := by
  have hlanes : (rotateRight (rotateLeft s)).lanes = s.lanes := Quad.rotr_rotl s.lanes _
  calc rotateRight (rotateLeft s)
      = { s with rot := (rotateLeft s).rot, lanes := (rotateRight (rotateLeft s)).lanes } := rfl
    _ = { s with rot := (rotateLeft s).rot } := by rw [hlanes]

/-- Settles O37: register `j - ROT` takes what the left rotation reads at `(j - ROT) + ROT`. -/
theorem rotationsPermuteLanesAndCancel : Obligations.RotationsPermuteLanesAndCancel := by
  unfold Obligations.RotationsPermuteLanesAndCancel
  intro s
  refine ⟨rfl, get_rotateLeft s, fun j => ?_, rfl, get_rotateRight s, rfl, rotateRight_rotateLeft s⟩
  rw [get_rotateLeft, sub_add_cancel]

end Sys2Proof.Machine
end

section
/-! SUPPORT. The digests of the multiplicative commands (43_mult32.md, 45_keyed_mixer.md): the accumulator after completion,
and each output byte of a completed command, read off the digest of its variant. -/

namespace Sys2Proof.Machine

/-! ### The accumulator -/

/-- ACC keeps the final accumulator when the command completes (R189; log 15). -/
theorem completed_acc_of_m32 {i : Instr} (h : i.variant = .m32 ∨ i.variant = .m32k) (s : State) :
    (completed i s).lanes.e0 = closedForm (inputBytes s) :=
  congrArg Quad.e0 (commandBody_lanes_of_m32 h (issueLegal i s))

theorem inputBytes_of_inLen_zero {s : State} (h : s.inLen = 0) : inputBytes s = [] := by
  rw [inputBytes, h]; rfl

theorem closedForm_nil : closedForm [] = 5381 := by decide

/-- Settles O24: nothing after the body of a 32-bit command writes ACC. -/
theorem finalAccumulatorHasClosedForm : Obligations.FinalAccumulatorHasClosedForm := by
  unfold Obligations.FinalAccumulatorHasClosedForm
  intro i s hv h
  have hacc := completed_acc_of_m32 hv s
  refine ⟨completed i s, exec_of_accepted h, completed_ended i s, hacc, fun h0 => ?_⟩
  rw [hacc, inputBytes_of_inLen_zero h0, closedForm_nil]

/-! ### The bytes of a digest -/

section
variable {j : Nat}

theorem getElem?_lowBytes {k n : Nat} (v : BitVec k) (hj : j < n) : (lowBytes v n)[j]? = some (byteOf v j) := by
  simp [lowBytes, hj]

theorem getElem?_keyBytes (s : State) {n : Nat} (hj : j < n) :
    (keyBytes s n)[j]? = some (Memory.read s.mem (s.keyAddr.toNat + j)) := by
  rw [keyBytes, List.getElem?_eq_getElem (by simpa using hj), Memory.getElem_bytes]

theorem getElem?_xorBytes {bs cs : List Byte} {b c : Byte} (hb : bs[j]? = some b) (hc : cs[j]? = some c) :
    (xorBytes bs cs)[j]? = some (b ^^^ c) := by
  simp [xorBytes, List.getElem?_zipWith, hb, hc]

/-- Lane l stands at offset 4l (R210). -/
theorem getElem?_laneBytes (q : Quad) (l : Fin 4) (hj : j < 4) :
    (laneBytes q)[4 * l.val + j]? = some (byteOf (q.get l) j) := by
  have hlane : Fin.ofNat 4 ((4 * l.val + j) / 4) = l := by ext; simp; omega
  have hoff : (4 * l.val + j) % 4 = j := by omega
  rw [← lowBytes_joined, getElem?_lowBytes _ (by omega), byteOf_joined _ _ (by omega), hlane, hoff]

theorem get_closedLanes (bs : List Byte) : ∀ l : Fin 4, (closedLanes bs).get l = closedForm (everyFourth l.val bs)
  | 0 | 1 | 2 | 3 => rfl

/-! ### The bytes a completed command leaves -/

variable {i : Instr} {s : State} (hm : Memory.wf s.mem)
include hm

/-- Output byte j is byte j of the digest (R233). -/
theorem read_completed {b : Byte} (hj : j < digestSize i.variant) (hb : (digestBytes i s)[j]? = some b) :
    Memory.read (completed i s).mem (s.outAddr.toNat + j) = b := by
  rw [← completed_bytes i s hm, List.getElem?_eq_getElem (by simpa using hj), Memory.getElem_bytes] at hb
  exact Option.some.inj hb

theorem read_completed_of_m32 (hv : i.variant = .m32) (hj : j < 4) :
    Memory.read (completed i s).mem (s.outAddr.toNat + j) = byteOf (closedForm (inputBytes s)) j := by
  refine read_completed hm (by rw [hv]; exact hj) ?_
  rw [digestBytes, hv]
  exact getElem?_lowBytes _ hj

theorem read_completed_of_m32k (hv : i.variant = .m32k) (hj : j < 4) :
    Memory.read (completed i s).mem (s.outAddr.toNat + j) =
      byteOf (closedForm (inputBytes s)) j ^^^ Memory.read s.mem (s.keyAddr.toNat + j) := by
  refine read_completed hm (by rw [hv]; exact hj) ?_
  rw [digestBytes, hv]
  exact getElem?_xorBytes (getElem?_lowBytes _ hj) (getElem?_keyBytes s hj)

theorem read_completed_of_m128 (hv : i.variant = .m128) (l : Fin 4) (hj : j < 4) :
    Memory.read (completed i s).mem (s.outAddr.toNat + 4 * l.val + j) =
      byteOf (closedForm (everyFourth l.val (inputBytes s))) j ^^^ Memory.read s.mem (s.keyAddr.toNat + 4 * l.val + j) := by
  have hoff : 4 * l.val + j < 16 := by omega
  rw [Nat.add_assoc, Nat.add_assoc, ← get_closedLanes]
  refine read_completed hm (by rw [hv]; exact hoff) ?_
  rw [digestBytes, hv]
  exact getElem?_xorBytes (getElem?_laneBytes _ l hj) (getElem?_keyBytes s hoff)

end

/-- Settles O26: both commands write the digest of the variant M32, which has no key in it. -/
theorem unkeyedCommandsWriteTheAccumulator : Obligations.UnkeyedCommandsWriteTheAccumulator := by
  unfold Obligations.UnkeyedCommandsWriteTheAccumulator
  intro i s hi hm h
  have hv : i.variant = .m32 := by rcases hi with rfl | rfl <;> rfl
  exact ⟨completed i s, exec_of_accepted h, completed_ended i s, fun j hj => read_completed_of_m32 hm hv hj⟩

/-- Settles O27: the two families of commands are the variants M32K and M128, and each writes the digest of its variant. -/
theorem keyedCommandsMixKeyIntoDigest : Obligations.KeyedCommandsMixKeyIntoDigest := by
  unfold Obligations.KeyedCommandsMixKeyIntoDigest
  intro i s hm h
  constructor
  · intro hi
    have hv : i.variant = .m32k := by rcases hi with rfl | rfl <;> rfl
    exact ⟨completed i s, exec_of_accepted h, completed_ended i s, fun j hj => read_completed_of_m32k hm hv hj⟩
  · intro hi
    have hv : i.variant = .m128 := by rcases hi with rfl | rfl | rfl | rfl | rfl <;> rfl
    exact ⟨completed i s, exec_of_accepted h, completed_ended i s, fun l j hj => read_completed_of_m128 hm hv l hj⟩

end Sys2Proof.Machine
end

section
/-! SUPPORT. The 128-bit interleaved commands (44_mult128.md): the vector step lane by lane and on the two views, the byte
permute, the block functions on loaded blocks, and the lanes after completion. -/

namespace Sys2Proof.Machine

/-! ### The vector step -/

theorem get_vecStep (q g : Quad) : ∀ l : Fin 4, (vecStep q g).get l = q.get l * multiplier + g.get l
  | 0 | 1 | 2 | 3 => rfl

theorem toNat_mul_multiplier_add (s g : Word32) :
    (s * multiplier + g).toNat = (s.toNat * 33 + g.toNat) % 2 ^ 32 := by
  rw [BitVec.toNat_add, BitVec.toNat_mul, Nat.mod_add_mod]; rfl

/-- The two-lane step of the narrow vector backend does not carry from the low lane into the high one (R209). -/
theorem vecStep2_append (s1 s0 g1 g0 : Word32) :
    vecStep2 (s1 ++ s0) (g1 ++ g0) = (s1 * multiplier + g1) ++ (s0 * multiplier + g0) := by
  simp only [vecStep2, dwordOf_append_one, dwordOf_append_zero]

/-- Settles O35: each view is two lanes side by side, so the two-lane step on it is `vecStep2_append`. -/
theorem vectorStepActsLaneByLane : Obligations.VectorStepActsLaneByLane := by
  unfold Obligations.VectorStepActsLaneByLane
  intro q g l
  refine ⟨?_, vecStepShift_eq q g, vecStep2_append q.e1 q.e0 g.e1 g.e0, vecStep2_append q.e3 q.e2 g.e3 g.e2⟩
  rw [get_vecStep, toNat_mul_multiplier_add]

/-! ### The byte permute -/

/-- PERM transposes the four by four bytes of a block (R208). -/
theorem getElem?_perm : ∀ i < 4, ∀ t < 4, perm[4 * i + t]? = some (4 * t + i) := by decide

/-- Settles O36: result byte j is source byte PERM[j], and PERM transposes. -/
theorem permuteMakesLaneBytesContiguous : Obligations.PermuteMakesLaneBytesContiguous := by
  unfold Obligations.PermuteMakesLaneBytesContiguous
  intro x i t hi ht
  obtain ⟨hlen, hperm⟩ := List.getElem?_eq_some_iff.1 (getElem?_perm i hi t ht)
  rw [byteOf_permute x _ hlen, hperm]

/-! ### The block functions -/

/-- Settles O34: each block function folds the bytes of its block, and those of a loaded block are the bytes in memory. -/
theorem blockFunctionsFoldByteByByte : Obligations.BlockFunctionsFoldByteByByte := by
  unfold Obligations.BlockFunctionsFoldByteByByte
  intro q m a
  have h8 : blockBytes (BitVec.ofNat 64 (Memory.readLE m a 8)) 8 = Memory.bytes m a 8 := blockBytes_load m a 8 (by decide)
  have h16 : blockBytes (BitVec.ofNat 128 (Memory.readLE m a 16)) 16 = Memory.bytes m a 16 :=
    blockBytes_load m a 16 (by decide)
  exact ⟨by rw [foldVn_eq, h8], by rw [foldVa_eq, h16], by rw [foldVb_eq, h16]⟩

/-! ### The final lanes -/

/-- The lane registers keep the final lanes when the command completes (R217; log 15). -/
theorem completed_lanes_of_m128 {i : Instr} (h : i.variant = .m128) (s : State) :
    (completed i s).lanes = closedLanes (inputBytes s) :=
  commandBody_lanes_of_m128 h (issueLegal i s)

theorem closedLanes_nil : closedLanes [] = ⟨5381, 5381, 5381, 5381⟩ := by
  simp only [closedLanes, everyFourth, closedForm_nil]

/-- Settles O25: nothing after the body of a 128-bit command writes a lane register. -/
theorem finalLanesHaveClosedForm : Obligations.FinalLanesHaveClosedForm := by
  unfold Obligations.FinalLanesHaveClosedForm
  intro i s hv h
  have hlanes := completed_lanes_of_m128 hv s
  refine ⟨completed i s, exec_of_accepted h, completed_ended i s, fun l => ?_, fun h0 => ?_⟩
  · rw [hlanes]
    exact get_closedLanes (inputBytes s) l
  · rw [hlanes, inputBytes_of_inLen_zero h0, closedLanes_nil]

end Sys2Proof.Machine
end

section
/-! SUPPORT. The keyed mixer and the digest write (45_keyed_mixer.md): each byte by byte with its frame, and what the key does
to a digest. -/

namespace Sys2Proof.Machine

/-! ### The mixer -/

/-- From n bytes up a word that holds the number of n bytes is 0. -/
theorem byteOf_ofNat_numberOfBytes_of_le {k j : Nat} (bs : List Byte) (h : bs.length ≤ j) :
    byteOf (BitVec.ofNat k (numberOfBytes bs)) j = 0#8 := by
  have hlt : (BitVec.ofNat k (numberOfBytes bs)).toNat < 256 ^ j :=
    calc (BitVec.ofNat k (numberOfBytes bs)).toNat
      _ ≤ numberOfBytes bs := by rw [BitVec.toNat_ofNat]; exact Nat.mod_le _ _
      _ < 256 ^ bs.length := numberOfBytes_lt bs
      _ ≤ 256 ^ j := Nat.pow_le_pow_right (by decide) h
  rw [byteOf_eq_ofNat, Nat.div_eq_of_lt hlt]

/-- The mixer on a digest byte below D (R230). -/
theorem byteOf_mix {d j : Nat} (s : State) (hd : d ≤ 16) (hj : j < d) :
    byteOf (mix d s).dg j = byteOf s.dg j ^^^ Memory.read s.mem (s.keyAddr.toNat + j) := by
  rw [mix_dg, byteOf_xor, byteOf_load _ _ _ _ hj (by omega)]

/-- The mixer leaves the bytes of DG from D up: the key word has no byte there. -/
theorem byteOf_mix_of_le {d j : Nat} (s : State) (hj : d ≤ j) : byteOf (mix d s).dg j = byteOf s.dg j := by
  have hkey : byteOf (BitVec.ofNat 128 (Memory.readLE s.mem s.keyAddr.toNat d)) j = 0#8 := by
    rw [Memory.readLE_eq]
    exact byteOf_ofNat_numberOfBytes_of_le _ (by simpa using hj)
  rw [mix_dg, byteOf_xor, hkey, BitVec.xor_zero]

/-- Settles O41: the exclusive-or of the words acts byte by byte, and the key word is 0 from byte D up. -/
theorem mixerXorsDigestBytesWithKeyBytes : Obligations.MixerXorsDigestBytesWithKeyBytes := by
  unfold Obligations.MixerXorsDigestBytesWithKeyBytes
  intro s d hd
  have hd : d ≤ 16 := by omega
  exact ⟨fun j hj => byteOf_mix s hd hj, fun j hj => byteOf_mix_of_le s hj, rfl⟩

/-! ### The digest write -/

/-- Settles O42: the digest write is one `MemWrite` of DG at OUT_ADDR. -/
theorem digestWriteStoresExactlyDBytes : Obligations.DigestWriteStoresExactlyDBytes := by
  unfold Obligations.DigestWriteStoresExactlyDBytes
  intro s d hm
  constructor
  · intro j hj
    rw [digestWrite_mem, Memory.read_writeLE hm _ hj, byteOf_eq_ofNat]
  · intro x hx
    rw [digestWrite_mem, Memory.read_writeLE_of_outside _ _ hx]

/-! ### Digests under two keys -/

@[simp] theorem keyBytes_length (s : State) (n : Nat) : (keyBytes s n).length = n := Memory.bytes_length ..

@[simp] theorem laneBytes_length (q : Quad) : (laneBytes q).length = 16 := by simp [laneBytes]

/-- Mixing the same bytes in twice gives back what was there. -/
theorem xorBytes_xorBytes (bs cs : List Byte) (h : cs.length = bs.length) : xorBytes bs (xorBytes bs cs) = cs := by
  induction bs generalizing cs with
  | nil => exact (List.eq_nil_of_length_eq_zero h).symm
  | cons b bs ih =>
    cases cs with
    | nil => rfl
    | cons c cs =>
      have hbyte : b ^^^ (b ^^^ c) = c := by rw [← BitVec.xor_assoc, BitVec.xor_self, BitVec.zero_xor]
      exact congrArg₂ List.cons hbyte (ih cs (by simpa using h))

theorem xorBytes_left_cancel {bs cs ds : List Byte} (hc : cs.length = bs.length) (hd : ds.length = bs.length)
    (h : xorBytes bs cs = xorBytes bs ds) : cs = ds := by
  rw [← xorBytes_xorBytes bs cs hc, h, xorBytes_xorBytes bs ds hd]

/-- The digest of a keyed multiplicative command over one input determines the key bytes mixed into it (R235). -/
theorem keyBytes_eq_of_digestBytes_eq {i : Instr} {s u : State} (hv : i.variant = .m32k ∨ i.variant = .m128)
    (hin : inputBytes u = inputBytes s) (h : digestBytes i u = digestBytes i s) :
    keyBytes u (digestSize i.variant) = keyBytes s (digestSize i.variant) := by
  rcases hv with hv | hv
  all_goals
    simp only [digestBytes, hv, hin] at h
    rw [hv]
    exact xorBytes_left_cancel (by simp [digestSize]) (by simp [digestSize]) h

theorem KeepsOperands.accepted {s u : State} (h : KeepsOperands s u) {i : Instr} (hs : Accepted i s) : Accepted i u := by
  rw [accepted_iff] at hs ⊢
  rwa [h.hw, h.verdict_eq i]

/-- Settles O33: both commands complete, and equal digests of one input would mean equal key bytes. -/
theorem differentKeysGiveDifferentDigests : Obligations.DifferentKeysGiveDifferentDigests := by
  unfold Obligations.DifferentKeysGiveDifferentDigests
  intro i s u hv hms hmu hops hs hin hkey
  refine ⟨completed i s, completed i u, exec_of_accepted hs, exec_of_accepted (hops.accepted hs), fun h => hkey ?_⟩
  rw [completed_bytes i s hms, ← hops.outAddr, completed_bytes i u hmu] at h
  exact keyBytes_eq_of_digestBytes_eq hv hin h.symm

end Sys2Proof.Machine
end

section
/-! SUPPORT. The keyed permutation hash (46_siphash.md): the fields of the final word, the digest SIP.REF leaves in memory,
and the published digests. -/

namespace Sys2Proof.Machine

/-! ### The final word -/

/-- The final word is two fields side by side: the length byte, and the leftover bytes in the 56 bits below it (R248). -/
theorem sipFinalWord_eq_append (n : Nat) {leftover : Nat} (h : leftover < 2 ^ 56) :
    sipFinalWord n leftover = BitVec.ofNat 8 n ++ BitVec.ofNat 56 leftover := by
  have hlow : leftover % 2 ^ 64 = leftover % 2 ^ 56 := by omega
  have hhigh : (n % 256 % 2 ^ 64) <<< 56 % 2 ^ 64 = (n % 2 ^ 8) <<< 56 := by simp only [Nat.shiftLeft_eq]; omega
  apply BitVec.eq_of_toNat_eq
  simp only [sipFinalWord, BitVec.toNat_or, BitVec.toNat_shiftLeft, BitVec.toNat_append, BitVec.toNat_ofNat, hlow, hhigh]

/-- The number of at most seven bytes fits below the top byte of a 64-bit word. -/
theorem numberOfBytes_lt_of_length_le {bs : List Byte} (h : bs.length ≤ 7) : numberOfBytes bs < 2 ^ 56 :=
  calc numberOfBytes bs
    _ < 256 ^ bs.length := numberOfBytes_lt bs
    _ ≤ 256 ^ 7 := Nat.pow_le_pow_right (by decide) h

/-- Settles O39: at most seven bytes are left over, so they fit the lower of the final word's two fields. -/
theorem sipFinalWordPacksLengthAndLeftover : Obligations.SipFinalWordPacksLengthAndLeftover := by
  unfold Obligations.SipFinalWordPacksLengthAndLeftover
  intro n bs hlen
  have hseven : bs.length ≤ 7 := by omega
  have hlt : numberOfBytes bs < 2 ^ 56 := numberOfBytes_lt_of_length_le hseven
  rw [sipFinalWord_eq_append n hlt]
  refine ⟨?_, ?_, fun j hj => ?_⟩
  · rw [BitVec.toNat_append, BitVec.toNat_ofNat, BitVec.toNat_ofNat, Nat.mod_eq_of_lt hlt,
      ← Nat.shiftLeft_add_eq_or_of_lt hlt, Nat.shiftLeft_eq]
  · rw [byteOf_append_high _ _ 7 rfl 0]
    exact BitVec.extractLsb'_eq_self
  · rw [byteOf_append_low _ _ j (by omega), byteOf_ofNat_numberOfBytes bs j hj (by omega)]

/-! ### The digest -/

theorem read_completed_of_sip {i : Instr} {s : State} {j : Nat} (hm : Memory.wf s.mem) (hv : i.variant = .sip)
    (hj : j < 8) :
    Memory.read (completed i s).mem (s.outAddr.toNat + j) = byteOf (sipHash (keyBytes s 16) (inputBytes s)) j := by
  refine read_completed hm (by rw [hv]; exact hj) ?_
  rw [digestBytes, hv]
  exact getElem?_lowBytes _ hj

/-- Settles O28: SIP.REF writes the digest of the variant SIP, the eight bytes of `sipHash`. -/
theorem sipCommandWritesSipHash : Obligations.SipCommandWritesSipHash := by
  unfold Obligations.SipCommandWritesSipHash
  intro s hm h
  exact ⟨completed .sipRef s, exec_of_accepted h, completed_ended .sipRef s, fun j hj => read_completed_of_sip hm rfl hj⟩

/-- Settles O40: `sipHash` computes, and each published digest is one evaluation of it (R253). -/
theorem sipHashGivesPublishedDigests : Obligations.SipHashGivesPublishedDigests := by
  unfold Obligations.SipHashGivesPublishedDigests
  intro bytesTo
  exact ⟨by decide, by decide, by decide, by decide⟩

end Sys2Proof.Machine
end

section
/-! SUPPORT. Reset, turns and stops (60_exceptions.md, 70_reset_and_hazards.md): what the reset event leaves of memory, whose
move a step is, and the reasons for which a good state stops. -/

namespace Sys2Proof.Machine

/-! ### Reset -/

/-- A reset that cuts off no digest write leaves no byte free (R302, log 6). -/
theorem bytesCutOff_of_not_writing {s : State} (h : ¬ (s.busy = true ∧ s.phase = .write)) : bytesCutOff s = 0 :=
  if_neg (by simpa [writingDigest] using h)

/-- A reset in phase WRITE leaves the command's D output bytes free (R302, log 6). -/
theorem bytesCutOff_of_writing {i : Instr} {s : State} (hb : s.busy = true) (hp : s.phase = .write)
    (hd : decode s.cmd = .ok i) : bytesCutOff s = digestSize i.variant := by
  simp [bytesCutOff, writingDigest, hb, hp, hd]

/-- Settles O2: the registers are those of `State.reset`, and free values go to the bytes cut off only. -/
theorem resetEventClearsRegistersAndKeepsMemory : Obligations.ResetEventClearsRegistersAndKeepsMemory := by
  unfold Obligations.ResetEventClearsRegistersAndKeepsMemory
  intro s
  refine ⟨resetEvent s, rfl, rfl, rfl, rfl, rfl, rfl, rfl, rfl, rfl, rfl, rfl, rfl, rfl, fun hw => ?_,
    fun i hb hp hd x hx => ?_⟩
  · rw [resetEvent_mem, bytesCutOff_of_not_writing hw, Memory.scribble]
  · rw [resetEvent_mem, bytesCutOff_of_writing hb hp hd, Memory.read_scribble_of_outside _ _ hx]

/-- A null IN_ADDR is the first thing the Validator reports (R141, R154). -/
theorem verdict_of_inAddr_zero {i : Instr} {s : State} (h : s.inAddr = 0) : verdict i s = .code .invalidParameter :=
  (validatorReportsFirstFailingCheck ..).1 (.inl ((toNat_eq_zero_iff _).2 h))

/-- Settles O3: such a command fails check 1, and a failed command ends before it makes an access. -/
theorem firstCommandAfterResetIsInvalidParameter : Obligations.FirstCommandAfterResetIsInvalidParameter := by
  unfold Obligations.FirstCommandAfterResetIsInvalidParameter
  refine ⟨⟨rfl, rfl, rfl, rfl, rfl, rfl⟩, fun i s hp hin _ _ _ _ _ => ?_⟩
  have hended := complete_issueLegal_ended .invalidParameter i s
  have herr : ErrorCode.word .invalidParameter = 0xFFFFFFFF := by decide
  exact ⟨_, exec_of_error hp (verdict_of_inAddr_zero hin) (by decide), hended, hended.err.trans herr, rfl, rfl⟩

/-! ### Whose turn it is -/

theorem step_of_idle {s : State} (hb : s.busy = false) : step s = hostStep s := if_neg (by simp [hb])

theorem step_of_unpaced {s : State} (hb : s.busy = true) (hp : s.pace = []) : step s = engineStep s := by
  rw [step, if_pos hb, hp]

theorem step_of_engineTurn {s : State} {p : List Turn} (hb : s.busy = true) (hp : s.pace = .engine :: p) :
    step s = engineStep { s with pace := p } := by
  rw [step, if_pos hb, hp]

theorem step_of_hostTurn {s : State} {p : List Turn} (hb : s.busy = true) (hp : s.pace = .host :: p) :
    step s = hostStep { s with pace := p } := by
  rw [step, if_pos hb, hp]

theorem hostStep_of_nil {s : State} (h : s.host = []) : hostStep s = .next s := by
  rw [hostStep, h]

theorem hostStep_of_cons {s : State} {op : HostOp} {ops : List HostOp} (h : s.host = op :: ops) :
    hostStep s = hostOp op { s with host := ops } := by
  rw [hostStep, h]

/-- Settles O23: BUSY and `pace` say whose turn it is, and the queue what the host does with its own. -/
theorem stepMovesTheAgentWhoseTurnItIs : Obligations.StepMovesTheAgentWhoseTurnItIs := by
  unfold Obligations.StepMovesTheAgentWhoseTurnItIs
  intro s
  refine ⟨fun hb hh => ?_, fun op ops hb hh => ?_, step_of_unpaced, fun p => step_of_engineTurn,
    fun p op ops hb hp hh => ?_, fun p hb hp hh => ?_⟩
  · rw [step_of_idle hb, hostStep_of_nil hh]
  · rw [step_of_idle hb, hostStep_of_cons hh]
  · exact (step_of_hostTurn hb hp).trans (hostStep_of_cons (s := { s with pace := p }) hh)
  · exact (step_of_hostTurn hb hp).trans (hostStep_of_nil (s := { s with pace := p }) hh)

/-! ### Why a step stops -/

/-- The outcomes the spec leaves to a step of a good state: it answers, or it stops at an address outside the address space
(R60), at a range past the top (R152) or at the host's breach of its duty (R76). -/
inductive NamedOutcome (hw : Params) : Host.Outcome State Fault Refusal → Prop
  | next (t : State) : NamedOutcome hw (.next t)
  | outsideAddressSpace (a : Nat) : 2 ^ hw.aw.bits ≤ a → NamedOutcome hw (.fault (.outsideAddressSpace a))
  | rangePastTop : NamedOutcome hw (.refused .rangePastTop)
  | bufferTouched : NamedOutcome hw (.refused .bufferTouched)

theorem NamedOutcome.of_exists_next {hw : Params} {o : Host.Outcome State Fault Refusal} (h : ∃ t, o = .next t) :
    NamedOutcome hw o := by
  obtain ⟨t, rfl⟩ := h
  exact .next t

theorem exec_namedOutcome (i : Instr) (s : State) : NamedOutcome s.hw (exec i s) := by
  rcases exec_cases i s with ⟨-, hx⟩ | ⟨-, -, hx⟩ | ⟨e, -, -, -, hx⟩ | ⟨-, -, hx⟩
  · rw [hx]; exact .next _
  · rw [hx]; exact .rangePastTop
  · rw [hx]; exact .next _
  · rw [hx]; exact .next _

theorem issueCmd_namedOutcome (s : State) : NamedOutcome s.hw (issueCmd s) := by
  rcases issueCmd_cases s with ⟨e, -, hx⟩ | ⟨i, -, -, hx⟩ | ⟨i, -, -, hx⟩
  · rw [hx]; exact .next _
  · rw [hx]; exact exec_namedOutcome i s
  · rw [hx]; exact .next _

theorem hostWrite_namedOutcome (index v : Nat) (s : State) : NamedOutcome s.hw (hostWrite index v s) := by
  unfold hostWrite
  split
  · exact .next s
  · split
    · exact issueCmd_namedOutcome (writeCmd s v)
    · exact .next _

/-- The two guards of the host's loads and stores (R60, R76). -/
theorem namedOutcome_of_guards (hw : Params) (a : Nat) (touched : Bool) (t : State) :
    NamedOutcome hw (if 2 ^ hw.aw.bits ≤ a then .fault (.outsideAddressSpace a)
      else if touched then .refused .bufferTouched else .next t) := by
  split
  · exact .outsideAddressSpace a (by assumption)
  · split
    · exact .bufferTouched
    · exact .next t

/-- A host operation stops for no other reason in any state, good or not. -/
theorem hostOp_namedOutcome (op : HostOp) (s : State) : NamedOutcome s.hw (hostOp op s) := by
  cases op with
  | wr index v => exact hostWrite_namedOutcome index v s
  | store a b => exact namedOutcome_of_guards s.hw a (inAwaited s a) _
  | load a => exact namedOutcome_of_guards s.hw a (inAwaitedOutput s a) _
  | rd | wait | reset => exact .next _

theorem hostStep_namedOutcome (s : State) : NamedOutcome s.hw (hostStep s) := by
  cases hh : s.host with
  | nil => rw [hostStep_of_nil hh]; exact .next s
  | cons op ops => rw [hostStep_of_cons hh]; exact hostOp_namedOutcome op { s with host := ops }

theorem phaseStep_of_pastTop {i : Instr} {s : State} (hp : s.phase = .validate) (hv : verdict i s = .pastTop) :
    phaseStep i s = .refused .rangePastTop := by
  simp only [phaseStep, hp, hv]

theorem phaseStep_of_error {i : Instr} {s : State} {e : ErrorCode} (hp : s.phase = .validate)
    (hv : verdict i s = .code e) (he : e ≠ .success) : phaseStep i s = .next (complete e s) := by
  simp only [phaseStep, hp, hv]

/-- A running command stops in VALIDATE only: past it the Validator has passed the operands, and the order of the phases
leads on (R126, R130). -/
theorem Running.phaseStep_namedOutcome {i : Instr} {s : State} (r : Running i s) (hne : s.phase ≠ .idle) :
    NamedOutcome s.hw (phaseStep i s) := by
  by_cases hv : verdict i s = .code .success
  · exact .of_exists_next (exists_phaseStep r hne hv)
  · have hp : s.phase = .validate := by_contra fun hp => hv (r.validated hp)
    cases hverdict : verdict i s with
    | pastTop => rw [phaseStep_of_pastTop hp hverdict]; exact .rangePastTop
    | code e =>
      have he : e ≠ .success := fun he => hv (he ▸ hverdict)
      rw [phaseStep_of_error hp hverdict he]; exact .next _

/-- A busy engine in a good state runs the legal command in CMD and is not in IDLE (R42, R128). -/
theorem State.Inv.engineStep_namedOutcome {s : State} (hs : s.Inv) (hb : s.busy = true) :
    NamedOutcome s.hw (engineStep s) := by
  obtain ⟨i, hd, r⟩ := hs.running hb
  have hne : s.phase ≠ .idle := fun hp => by rw [hs.idle.1 hp] at hb; cases hb
  simpa only [engineStep, hd] using r.phaseStep_namedOutcome hne

theorem State.Inv.step_namedOutcome {s : State} (hs : s.Inv) : NamedOutcome s.hw (step s) := by
  cases hb : s.busy with
  | false => rw [step_of_idle hb]; exact hostStep_namedOutcome s
  | true =>
    match hp : s.pace with
    | [] => rw [step_of_unpaced hb hp]; exact hs.engineStep_namedOutcome hb
    | .engine :: p =>
      have hs' : State.Inv { s with pace := p } := hs.withHostSide s.host p s.hostData hs.memWf hs.memBound
      rw [step_of_engineTurn hb hp]; exact hs'.engineStep_namedOutcome hb
    | .host :: p => rw [step_of_hostTurn hb hp]; exact hostStep_namedOutcome { s with pace := p }

/-- Settles O52: none of the outcomes that are left is one of those shut out. -/
theorem goodStatesStopOnlyByTheNamedReasons : Obligations.GoodStatesStopOnlyByTheNamedReasons := by
  unfold Obligations.GoodStatesStopOnlyByTheNamedReasons
  intro s hs
  have hout := hs.step_namedOutcome
  refine ⟨fun h => ?_, fun m h => ?_, fun a h => ?_⟩
  · rw [h] at hout; cases hout
  · rw [h] at hout; cases hout
  · rw [h] at hout; cases hout with | outsideAddressSpace _ ha => exact ha

end Sys2Proof.Machine
end
